-- ==== Sys2Proof/Word.lean ====
section
/-! DEFINITION. The two word types of the block (spec 10_state.md R21, 20_memory.md R64). -/

namespace Sys2Proof

/-- A register or a command word: 32 bits, bit 31 the most significant (R10, R21, R80). -/
abbrev Word := BitVec 32

/-- One byte of the payload buffer: bit 7 the first bit on the wire (R10, R62). -/
abbrev Byte := BitVec 8

end Sys2Proof
end

