-- ==== Sys2Proof/Syntax.lean ====
section
/-! DEFINITION. The 13 commands of the opcode map (spec 30_encoding.md R83), with the fields of their formats (R81). -/

namespace Sys2Proof

/-- One command, its operands the fields of its format in the order of the opcode table. Every field is unsigned (R82). -/
inductive Instr where
  /-- NOP (R190). -/
  | nop
  /-- CUR_SET: bit offset and byte index of the cursor (R104). -/
  | curSet (off : BitVec 3) (idx : BitVec 16)
  /-- WRBITS: how many bits of DATA to write (R105). -/
  | wrbits (count : BitVec 7)
  /-- RDBITS: how many bits to read into DATA (R107). -/
  | rdbits (count : BitVec 7)
  /-- PACK: the codec mode request and the number of frames (R140). -/
  | pack (cmr : BitVec 4) (nfr : BitVec 8)
  /-- UNPACK: how many PCM_OUT slots the host provides (R160). -/
  | unpack (outcap : BitVec 8)
  /-- MODEBITS: the mode to look up (R180). -/
  | modebits (mode : BitVec 4)
  /-- B2S: a byte count (R181). -/
  | b2s (n : BitVec 16)
  /-- S2B: a sample count (R182). -/
  | s2b (n : BitVec 16)
  /-- TOCENC: continuation, quality and frame type (R128). -/
  | tocenc (f : BitVec 1) (q : BitVec 1) (ft : BitVec 4)
  /-- TOCDEC: the TOC byte to parse (R129). -/
  | tocdec (byte : BitVec 8)
  /-- CODEC_CREATE (R192). -/
  | codecCreate
  /-- CODEC_DESTROY (R193). -/
  | codecDestroy
  deriving DecidableEq, Repr

end Sys2Proof
end

