-- ==== Sys2Proof/Decode.lean ====
section
/-! DEFINITION. Command words: formats, opcodes, the decoder, the encoder and the assembler names
(spec 30_encoding.md R80 to R89). -/

namespace Sys2Proof

/-- The nine command formats (R81). -/
inductive Format where
  | N | C | B | P | U | M | H | T | Y
  deriving DecidableEq, Repr

/-- The operand bits a format reserves (R81, R88). -/
def reservedMask : Format → BitVec 24
  | .N => 0xFFFFFF#24
  | .C => 0xF80000#24
  | .B => 0xFFFF80#24
  | .P => 0xFFF000#24
  | .U => 0xFFFF00#24
  | .M => 0xFFFFF0#24
  | .H => 0xFF0000#24
  | .T => 0xFFFEE0#24
  | .Y => 0xFFFF00#24

/-- The rows of the opcode map (R83). -/
inductive Opcode where
  | nop | curSet | wrbits | rdbits | pack | unpack | modebits | b2s | s2b | tocenc | tocdec | codecCreate | codecDestroy
  deriving DecidableEq, Repr

/-- Every row, in the map's order. -/
def allOpcodes : List Opcode :=
  [.nop, .curSet, .wrbits, .rdbits, .pack, .unpack, .modebits, .b2s, .s2b, .tocenc, .tocdec, .codecCreate, .codecDestroy]

/-- The OPC value of a row (R83). -/
def opcodeByte : Opcode → Byte
  | .nop          => 0x00#8
  | .curSet       => 0x01#8
  | .wrbits       => 0x02#8
  | .rdbits       => 0x03#8
  | .pack         => 0x10#8
  | .unpack       => 0x11#8
  | .modebits     => 0x20#8
  | .b2s          => 0x21#8
  | .s2b          => 0x22#8
  | .tocenc       => 0x23#8
  | .tocdec       => 0x24#8
  | .codecCreate  => 0x30#8
  | .codecDestroy => 0x31#8

/-- The format of a row (R83). -/
def opcodeFormat : Opcode → Format
  | .nop          => .N
  | .curSet       => .C
  | .wrbits       => .B
  | .rdbits       => .B
  | .pack         => .P
  | .unpack       => .U
  | .modebits     => .M
  | .b2s          => .H
  | .s2b          => .H
  | .tocenc       => .T
  | .tocdec       => .Y
  | .codecCreate  => .N
  | .codecDestroy => .N

/-- OPC of a word: bits 31:24 (R80). -/
def opcOf (w : Word) : Byte := w.extractLsb' 24 8

/-- The operand of a word: bits 23:0 (R80). -/
def operandOf (w : Word) : BitVec 24 := w.extractLsb' 0 24

/-- The row with this OPC value; none for the values R86 leaves undefined. -/
def opcodeOf (b : Byte) : Option Opcode := allOpcodes.find? (fun o => opcodeByte o == b)

/-- The fields of a word laid out by the row's format (R81). -/
def fieldsOf (w : Word) : Opcode → Instr
  | .nop          => .nop
  | .curSet       => .curSet (w.extractLsb' 16 3) (w.extractLsb' 0 16)
  | .wrbits       => .wrbits (w.extractLsb' 0 7)
  | .rdbits       => .rdbits (w.extractLsb' 0 7)
  | .pack         => .pack (w.extractLsb' 8 4) (w.extractLsb' 0 8)
  | .unpack       => .unpack (w.extractLsb' 0 8)
  | .modebits     => .modebits (w.extractLsb' 0 4)
  | .b2s          => .b2s (w.extractLsb' 0 16)
  | .s2b          => .s2b (w.extractLsb' 0 16)
  | .tocenc       => .tocenc (w.extractLsb' 8 1) (w.extractLsb' 4 1) (w.extractLsb' 0 4)
  | .tocdec       => .tocdec (w.extractLsb' 0 8)
  | .codecCreate  => .codecCreate
  | .codecDestroy => .codecDestroy

/-- Why a word is no command. Both complete with ERR = IllegalCommand (R84, R86). -/
inductive DecodeError where
  /-- OPC is not in the opcode map (R86). -/
  | undefinedOpcode (opc : Byte)
  /-- A reserved bit of the format is 1 (R84). -/
  | reservedBits (operand : BitVec 24)
  deriving DecidableEq, Repr

/-- The decoder, total on all words (R88). -/
def decode (w : Word) : Except DecodeError Instr :=
  match opcodeOf (opcOf w) with
  | none   => .error (.undefinedOpcode (opcOf w))
  | some o =>
    if operandOf w &&& reservedMask (opcodeFormat o) = 0#24 then .ok (fieldsOf w o)
    else .error (.reservedBits (operandOf w))

/-- The row of the opcode map an instruction belongs to. -/
def opcodeOfInstr : Instr → Opcode
  | .nop          => .nop
  | .curSet _ _   => .curSet
  | .wrbits _     => .wrbits
  | .rdbits _     => .rdbits
  | .pack _ _     => .pack
  | .unpack _     => .unpack
  | .modebits _   => .modebits
  | .b2s _        => .b2s
  | .s2b _        => .s2b
  | .tocenc _ _ _ => .tocenc
  | .tocdec _     => .tocdec
  | .codecCreate  => .codecCreate
  | .codecDestroy => .codecDestroy

/-- The operand bits 23:0: each field shifted to its low bit (R81, R89). -/
def encodeOperand : Instr → Word
  | .nop           => 0#32
  | .curSet off idx => (off.zeroExtend 32 <<< 16) ||| idx.zeroExtend 32
  | .wrbits count  => count.zeroExtend 32
  | .rdbits count  => count.zeroExtend 32
  | .pack cmr nfr  => (cmr.zeroExtend 32 <<< 8) ||| nfr.zeroExtend 32
  | .unpack outcap => outcap.zeroExtend 32
  | .modebits mode => mode.zeroExtend 32
  | .b2s n         => n.zeroExtend 32
  | .s2b n         => n.zeroExtend 32
  | .tocenc f q ft => (f.zeroExtend 32 <<< 8) ||| (q.zeroExtend 32 <<< 4) ||| ft.zeroExtend 32
  | .tocdec byte   => byte.zeroExtend 32
  | .codecCreate   => 0#32
  | .codecDestroy  => 0#32

/-- The command word of an instruction: (OPC << 24) OR its fields (R89). -/
def encode (i : Instr) : Word :=
  ((opcodeByte (opcodeOfInstr i)).zeroExtend 32 <<< 24) ||| encodeOperand i

/-- The mnemonic of a row (R83). -/
def opcodeMnemonic : Opcode → String
  | .nop          => "NOP"
  | .curSet       => "CUR_SET"
  | .wrbits       => "WRBITS"
  | .rdbits       => "RDBITS"
  | .pack         => "PACK"
  | .unpack       => "UNPACK"
  | .modebits     => "MODEBITS"
  | .b2s          => "B2S"
  | .s2b          => "S2B"
  | .tocenc       => "TOCENC"
  | .tocdec       => "TOCDEC"
  | .codecCreate  => "CODEC_CREATE"
  | .codecDestroy => "CODEC_DESTROY"

/-- The `name=value` fields of an instruction, in the order of the format table (R89). -/
def assemblyFields : Instr → List (String × Nat)
  | .nop            => []
  | .curSet off idx => [("off", off.toNat), ("idx", idx.toNat)]
  | .wrbits count   => [("count", count.toNat)]
  | .rdbits count   => [("count", count.toNat)]
  | .pack cmr nfr   => [("cmr", cmr.toNat), ("nfr", nfr.toNat)]
  | .unpack outcap  => [("outcap", outcap.toNat)]
  | .modebits mode  => [("mode", mode.toNat)]
  | .b2s n          => [("n", n.toNat)]
  | .s2b n          => [("n", n.toNat)]
  | .tocenc f q ft  => [("f", f.toNat), ("q", q.toNat), ("ft", ft.toNat)]
  | .tocdec byte    => [("byte", byte.toNat)]
  | .codecCreate    => []
  | .codecDestroy   => []

/-- One instruction in the assembler's form: the mnemonic, then its fields (R89). -/
def assembly (i : Instr) : String × List (String × Nat) :=
  (opcodeMnemonic (opcodeOfInstr i), assemblyFields i)

/-- The command line of an instruction: its mnemonic followed by `name=value` in decimal (R89). -/
def assemblyText (i : Instr) : String :=
  match (assembly i).2 with
  | []     => (assembly i).1
  | fields => (assembly i).1 ++ " " ++ String.intercalate ", " (fields.map (fun f => f.1 ++ "=" ++ toString f.2))

/-- The instruction this decoder reads from a word whose low `nbits` bits are given, all bits above them 0.
Every command is one 32-bit word (R80). -/
def decodeTableWord (nbits w : Nat) : Option Instr :=
  match decode (BitVec.ofNat 32 (w % 2 ^ nbits)) with
  | .ok i    => some i
  | .error _ => none

end Sys2Proof
end

