-- ==== Sys2Proof/Machine/Bits.lean ====
section
/-! DEFINITION. Bit sequences (spec 00_scope.md R10 to R12): index 0 is the first bit on the wire. -/

namespace Sys2Proof.Machine

/-- `ceil8(n)`: how many bytes hold n bits (R12). -/
def ceil8 (n : Nat) : Nat := (n + 7) / 8

/-- `zeros(n)`: n zero bits (R11). -/
def zeros (n : Nat) : List Bool := List.replicate n false

/-- `bitsN(v, n)`: the n-bit sequence of v, most significant bit first (R11). -/
def bitsN (v : Nat) : Nat → List Bool
  | 0     => []
  | n + 1 => v.testBit n :: bitsN v n

/-- `num(s)`: the unsigned number whose most significant bit is s[0] (R11). -/
def num (bits : List Bool) : Nat := bits.foldl (fun acc b => 2 * acc + b.toNat) 0

/-- `bitsOf(B)`: the bits of a byte list, bit 7 of each byte first (R11). -/
def bitsOf (bytes : List Byte) : List Bool := bytes.flatMap (fun b => bitsN b.toNat 8)

/-- One byte of `bytesOf`: up to 8 bits left-aligned, the unused low bits 0 (R11). -/
def byteOf (bits : List Bool) : Byte := BitVec.ofNat 8 (num (bits.take 8 ++ zeros (8 - bits.length)))

/-- `bytesOf(s)`: ceil8(len s) bytes, left-aligned and zero-filled (R11). -/
def bytesOf (bits : List Bool) : List Byte :=
  (List.range (ceil8 bits.length)).map (fun k => byteOf (bits.drop (8 * k)))

/-- A byte with bit `k` set to `b` and every other bit unchanged (R13 `setbit`). -/
def byteSet (x : Byte) (k : Nat) (b : Bool) : Byte :=
  if b then x ||| (1#8 <<< k) else x &&& ~~~(1#8 <<< k)

/-- One bit as a number field of `w` bits. -/
def boolField (w : Nat) (b : Bool) : BitVec w := BitVec.ofNat w b.toNat

end Sys2Proof.Machine
end

