-- ==== Sys2Proof/Config.lean ====
section
/-! DEFINITION. What an implementation fixes (spec 00_scope.md R9), the values that cross the FrameCodec port
(10_state.md R41) and the free values: the codec oracle's draws and the unspecified scratch contents. -/

namespace Sys2Proof.Config

/-- One frame of 160 PCM samples. The block never looks inside (R41, R67); the model lets it be any list of bytes
(DESIGN CHOICE, log 4: safe, every content is allowed). -/
structure PcmFrame where
  content : List Byte
  deriving DecidableEq, Repr, Inhabited

/-- What `CodecEncode` answers (R41): an 8-bit mode, the quality bit and the speech bytes. -/
structure EncodeReply where
  mode  : BitVec 8
  q     : BitVec 1
  bytes : List Byte
  deriving DecidableEq, Repr, Inhabited

/-- One parsed table-of-contents entry (R43, R125). -/
structure TocEntry where
  f  : BitVec 1
  ft : BitVec 4
  q  : BitVec 1
  deriving DecidableEq, Repr, Inhabited

/-- One call on the FrameCodec port with its answer (R41, R42, R168). -/
inductive CodecCall where
  | create  (param : Word) (ok : Bool)
  | encode  (frame : PcmFrame) (reply : EncodeReply)
  | decode  (mode : BitVec 8) (q : BitVec 1) (bytes : List Byte) (frame : PcmFrame)
  | destroy
  deriving DecidableEq, Repr

/-- Which codec stands behind the port (R9, R41): the oracle, or the stub codec of 95_test_vectors.md section 2
in its succeeding or its failing variant (log 3). -/
inductive CodecKind where
  | oracle
  | stub
  | failingStub
  deriving DecidableEq, Repr

/-- The parameters the source leaves open (R9): "the model takes as an argument". -/
structure Params where
  /-- BUF_CAP: bytes in PBUF. -/
  bufCap         : Nat
  /-- MAX_FRAMES: frames one PACK may carry, and the number of PCM_IN slots. -/
  maxFrames      : Nat
  /-- PCM_OUT_FRAMES: the number of PCM_OUT slots. -/
  pcmOutFrames   : Nat
  /-- PCM_SAMPLE_BYTES: bytes per PCM sample. -/
  pcmSampleBytes : Nat
  /-- Codec: what answers the FrameCodec calls. -/
  codec          : CodecKind
  deriving DecidableEq, Repr

/-- The legal ranges of R9. -/
abbrev Params.legal (p : Params) : Prop :=
  (1 ≤ p.bufCap ∧ p.bufCap ≤ 65535) ∧ (1 ≤ p.maxFrames ∧ p.maxFrames ≤ 255) ∧
  (1 ≤ p.pcmOutFrames ∧ p.pcmOutFrames ≤ 255) ∧ (1 ≤ p.pcmSampleBytes ∧ p.pcmSampleBytes ≤ 4)

/-- The reference numbers of R9, with the codec left an oracle (DESIGN CHOICE, log 1). -/
def referenceParams : Params :=
  { bufCap := 256, maxFrames := 4, pcmOutFrames := 8, pcmSampleBytes := 2, codec := .oracle }

/-- FREE VALUE (log 2). Whether the oracle's `CodecCreate` succeeds: draw `n`, after the calls made, for a parameter. -/
opaque createDraw : (n : Nat) → (calls : List CodecCall) → (param : Word) → Bool

/-- FREE VALUE (log 2). The oracle's `CodecEncode` answer. -/
opaque encodeDraw : (n : Nat) → (calls : List CodecCall) → (frame : PcmFrame) → EncodeReply

/-- FREE VALUE (log 2). The oracle's `CodecDecode` answer. -/
opaque decodeDraw : (n : Nat) → (calls : List CodecCall) → (mode : BitVec 8) → (q : BitVec 1) → (bytes : List Byte) → PcmFrame

/-- FREE VALUE (log 6). What the TOC scratch holds between commands: "unspecified" (R43). -/
opaque freeToc : (n : Nat) → List TocEntry

/-- FREE VALUE (log 6). What the encode staging holds between commands: "unspecified" (R44). -/
opaque freeStaging : (n : Nat) → List EncodeReply

end Sys2Proof.Config
end

