-- ==== Sys2Proof/Machine/State.lean ====
section
/-! DEFINITION. The architectural state of one AMRF block (spec 10_state.md), the host's pending accesses, the reasons a
step stops, and the state after reset (70_reset_and_hazards.md R231). -/

namespace Sys2Proof.Machine

open Sys2Proof.Config

/-- The model faults of R215. Each makes the state faulted (`State.faulted`); the model stops where a faulted state is asked to
go on without the platform's reset (R230, log 11). -/
inductive Fault where
  /-- A host read or a command read bit `p` of PBUF, which nothing has written since reset (R47, R215.1). Raised by
  `memRead` and `readBits`. Safe: the spec says the model does not guess the value. -/
  | undefinedBit (p : Nat)
  /-- A command read PCM_IN slot `k`, which nothing has written since reset (R47, R215.1). Raised by `readPcmIn`. Safe. -/
  | undefinedPcmIn (k : Nat)
  /-- The host read PCM_OUT slot `k`, which nothing has written since reset (R47, R67). Raised by `pcmOutRead`. Safe. -/
  | undefinedPcmOut (k : Nat)
  /-- The host accessed a register with a width other than 32, or PBUF with a width other than 8 (R65, R215.2). Raised by
  `busTarget`. Safe: the access changes no state. -/
  | accessWidth (offset width : Nat)
  /-- The host accessed a register at an offset that is no multiple of 4 (R65, R215.2). Raised by `busTarget`. Safe. -/
  | accessAlignment (offset : Nat)
  /-- The host accessed an offset no table lists (R38, R65, R66). Raised by `busTarget`. Safe. -/
  | accessOffset (offset : Nat)
  /-- The host named a PCM slot that does not exist (R67, R215.2). Raised by `pcmInWrite` and `pcmOutRead`. Safe. -/
  | pcmIndex (k : Nat)
  /-- The codec answered a mode up to 7 with a number of speech bytes other than nbytes(mode) (R41, R215.3). Raised by
  `codecEncode`. Safe. -/
  | codecContract (mode : BitVec 8)
  deriving DecidableEq, Repr

/-- Why a step has no meaning. -/
inductive Refusal where
  /-- The instruction of this mnemonic is not modelled. Raised by no arm: every command has its meaning. Safe. -/
  | notModelled (mnemonic : String)
  /-- The host made an access that R236 forbids while BUSY = 1; "The model gives such an access no step" (R71, U20). Raised
  by `hostAccess`, and only in states no run reaches. Safe. -/
  | hostWhileBusy
  deriving DecidableEq, Repr

/-- The error codes of STATUS.ERR (R200). -/
inductive ErrCode where
  | none
  | uninitializedCodec
  | invalidModeIndex
  | truncatedPayload
  | paddingInconsistency
  | bufferTooSmall
  | malformedPayload
  | initializationError
  | sizingError
  | illegalCommand
  deriving DecidableEq, Repr

/-- The FrameCodec handle state (R40). -/
inductive HState where
  | none
  | live
  | released
  deriving DecidableEq, Repr

/-- The payload buffer (R60) as two planes of bytes, each a canonical list: `vals` holds the bits' values and `defd` a 1
for every bit written since reset (R47). A bit that is not defined holds 0 in `vals` (log 5). -/
structure Pbuf where
  vals : List Host.Cell
  defd : List Host.Cell
  deriving DecidableEq, Repr

/-- One access of the host or the platform (R64, R65, R67, R90, R230). Widths are in bits. -/
inductive HostOp where
  /-- A bus read at an offset from the block's base address. -/
  | read (offset width : Nat)
  /-- A bus write; an 8-bit write carries its byte in bits 7:0. -/
  | write (offset width : Nat) (value : Word)
  /-- PcmInWrite(slot, frame). -/
  | pcmInWrite (slot : Nat) (frame : PcmFrame)
  /-- PcmOutRead(slot). -/
  | pcmOutRead (slot : Nat)
  /-- `wait`: read STATUS until DONE = 1, then write 2 to STATUS. -/
  | wait
  /-- The platform's reset. -/
  | platformReset
  deriving DecidableEq, Repr

/-- What a host read gave back. -/
inductive HostData where
  | word (value : Word)
  | byte (value : Byte)
  | frame (value : PcmFrame)
  deriving DecidableEq, Repr

/-- The state of one AMRF block (R20), with the model's own fields at the end. -/
structure State where
  /-- The open parameters of R9; no step changes them (log 1). -/
  params      : Params
  /-- CTRL.IE (R24). -/
  ie          : Bool
  /-- STATUS.BUSY (R25). -/
  busy        : Bool
  /-- STATUS.DONE (R25). -/
  done        : Bool
  /-- STATUS.OVR (R25). -/
  ovr         : Bool
  /-- STATUS.TRUNC (R25). -/
  trunc       : Bool
  /-- STATUS.ERR (R25, R200). -/
  err         : ErrCode
  /-- STATUS.HSTATE (R25, R40). -/
  hstate      : HState
  /-- CMD: the last accepted command word (R26). -/
  cmd         : Word
  /-- CUR.BYTE_INDEX (R27). -/
  byteIndex   : BitVec 16
  /-- CUR.BIT_OFFSET (R27). -/
  bitOffset   : BitVec 3
  /-- DATA: DATA_HI and DATA_LO (R29). -/
  data        : BitVec 64
  /-- ARG_LEN.LEN (R30). -/
  argLen      : BitVec 16
  /-- CODEC_PARAM (R31). -/
  codecParam  : Word
  /-- RES_LEN (R32). -/
  resLen      : BitVec 16
  /-- RES_FRAMES.NTOC (R33). -/
  ntoc        : BitVec 16
  /-- RES_FRAMES.NDEC (R33). -/
  ndec        : BitVec 16
  /-- RES_SAMPLES (R34). -/
  resSamples  : Word
  /-- RES_PCMBYTES (R35). -/
  resPcmBytes : Word
  /-- RESULT (R36). -/
  result      : Word
  /-- CMR_OUT.CMR (R37). -/
  cmrOut      : BitVec 4
  /-- CMR_OUT.RAW (R37). -/
  cmrRaw      : Byte
  /-- PBUF (R60). -/
  pbuf        : Pbuf
  /-- PCM_IN (R45); none is an undefined slot (R47). -/
  pcmIn       : List (Option PcmFrame)
  /-- PCM_OUT (R46); none is an undefined slot (R47). -/
  pcmOut      : List (Option PcmFrame)
  /-- The TOC scratch (R43), oldest entry first. -/
  toc         : List TocEntry
  /-- The encode staging (R44), frame 0 first. -/
  staging     : List EncodeReply
  /-- The codec calls since reset, oldest first: the oracle's own state (R42). -/
  calls       : List CodecCall
  /-- The model fault the block is faulted by, none while it is not: "A fault makes the model's state faulted" (R215). Only
  the platform's reset takes the block out of it (R230, log 11). -/
  faulted     : Option Fault
  /-- How many free values were drawn: the model's own counter (log 2, log 6). -/
  draws       : Nat
  /-- The host accesses to come, oldest first (R90, R241; log 7). -/
  host        : List HostOp
  /-- What host reads gave back, oldest first (log 7). -/
  returned    : List HostData
  deriving DecidableEq, Repr

/-- The state after reset of a block with these parameters (R231). -/
def State.resetFor (p : Params) : State :=
  { params := p, ie := false, busy := false, done := false, ovr := false, trunc := false, err := .none, hstate := .none,
    cmd := 0#32, byteIndex := 0#16, bitOffset := 7#3, data := 0#64, argLen := 0#16, codecParam := 0#32,
    resLen := 0#16, ntoc := 0#16, ndec := 0#16, resSamples := 0#32, resPcmBytes := 0#32, result := 0#32,
    cmrOut := 0#4, cmrRaw := 0#8, pbuf := { vals := [], defd := [] },
    pcmIn := List.replicate p.maxFrames none, pcmOut := List.replicate p.pcmOutFrames none,
    toc := [], staging := [], calls := [], faulted := none, draws := 0, host := [], returned := [] }

/-- The machine right after reset (R231), with the reference numbers of R9 (DESIGN CHOICE, log 1) and nothing for the host
to do (log 7). -/
def State.reset : State := State.resetFor referenceParams

end Sys2Proof.Machine
end

