-- ==== Sys2Proof/Machine/Flags.lean ====
section
/-! DEFINITION. The status flags: acceptance, completion, the error codes, STATUS as a word and irq
(spec 10_state.md R25, R49; 60_exceptions.md R200 to R212). -/

namespace Sys2Proof.Machine

open Sys2Proof.Config

/-- The code STATUS.ERR holds (R200). -/
def errCode : ErrCode → BitVec 4
  | .none                 => 0#4
  | .uninitializedCodec   => 1#4
  | .invalidModeIndex     => 2#4
  | .truncatedPayload     => 3#4
  | .paddingInconsistency => 4#4
  | .bufferTooSmall       => 5#4
  | .malformedPayload     => 6#4
  | .initializationError  => 7#4
  | .sizingError          => 8#4
  | .illegalCommand       => 9#4

/-- The value STATUS.HSTATE holds (R40). -/
def hstateCode : HState → BitVec 2
  | .none     => 0#2
  | .live     => 1#2
  | .released => 2#2

/-- STATUS as the host reads it (R25): BUSY 0, DONE 1, OVR 2, TRUNC 3, ERR 7:4, HSTATE 9:8, bits 31:10 zero. -/
def statusWord (s : State) : Word :=
  boolField 32 s.busy ||| (boolField 32 s.done <<< 1) ||| (boolField 32 s.ovr <<< 2) ||| (boolField 32 s.trunc <<< 3) |||
  ((errCode s.err).zeroExtend 32 <<< 4) ||| ((hstateCode s.hstate).zeroExtend 32 <<< 8)

/-- The interrupt output: `irq = CTRL.IE AND STATUS.DONE` (R210). -/
def State.irq (s : State) : Bool := s.ie && s.done

/-- Acceptance of a command word (R204), before the command executes. -/
def acceptCommand (w : Word) (s : State) : State :=
  { s with cmd := w, busy := true, done := false, err := .none, trunc := false }

/-- What the TOC scratch holds between commands: a free value within its capacity (R43, log 6). -/
def unspecifiedToc (s : State) : List TocEntry := (freeToc s.draws).take s.params.bufCap

/-- What the encode staging holds between commands: a free value within its capacity (R44, log 6). -/
def unspecifiedStaging (s : State) : List EncodeReply :=
  ((freeStaging s.draws).take s.params.maxFrames).map (fun r => { r with bytes := r.bytes.take 31 })

/-- Completion of a command with an error code, `none` for `finish` (R206). It is the block's one way to report a failure:
"Errors are not traps" (R203), so nothing is saved, no mode changes, and there is no return operation (R208). Between
commands the scratch areas are unspecified (R43, R44). -/
def completeWith (e : ErrCode) (s : State) : State :=
  { s with err := e, busy := false, done := true,
           toc := unspecifiedToc s, staging := unspecifiedStaging s, draws := s.draws + 1 }

/-- `finish` (R13). -/
def finish (s : State) : State := completeWith .none s

/-- `raise E` (R13): the command makes no further change than those already in `s`. -/
def raiseErr (e : ErrCode) (s : State) : State := completeWith e s

end Sys2Proof.Machine
end

