-- ==== Sys2Proof/Machine/Memory.lean ====
section
/-! DEFINITION. The payload buffer as canonical lists of byte cells (spec 20_memory.md R60 to R64, R69; 10_state.md R47). -/

namespace Sys2Proof.Machine

/-- What a byte no cell lists reads as. In the plane of defined bits it says that no bit of the byte was written since
reset (R47); in the plane of values it is never looked at (log 5). -/
def unlistedByte : Byte := 0x00#8

/-- The byte of a plane at an address. -/
def cellsRead (a : Nat) : List Host.Cell → Byte
  | []            => unlistedByte
  | (k, v) :: rest => if k = a then v else cellsRead a rest

/-- One cell in front of a list, left out where it says what an unlisted byte says. -/
def cellsCons (a : Nat) (v : Byte) (rest : List Host.Cell) : List Host.Cell :=
  if v = unlistedByte then rest else (a, v) :: rest

/-- A plane with the byte at address `a` set to `v`, in canonical form. -/
def cellsWrite (a : Nat) (v : Byte) : List Host.Cell → List Host.Cell
  | []             => cellsCons a v []
  | (k, w) :: rest =>
    if a < k then cellsCons a v ((k, w) :: rest)
    else if a = k then cellsCons a v rest
    else (k, w) :: cellsWrite a v rest

/-- Every address of the list is above `lo`, the addresses rise strictly and no cell holds the unlisted byte. -/
def cellsAbove (lo : Nat) : List Host.Cell → Bool
  | []             => true
  | (k, w) :: rest => decide (lo < k) && decide (w ≠ unlistedByte) && cellsAbove k rest

/-- The canonical form of one plane. -/
def cellsWf : List Host.Cell → Bool
  | []             => true
  | (k, w) :: rest => decide (w ≠ unlistedByte) && cellsAbove k rest

/-- The canonical form of PBUF: both planes canonical. -/
abbrev Memory.wf (b : Pbuf) : Bool := cellsWf b.vals && cellsWf b.defd

/-- The values and the defined bits of byte `i`. -/
def Pbuf.byteAt (i : Nat) (b : Pbuf) : Byte × Byte := (cellsRead i b.vals, cellsRead i b.defd)

/-- PBUF with byte `i` holding these values and these defined bits. -/
def Pbuf.setByteAt (i : Nat) (v : Byte × Byte) (b : Pbuf) : Pbuf :=
  { vals := cellsWrite i v.1 b.vals, defd := cellsWrite i v.2 b.defd }

/-- `MemRead(i, 1)` (R64): byte i, none when any of its bits is undefined. -/
def Pbuf.readByte (i : Nat) (b : Pbuf) : Option Byte :=
  if (b.byteAt i).2 = 0xFF#8 then some (b.byteAt i).1 else none

/-- `MemWrite(i, 1, v)` (R64): all 8 bits become defined. -/
def Pbuf.writeByte (i : Nat) (v : Byte) (b : Pbuf) : Pbuf := b.setByteAt i (v, 0xFF#8)

/-- `bit(p)` (R13, R60): none when nothing has written it since reset. -/
def Pbuf.getBit (p : Nat) (b : Pbuf) : Option Bool :=
  if (b.byteAt (p / 8)).2.getLsbD (7 - p % 8) then some ((b.byteAt (p / 8)).1.getLsbD (7 - p % 8)) else none

/-- `setbit(p, x)` (R13): that one bit, the other 7 bits of its byte unchanged, defined or not (R47). -/
def Pbuf.setBit (p : Nat) (x : Bool) (b : Pbuf) : Pbuf :=
  b.setByteAt (p / 8) (byteSet (b.byteAt (p / 8)).1 (7 - p % 8) x, byteSet (b.byteAt (p / 8)).2 (7 - p % 8) true)

/-- The bits from position p on, each set in turn (R100). -/
def Pbuf.setRun : Nat → List Bool → Pbuf → Pbuf
  | _, [], b      => b
  | p, x :: xs, b => Pbuf.setRun (p + 1) xs (b.setBit p x)

/-- The n bits from position p on (R101); a bit nothing has written is a model fault (R47, R215). -/
def Pbuf.getRun (b : Pbuf) : Nat → Nat → Except Fault (List Bool)
  | _, 0     => .ok []
  | p, n + 1 =>
    match b.getBit p with
    | none   => .error (.undefinedBit p)
    | some x =>
      match b.getRun (p + 1) n with
      | .error f => .error f
      | .ok xs   => .ok (x :: xs)

end Sys2Proof.Machine
end

