-- ==== Sys2Proof/Machine/ModeTable.lean ====
section
/-! DEFINITION. The ModeTable ROM and the fixed constants (spec 00_scope.md R8, R14; 10_state.md R22, R23, R39). -/

namespace Sys2Proof.Machine

/-- MODE_TABLE: the bits of a frame of each mode (R8, R39). -/
def modeTable : List Nat := [95, 103, 118, 134, 148, 159, 204, 244]

/-- NMODES (R8). -/
def nmodes : Nat := 8

/-- `nbits(m)` for m up to 7 (R14, R39). Undefined above: every rule tests m first, and so does every use here (log 17). -/
def nbits (m : Nat) : Nat := modeTable.getD m 0

/-- `nbytes(m)`: the byte-rounded size (R14, R39). -/
def nbytes (m : Nat) : Nat := ceil8 (nbits m)

/-- SAMPLES_PER_FRAME (R8). -/
def samplesPerFrame : Nat := 160

/-- BYTES_PER_FRAME, used only by B2S and S2B (R8, R183). -/
def bytesPerFrame : Nat := 10

/-- ID: NMODES in 3:0 and OA = 1 in bit 4 (R22). -/
def idWord : Word := 0x00000018#32

/-- DESC: PT 118 in 7:0, CH 1 in 11:8, RATE 8000 in 31:16 (R23). -/
def descWord : Word := 0x1F400176#32

end Sys2Proof.Machine
end

