-- ==== Sys2Proof/Machine/Operands.lean ====
section
/-! DEFINITION. Operand forms: DATA as a bit sequence, the CMR and TOC fields, the payload length and the range checks
(spec 10_state.md R29; 41_fields.md R120 to R127; 42_pack.md R142; 60_exceptions.md R201). -/

namespace Sys2Proof.Machine

open Sys2Proof.Config

/-- `dataBits(n)[i] = DATA[63 - i]` (R29). -/
def dataBits (n : Nat) (d : BitVec 64) : List Bool := (bitsN d.toNat 64).take n

/-- DATA holding a bit sequence left-aligned, 0 below it (R107, R108). -/
def dataOfBits (bits : List Bool) : BitVec 64 := BitVec.ofNat 64 (num (bits ++ zeros (64 - bits.length)))

/-- `cmrBits(c) = bitsN(c, 4) ++ zeros(4)` (R121). -/
def cmrBits (c : BitVec 4) : List Bool := bitsN c.toNat 4 ++ zeros 4

/-- The CMR value of a received CMR byte: bits 7:4 (R122). -/
def cmrOf (b : Byte) : BitVec 4 := b.extractLsb' 4 4

/-- `tocByte(F, FT, Q) = (F << 7) | (FT << 3) | (Q << 2)` (R124). -/
def tocByte (f : BitVec 1) (ft : BitVec 4) (q : BitVec 1) : Byte :=
  (f.zeroExtend 8 <<< 7) ||| (ft.zeroExtend 8 <<< 3) ||| (q.zeroExtend 8 <<< 2)

/-- `parseToc(b)` (R125): F = b[7], FT = b[6:3], Q = b[2]; the reserved bits are not checked. -/
def parseToc (b : Byte) : TocEntry :=
  { f := b.extractLsb' 7 1, ft := b.extractLsb' 3 4, q := b.extractLsb' 2 1 }

/-- The entry is a speech mode, FT 0..7; otherwise it is a marker frame (R127). -/
def isSpeech (e : TocEntry) : Bool := e.ft.toNat ≤ 7

/-- The byte-rounded sizes of a list of modes, summed (R142). -/
def speechBytes (modes : List Nat) : Nat := (modes.map nbytes).sum

/-- `payloadLen(m[0..N-1]) = 1 + N + sum of nbytes(m[f])` (R142). -/
def payloadLen (modes : List Nat) : Nat := 1 + modes.length + speechBytes modes

/-- The position IDX, OFF is beyond 8*BUF_CAP: CUR_SET is illegal (R104, R201). -/
def curSetIllegal (off : BitVec 3) (idx : BitVec 16) (s : State) : Bool :=
  decide (s.params.bufCap < idx.toNat) || (decide (idx.toNat = s.params.bufCap) && decide (off ≠ 7#3))

/-- COUNT > 64: WRBITS and RDBITS are illegal (R105, R107, R201). -/
def countIllegal (count : BitVec 7) : Bool := decide (64 < count.toNat)

/-- NFR = 0, NFR > MAX_FRAMES or ARG_LEN.LEN > BUF_CAP: PACK is illegal (R141, R201). -/
def packIllegal (nfr : BitVec 8) (s : State) : Bool :=
  decide (nfr.toNat = 0) || decide (s.params.maxFrames < nfr.toNat) || decide (s.params.bufCap < s.argLen.toNat)

/-- OUTCAP > PCM_OUT_FRAMES or ARG_LEN.LEN > BUF_CAP: UNPACK is illegal (R161, R201). -/
def unpackIllegal (outcap : BitVec 8) (s : State) : Bool :=
  decide (s.params.pcmOutFrames < outcap.toNat) || decide (s.params.bufCap < s.argLen.toNat)

end Sys2Proof.Machine
end

