-- ==== Sys2Proof/Machine/Ops.lean ====
section
/-! DEFINITION. The named operations over the cursor, PBUF, the PCM slots and the codec port
(spec 10_state.md R28, R41, R45, R46; 40_bitcursor.md R100, R101). An error is reported by `raiseErr` of Flags.lean. -/

namespace Sys2Proof.Machine

open Sys2Proof.Config

/-- `pos() = 8 * BYTE_INDEX + (7 - BIT_OFFSET)` (R28). -/
def State.pos (s : State) : Nat := 8 * s.byteIndex.toNat + (7 - s.bitOffset.toNat)

/-- `setpos(p)` (R28). -/
def State.setPos (p : Nat) (s : State) : State :=
  { s with byteIndex := BitVec.ofNat 16 (p / 8), bitOffset := BitVec.ofNat 3 (7 - p % 8) }

/-- A run of n bits from the cursor would pass the end of PBUF (R106). -/
def runTooLong (n : Nat) (s : State) : Bool := decide (8 * s.params.bufCap < s.pos + n)

/-- `write_bits(bits, n)` (R100): the first n bits from the cursor on, then the cursor advances by n. -/
def writeBits (bits : List Bool) (n : Nat) (s : State) : State :=
  { s with pbuf := s.pbuf.setRun s.pos (bits.take n) }.setPos (s.pos + n)

/-- `read_bits(n)` (R101): the n bits from the cursor on, and the state with the cursor advanced by n. -/
def readBits (n : Nat) (s : State) : Except Fault (List Bool × State) :=
  match s.pbuf.getRun s.pos n with
  | .error f => .error f
  | .ok bits => .ok (bits, s.setPos (s.pos + n))

/-- The frame in PCM_IN slot f; an undefined slot is a model fault (R45, R47, R215). -/
def readPcmIn (f : Nat) (s : State) : Except Fault PcmFrame :=
  match s.pcmIn.getD f none with
  | none       => .error (.undefinedPcmIn f)
  | some frame => .ok frame

/-- PCM_OUT[k] <- frame (R46, R167). -/
def writePcmOut (k : Nat) (frame : PcmFrame) (s : State) : State :=
  { s with pcmOut := s.pcmOut.set k (some frame) }

/-- The stub's frame of the triple (mode, q, S): its content is mode, q, then S (95_test_vectors.md section 2, log 3). -/
def stubFrame (mode : BitVec 8) (q : BitVec 1) (bytes : List Byte) : PcmFrame :=
  { content := mode :: q.zeroExtend 8 :: bytes }

/-- The stub's `CodecEncode`: the triple the frame is. A frame that is no triple gets the invalid mode 8 (log 3). -/
def stubReply (frame : PcmFrame) : EncodeReply :=
  match frame.content with
  | mode :: q :: bytes => { mode := mode, q := q.extractLsb' 0 1, bytes := bytes }
  | _                  => { mode := 8#8, q := 0#1, bytes := [] }

/-- The answer of `CodecCreate(CODEC_PARAM)` (R41, U12). -/
def createAnswer (s : State) : Bool :=
  match s.params.codec with
  | .oracle      => createDraw s.draws s.calls s.codecParam
  | .stub        => true
  | .failingStub => false

/-- The answer of `CodecEncode(frame)` (R41, U10). -/
def encodeAnswer (frame : PcmFrame) (s : State) : EncodeReply :=
  match s.params.codec with
  | .oracle      => encodeDraw s.draws s.calls frame
  | .stub        => stubReply frame
  | .failingStub => stubReply frame

/-- The answer of `CodecDecode(mode, q, S)` (R41, U11). -/
def decodeAnswer (mode : BitVec 8) (q : BitVec 1) (bytes : List Byte) (s : State) : PcmFrame :=
  match s.params.codec with
  | .oracle      => decodeDraw s.draws s.calls mode q bytes
  | .stub        => stubFrame mode q bytes
  | .failingStub => stubFrame mode q bytes

/-- One call on the codec port: it enters the call history and takes a draw (R42, log 2). -/
def recordCall (c : CodecCall) (s : State) : State :=
  { s with calls := s.calls ++ [c], draws := s.draws + 1 }

/-- A reply keeps the length contract: nbytes(mode) bytes when the mode is up to 7 (R41). -/
def replyKeepsContract (r : EncodeReply) : Bool :=
  decide (7 < r.mode.toNat) || decide (r.bytes.length = nbytes r.mode.toNat)

/-- `CodecCreate(CODEC_PARAM)` (R41). -/
def codecCreate (s : State) : Bool × State :=
  (createAnswer s, recordCall (.create s.codecParam (createAnswer s)) s)

/-- `CodecEncode(frame)` (R41); a reply that breaks the contract is a model fault (R215.3). -/
def codecEncode (frame : PcmFrame) (s : State) : Except Fault (EncodeReply × State) :=
  if replyKeepsContract (encodeAnswer frame s) then
    .ok (encodeAnswer frame s, recordCall (.encode frame (encodeAnswer frame s)) s)
  else .error (.codecContract (encodeAnswer frame s).mode)

/-- `CodecDecode(mode, q, S)` (R41): it always returns a frame (R167). -/
def codecDecode (mode : BitVec 8) (q : BitVec 1) (bytes : List Byte) (s : State) : PcmFrame × State :=
  (decodeAnswer mode q bytes s, recordCall (.decode mode q bytes (decodeAnswer mode q bytes s)) s)

/-- `CodecDestroy()` (R41). -/
def codecDestroy (s : State) : State := recordCall .destroy s

end Sys2Proof.Machine
end

