-- ==== Sys2Proof/Machine/Bus.lean ====
section
/-! DEFINITION. The host's and the platform's accesses (spec 10_state.md R21 to R38; 20_memory.md R64 to R67, R70;
60_exceptions.md R205, R215; 70_reset_and_hazards.md R230, R236). -/

namespace Sys2Proof.Machine

open Sys2Proof.Config

/-- The registers of the map (R21). -/
inductive Reg where
  | id | desc | ctrl | status | cmd | cur | dataHi | dataLo | argLen | codecParam
  | resLen | resFrames | resSamples | resPcmBytes | result | cmrOut
  deriving DecidableEq, Repr

/-- Every register, in the map's order. -/
def allRegs : List Reg :=
  [.id, .desc, .ctrl, .status, .cmd, .cur, .dataHi, .dataLo, .argLen, .codecParam,
   .resLen, .resFrames, .resSamples, .resPcmBytes, .result, .cmrOut]

/-- The offset of a register from the block's base address (R21). -/
def regOffset : Reg → Nat
  | .id          => 0x000
  | .desc        => 0x004
  | .ctrl        => 0x008
  | .status      => 0x00C
  | .cmd         => 0x010
  | .cur         => 0x014
  | .dataHi      => 0x018
  | .dataLo      => 0x01C
  | .argLen      => 0x020
  | .codecParam  => 0x024
  | .resLen      => 0x028
  | .resFrames   => 0x02C
  | .resSamples  => 0x030
  | .resPcmBytes => 0x034
  | .result      => 0x038
  | .cmrOut      => 0x03C

/-- The register at an offset, none where the table lists none (R21, R66). -/
def regAt (offset : Nat) : Option Reg := allRegs.find? (fun r => regOffset r == offset)

/-- Where the PBUF window starts (R21, R64). -/
def pbufBase : Nat := 0x1000

/-- A register as the host reads it; reserved bits read 0 (R21 to R38). -/
def readReg (r : Reg) (s : State) : Word :=
  match r with
  | .id          => idWord
  | .desc        => descWord
  | .ctrl        => boolField 32 s.ie
  | .status      => statusWord s
  | .cmd         => s.cmd
  | .cur         => (s.bitOffset.zeroExtend 32 <<< 16) ||| s.byteIndex.zeroExtend 32
  | .dataHi      => s.data.extractLsb' 32 32
  | .dataLo      => s.data.extractLsb' 0 32
  | .argLen      => s.argLen.zeroExtend 32
  | .codecParam  => s.codecParam
  | .resLen      => s.resLen.zeroExtend 32
  | .resFrames   => (s.ndec.zeroExtend 32 <<< 16) ||| s.ntoc.zeroExtend 32
  | .resSamples  => s.resSamples
  | .resPcmBytes => s.resPcmBytes
  | .result      => s.result
  | .cmrOut      => (s.cmrRaw.zeroExtend 32 <<< 8) ||| s.cmrOut.zeroExtend 32

/-- A host write to a register (R21 to R38): writes to read-only registers and reserved bits are ignored, DONE and OVR are
cleared by writing 1. A CMD write reaches this function only when the block does not accept it, and then sets OVR (R205). -/
def writeReg (r : Reg) (v : Word) (s : State) : State :=
  match r with
  | .id          => s
  | .desc        => s
  | .ctrl        => { s with ie := v.getLsbD 0 }
  | .status      => { s with done := s.done && !v.getLsbD 1, ovr := s.ovr && !v.getLsbD 2 }
  | .cmd         => { s with ovr := true }
  | .cur         => s
  | .dataHi      => { s with data := v ++ s.data.extractLsb' 0 32 }
  | .dataLo      => { s with data := s.data.extractLsb' 32 32 ++ v }
  | .argLen      => { s with argLen := v.extractLsb' 0 16 }
  | .codecParam  => { s with codecParam := v }
  | .resLen      => s
  | .resFrames   => s
  | .resSamples  => s
  | .resPcmBytes => s
  | .result      => s
  | .cmrOut      => s

/-- What a bus access names. -/
inductive Target where
  | reg (r : Reg)
  | byte (i : Nat)
  deriving DecidableEq, Repr

/-- The target of an access of `width` bits at an offset; a refused access is a model fault (R65, R215.2). Which of several
violations names the fault is the model's choice (log 9). -/
def busTarget (cap offset width : Nat) : Except Fault Target :=
  if offset < pbufBase then
    if offset % 4 ≠ 0 then .error (.accessAlignment offset)
    else if width ≠ 32 then .error (.accessWidth offset width)
    else
      match regAt offset with
      | none   => .error (.accessOffset offset)
      | some r => .ok (.reg r)
  else if cap ≤ offset - pbufBase then .error (.accessOffset offset)
  else if width ≠ 8 then .error (.accessWidth offset width)
  else .ok (.byte (offset - pbufBase))

/-- Data given back to the host. -/
def giveBack (d : HostData) (s : State) : State := { s with returned := s.returned ++ [d] }

/-- The first bit of byte i that nothing has written since reset, for the name of the fault. -/
def firstUndefined (i : Nat) (b : Pbuf) : Nat → Nat
  | 0     => 8 * i
  | k + 1 => if (b.getBit (8 * i + (7 - k))).isNone then 8 * i + (7 - k) else firstUndefined i b k

/-- `MemRead(i, 1)` (R64): a byte with any undefined bit is a model fault (R215). -/
def memRead (i : Nat) (s : State) : Host.Outcome State Fault Refusal :=
  match s.pbuf.readByte i with
  | none   => .fault (.undefinedBit (firstUndefined i s.pbuf 8))
  | some b => .next (giveBack (.byte b) s)

/-- A bus read; reads have no side effect on the block (R70). -/
def busRead (offset width : Nat) (s : State) : Host.Outcome State Fault Refusal :=
  match busTarget s.params.bufCap offset width with
  | .error f       => .fault f
  | .ok (.reg r)   => .next (giveBack (.word (readReg r s)) s)
  | .ok (.byte i)  => memRead i s

/-- A bus write (R64, R70). -/
def busWrite (offset width : Nat) (v : Word) (s : State) : Host.Outcome State Fault Refusal :=
  match busTarget s.params.bufCap offset width with
  | .error f       => .fault f
  | .ok (.reg r)   => .next (writeReg r v s)
  | .ok (.byte i)  => .next { s with pbuf := s.pbuf.writeByte i (v.extractLsb' 0 8) }

/-- `PcmInWrite(f, frame)` (R67). -/
def pcmInWrite (f : Nat) (frame : PcmFrame) (s : State) : Host.Outcome State Fault Refusal :=
  if s.params.maxFrames ≤ f then .fault (.pcmIndex f)
  else .next { s with pcmIn := s.pcmIn.set f (some frame) }

/-- `PcmOutRead(k)` (R67). -/
def pcmOutRead (k : Nat) (s : State) : Host.Outcome State Fault Refusal :=
  if s.params.pcmOutFrames ≤ k then .fault (.pcmIndex k)
  else
    match s.pcmOut.getD k none with
    | none       => .fault (.undefinedPcmOut k)
    | some frame => .next (giveBack (.frame frame) s)

/-- `wait` (R90): when DONE = 1 it is cleared and the host goes on; else the host reads STATUS again (log 12). -/
def hostWait (s : State) : State :=
  if s.done then writeReg .status 0x2#32 s else { s with host := .wait :: s.host }

/-- The platform's reset (R230, R231), from a faulted state too: every field of the block at its reset value, no longer
faulted, no codec call. The parameters, the
host's program, what it read and the draw counter are no state of the block and stay (log 10). -/
def platformReset (s : State) : State :=
  { State.resetFor s.params with host := s.host, returned := s.returned, draws := s.draws }

/-- What the host may do while BUSY = 1: read STATUS and CTRL, write CTRL (R236) and STATUS (log 8), and write CMD, which is
then ignored (R205). The platform's reset is always possible (R230). -/
def busyAllows : HostOp → Bool
  | .read offset _    => offset == regOffset .status || offset == regOffset .ctrl
  | .write offset _ _ => offset == regOffset .ctrl || offset == regOffset .status || offset == regOffset .cmd
  | .pcmInWrite _ _   => false
  | .pcmOutRead _     => false
  | .wait             => true
  | .platformReset    => true

/-- One host access that issues no command. -/
def hostAccess (op : HostOp) (s : State) : Host.Outcome State Fault Refusal :=
  if s.busy && !busyAllows op then .refused .hostWhileBusy
  else
    match op with
    | .read offset width    => busRead offset width s
    | .write offset width v => busWrite offset width v s
    | .pcmInWrite f frame   => pcmInWrite f frame s
    | .pcmOutRead k         => pcmOutRead k s
    | .wait                 => .next (hostWait s)
    | .platformReset        => .next (platformReset s)

/-- The faulted state (R215). Only the fault is meant of it: the block's other fields stand as the faulting access found them,
and nothing but the platform's reset, which sets them all, comes after (DESIGN CHOICE, log 11). -/
def enterFault (f : Fault) (s : State) : State := { s with faulted := some f }

/-- What an access comes to, from the state it found: where it ends in a model fault, the faulted state (R215). -/
def recordFault (o : Host.Outcome State Fault Refusal) (s : State) : Host.Outcome State Fault Refusal :=
  match o with
  | .next t    => .next t
  | .fault f   => .next (enterFault f s)
  | .refused r => .refused r

/-- A step from a faulted state: the platform's reset is taken (R230). The spec gives a faulted state no other way on, so
without a reset next the model stops with the fault it is faulted by (DESIGN CHOICE, log 11). -/
def faultedStep (f : Fault) (s : State) : Host.Outcome State Fault Refusal :=
  match s.host with
  | []         => .fault f
  | op :: rest => if op = .platformReset then .next (platformReset { s with host := rest }) else .fault f

/-- The word the block accepts from this access: an aligned 32-bit write to CMD while BUSY = 0 (R26, R204). -/
def acceptedWord (op : HostOp) (s : State) : Option Word :=
  match op with
  | .write offset width v => if offset = regOffset .cmd ∧ width = 32 ∧ s.busy = false then some v else none
  | _                     => none

/-- A word that is no command: accepted, then completed with IllegalCommand (R84, R86, R204). -/
def illegalWord (_ : DecodeError) (s : State) : State := raiseErr .illegalCommand s

/-- The host access that issues a command word (R80). -/
def issueOp (w : Word) : HostOp := .write (regOffset .cmd) 32 w

end Sys2Proof.Machine
end

