-- ==== Sys2Proof/Machine/BitCursor.lean ====
section
/-! DEFINITION. The BitCursor commands CUR_SET, WRBITS and RDBITS (spec 40_bitcursor.md). -/

namespace Sys2Proof.Machine

/-- CUR_SET (R104). -/
def execCurSet (off : BitVec 3) (idx : BitVec 16) (s : State) : Host.Outcome State Fault Refusal :=
  if curSetIllegal off idx s then .next (raiseErr .illegalCommand s)
  else .next (finish { s with byteIndex := idx, bitOffset := off })

/-- WRBITS (R105, R106). -/
def execWrbits (count : BitVec 7) (s : State) : Host.Outcome State Fault Refusal :=
  if countIllegal count then .next (raiseErr .illegalCommand s)
  else if runTooLong count.toNat s then .next (raiseErr .sizingError s)
  else .next (finish (writeBits (dataBits count.toNat s.data) count.toNat s))

/-- RDBITS (R107, R106). -/
def execRdbits (count : BitVec 7) (s : State) : Host.Outcome State Fault Refusal :=
  if countIllegal count then .next (raiseErr .illegalCommand s)
  else if runTooLong count.toNat s then .next (raiseErr .sizingError s)
  else
    match readBits count.toNat s with
    | .error f         => .fault f
    | .ok (bits, s1)   => .next (finish { s1 with data := dataOfBits bits })

end Sys2Proof.Machine
end

