-- ==== Sys2Proof/Machine/Control.lean ====
section
/-! DEFINITION. The control and codec lifecycle commands NOP, CODEC_CREATE and CODEC_DESTROY (spec 45_control.md). -/

namespace Sys2Proof.Machine

/-- NOP (R190). -/
def execNop (s : State) : Host.Outcome State Fault Refusal := .next (finish s)

/-- CODEC_CREATE after the codec answered (R192). -/
def createDone (ok : Bool) (s : State) : State :=
  if ok then finish { s with hstate := .live } else raiseErr .initializationError s

/-- CODEC_CREATE (R192). -/
def execCodecCreate (s : State) : Host.Outcome State Fault Refusal :=
  if s.hstate ≠ .none then .next (raiseErr .illegalCommand s)
  else .next (createDone (codecCreate s).1 (codecCreate s).2)

/-- CODEC_DESTROY (R193). -/
def execCodecDestroy (s : State) : Host.Outcome State Fault Refusal :=
  if s.hstate ≠ .live then .next (raiseErr .uninitializedCodec s)
  else .next (finish { codecDestroy s with hstate := .released })

end Sys2Proof.Machine
end

