-- ==== Sys2Proof/Machine/Fields.lean ====
section
/-! DEFINITION. The TOC byte commands TOCENC and TOCDEC (spec 41_fields.md). -/

namespace Sys2Proof.Machine

/-- TOCENC (R128). -/
def execTocenc (f : BitVec 1) (q : BitVec 1) (ft : BitVec 4) (s : State) : Host.Outcome State Fault Refusal :=
  if 7 < ft.toNat then .next (raiseErr .invalidModeIndex { s with result := 0#32 })
  else .next (finish { s with result := (tocByte f ft q).zeroExtend 32 })

/-- RESULT of TOCDEC (R129): F in bit 8, Q in bit 4, FT in 3:0, the reserved bits in 17:16, VALID in bit 24. -/
def tocdecResult (b : Byte) : Word :=
  ((parseToc b).f.zeroExtend 32 <<< 8) ||| ((parseToc b).q.zeroExtend 32 <<< 4) ||| (parseToc b).ft.zeroExtend 32 |||
  ((b.extractLsb' 0 2).zeroExtend 32 <<< 16) ||| (boolField 32 (isSpeech (parseToc b)) <<< 24)

/-- TOCDEC (R129). -/
def execTocdec (byte : BitVec 8) (s : State) : Host.Outcome State Fault Refusal :=
  .next (finish { s with result := tocdecResult byte })

end Sys2Proof.Machine
end

