-- ==== Sys2Proof/Machine/Pack.lean ====
section
/-! DEFINITION. PACK, the PayloadEncoder (spec 42_pack.md). -/

namespace Sys2Proof.Machine

open Sys2Proof.Config

/-- `fail(E)` of PACK (R140, R147). -/
def packFail (e : ErrCode) (s : State) : State :=
  raiseErr e { s with resLen := 0#16, ntoc := 0#16, ndec := 0#16 }

/-- One codec result goes into the staging area (R44, R143). -/
def stageReply (r : EncodeReply) (s : State) : State := { s with staging := s.staging ++ [r] }

/-- Phase 1 (R143): `k` more frames from slot `f` on. The flag is false when a reply's mode is 8 or more; no later call is
then made. -/
def encodeFrames : Nat → Nat → State → Except Fault (Bool × State)
  | 0, _, s     => .ok (true, s)
  | k + 1, f, s =>
    match readPcmIn f s with
    | .error e   => .error e
    | .ok frame  =>
      match codecEncode frame s with
      | .error e     => .error e
      | .ok (r, s1)  =>
        if 7 < r.mode.toNat then .ok (false, stageReply r s1) else encodeFrames k (f + 1) (stageReply r s1)

/-- The modes of the staged replies. -/
def stagedModes (rs : List EncodeReply) : List Nat := rs.map (fun r => r.mode.toNat)

/-- The TOC byte of a staged reply: F = 1 for every frame but the last (R126, R145). -/
def tocByteOf (last : Bool) (r : EncodeReply) : Byte :=
  tocByte (if last then 0#1 else 1#1) (r.mode.setWidth 4) r.q

/-- All TOC bytes, in frame order (R145). -/
def writeTocs : List EncodeReply → State → State
  | [], s      => s
  | r :: rs, s => writeTocs rs (writeBits (bitsN (tocByteOf rs.isEmpty r).toNat 8) 8 s)

/-- One speech frame: nbits(m) bits of the codec's bytes, then zero pad bits to the byte boundary (R145). -/
def writeFrame (r : EncodeReply) (s : State) : State :=
  writeBits (zeros (8 * nbytes r.mode.toNat - nbits r.mode.toNat)) (8 * nbytes r.mode.toNat - nbits r.mode.toNat)
    (writeBits (bitsOf r.bytes) (nbits r.mode.toNat) s)

/-- All speech frames, in frame order (R145). -/
def writeFrames : List EncodeReply → State → State
  | [], s      => s
  | r :: rs, s => writeFrames rs (writeFrame r s)

/-- Phase 3 (R145): the CMR byte, all TOC bytes, all speech frames, from position 0. -/
def serialise (cmr : BitVec 4) (s : State) : State :=
  writeFrames s.staging (writeTocs s.staging (writeBits (cmrBits cmr) 8 (s.setPos 0)))

/-- The end padding check and the results (R146). The error branch is unreachable (log 14). -/
def packResults (nfr : BitVec 8) (s : State) : State :=
  if (8 - s.pos % 8) % 8 ≠ 0 then packFail .paddingInconsistency s
  else finish { s with resLen := BitVec.ofNat 16 (s.pos / 8), ntoc := nfr.zeroExtend 16, ndec := 0#16 }

/-- Phases 2 and 3 (R144, R145, R146), after every codec call succeeded. -/
def packStaged (cmr : BitVec 4) (nfr : BitVec 8) (s : State) : State :=
  if s.argLen.toNat < payloadLen (stagedModes s.staging) then packFail .bufferTooSmall s
  else packResults nfr (serialise cmr s)

/-- PACK (R140). -/
def execPack (cmr : BitVec 4) (nfr : BitVec 8) (s : State) : Host.Outcome State Fault Refusal :=
  if packIllegal nfr s then .next (raiseErr .illegalCommand s)
  else if s.hstate ≠ .live then .next (packFail .uninitializedCodec s)
  else
    match encodeFrames nfr.toNat 0 { s with staging := [] } with
    | .error f         => .fault f
    | .ok (false, s1)  => .next (packFail .invalidModeIndex s1)
    | .ok (true, s1)   => .next (packStaged cmr nfr s1)

end Sys2Proof.Machine
end

