-- ==== Sys2Proof/Machine/Sizing.lean ====
section
/-! DEFINITION. The ModeTable lookup and the sizing helpers MODEBITS, B2S and S2B (spec 44_modetable.md). -/

namespace Sys2Proof.Machine

/-- MODEBITS (R180). -/
def execModebits (mode : BitVec 4) (s : State) : Host.Outcome State Fault Refusal :=
  if 7 < mode.toNat then .next (raiseErr .invalidModeIndex { s with result := 0#32 })
  else .next (finish { s with
    result := (BitVec.ofNat 32 (nbytes mode.toNat) <<< 16) ||| BitVec.ofNat 32 (nbits mode.toNat) })

/-- B2S: `(N * 160) div 10`, the product first (R181). -/
def execB2s (n : BitVec 16) (s : State) : Host.Outcome State Fault Refusal :=
  .next (finish { s with result := BitVec.ofNat 32 (n.toNat * samplesPerFrame / bytesPerFrame) })

/-- S2B: `(N * 10) div 160`, truncating (R182). -/
def execS2b (n : BitVec 16) (s : State) : Host.Outcome State Fault Refusal :=
  .next (finish { s with result := BitVec.ofNat 32 (n.toNat * bytesPerFrame / samplesPerFrame) })

end Sys2Proof.Machine
end

