-- ==== Sys2Proof/Machine/Unpack.lean ====
section
/-! DEFINITION. UNPACK, the PayloadDecoder (spec 43_unpack.md). -/

namespace Sys2Proof.Machine

open Sys2Proof.Config

/-- `results()` (R160, R169): the bytes consumed, the entries parsed and the frames decoded. -/
def unpackResults (nd : Nat) (s : State) : State :=
  { s with resLen := BitVec.ofNat 16 (s.pos / 8), ntoc := BitVec.ofNat 16 s.toc.length, ndec := BitVec.ofNat 16 nd,
           resSamples := BitVec.ofNat 32 (samplesPerFrame * nd),
           resPcmBytes := BitVec.ofNat 32 (samplesPerFrame * s.params.pcmSampleBytes * nd) }

/-- `zeroResults()` (R160, R161). -/
def zeroResults (s : State) : State :=
  { s with resLen := 0#16, ntoc := 0#16, ndec := 0#16, resSamples := 0#32, resPcmBytes := 0#32 }

/-- The start of UNPACK (R160, R162): toc empty, CMR_OUT cleared, the cursor at position 0. -/
def unpackStart (s : State) : State := { s with toc := [], cmrOut := 0#4, cmrRaw := 0#8 }.setPos 0

/-- CMR_OUT from the CMR byte (R122, R162). -/
def recordCmr (b : Byte) (s : State) : State := { s with cmrOut := cmrOf b, cmrRaw := b }

/-- `toc <- toc ++ [e]` (R160, R163). -/
def appendToc (e : TocEntry) (s : State) : State := { s with toc := s.toc ++ [e] }

/-- The TOC phase (R163), with room for `k` more entries. The flag is false when the payload's end comes before an entry
with F = 0. -/
def readToc (plen : Nat) : Nat → State → Except Fault (Bool × State)
  | 0, s     => .ok (false, s)
  | k + 1, s =>
    if plen ≤ s.pos / 8 then .ok (false, s)
    else
      match readBits 8 s with
      | .error f        => .error f
      | .ok (bits, s1)  =>
        if (parseToc (byteOf bits)).f = 0#1 then .ok (true, appendToc (parseToc (byteOf bits)) s1)
        else readToc plen k (appendToc (parseToc (byteOf bits)) s1)

/-- How a run over the speech frames ends: the flag is true when a frame is truncated, with the frames decoded. -/
abbrev SpeechEnd := Bool × Nat × State

/-- The speech frames of the TOC entries, in order (R165 to R168), `nd` frames decoded so far. -/
def decodeFrames (plen : Nat) : List TocEntry → Nat → State → Except Fault SpeechEnd
  | [], nd, s      => .ok (false, nd, s)
  | e :: es, nd, s =>
    if 7 < e.ft.toNat then decodeFrames plen es nd s
    else if plen < s.pos / 8 + nbytes e.ft.toNat then .ok (true, nd, s)
    else
      match readBits (8 * nbytes e.ft.toNat) s with
      | .error f       => .error f
      | .ok (bits, s1) =>
        decodeFrames plen es (nd + 1)
          (writePcmOut nd (codecDecode (e.ft.zeroExtend 8) e.q (bytesOf bits) s1).1
            (codecDecode (e.ft.zeroExtend 8) e.q (bytesOf bits) s1).2)

/-- The end of UNPACK after the speech phase (R169, R170). -/
def unpackEnd : SpeechEnd → State
  | (true, nd, s)  => raiseErr .truncatedPayload (unpackResults nd { s with trunc := true })
  | (false, nd, s) => finish (unpackResults nd s)

/-- The output check and the speech phase (R164 to R170), after the TOC phase succeeded. -/
def unpackSpeech (outcap : BitVec 8) (plen : Nat) (s : State) : Host.Outcome State Fault Refusal :=
  if outcap.toNat < (s.toc.filter isSpeech).length then .next (raiseErr .bufferTooSmall (unpackResults 0 s))
  else
    match decodeFrames plen s.toc 0 s with
    | .error f => .fault f
    | .ok e    => .next (unpackEnd e)

/-- The TOC phase and what follows it (R163, R172), after the CMR byte was read. -/
def unpackToc (outcap : BitVec 8) (plen : Nat) (s : State) : Host.Outcome State Fault Refusal :=
  match readToc plen plen s with
  | .error f        => .fault f
  | .ok (false, s1) => .next (raiseErr .malformedPayload (unpackResults 0 s1))
  | .ok (true, s1)  => unpackSpeech outcap plen s1

/-- The CMR byte and what follows it (R162). -/
def unpackPayload (outcap : BitVec 8) (plen : Nat) (s : State) : Host.Outcome State Fault Refusal :=
  if plen < 1 then .next (raiseErr .malformedPayload (unpackResults 0 s))
  else
    match readBits 8 s with
    | .error f       => .fault f
    | .ok (bits, s1) => unpackToc outcap plen (recordCmr (byteOf bits) s1)

/-- UNPACK (R160). -/
def execUnpack (outcap : BitVec 8) (s : State) : Host.Outcome State Fault Refusal :=
  if unpackIllegal outcap s then .next (raiseErr .illegalCommand s)
  else if s.hstate ≠ .live then .next (raiseErr .uninitializedCodec (zeroResults s))
  else unpackPayload outcap s.argLen.toNat (unpackStart s)

end Sys2Proof.Machine
end

