-- ==== Sys2Proof/Machine/Dispatch.lean ====
section
/-! DEFINITION. One arm per command of the opcode map (spec 30_encoding.md R83). `exec` runs an accepted command to its
completion; acceptance (60_exceptions.md R204) is the step's. -/

namespace Sys2Proof.Machine

/-- The command `i`, from its acceptance on, to its completion (R204, R206). -/
def exec (i : Instr) (s : State) : Host.Outcome State Fault Refusal :=
  match i with
  | .nop => Sys2Proof.Machine.execNop s
  | .curSet off idx => Sys2Proof.Machine.execCurSet off idx s
  | .wrbits count => Sys2Proof.Machine.execWrbits count s
  | .rdbits count => Sys2Proof.Machine.execRdbits count s
  | .pack cmr nfr => Sys2Proof.Machine.execPack cmr nfr s
  | .unpack outcap => Sys2Proof.Machine.execUnpack outcap s
  | .modebits mode => Sys2Proof.Machine.execModebits mode s
  | .b2s n => Sys2Proof.Machine.execB2s n s
  | .s2b n => Sys2Proof.Machine.execS2b n s
  | .tocenc f q ft => Sys2Proof.Machine.execTocenc f q ft s
  | .tocdec byte => Sys2Proof.Machine.execTocdec byte s
  | .codecCreate => Sys2Proof.Machine.execCodecCreate s
  | .codecDestroy => Sys2Proof.Machine.execCodecDestroy s

end Sys2Proof.Machine
end

