-- ==== Sys2Proof/Machine/Step.lean ====
section
/-! DEFINITION. One step: the host's next access, or nothing when the host has none (spec 60_exceptions.md R204, R215, R219;
70_reset_and_hazards.md R230, R241). -/

namespace Sys2Proof.Machine

/-- The block accepts a word, executes it and completes, in one atomic step (R204). -/
def runWord (w : Word) (s : State) : Host.Outcome State Fault Refusal :=
  match decode w with
  | .ok i    => exec i (acceptCommand w s)
  | .error e => .next (illegalWord e (acceptCommand w s))

/-- One access of the host or the platform: a command word the block accepts, or any other access. -/
def access (op : HostOp) (s : State) : Host.Outcome State Fault Refusal :=
  match acceptedWord op s with
  | some w => runWord w s
  | none   => hostAccess op s

/-- One step of the machine: the host's next access. With none to come the block is idle and its state is held (R219). A model
fault makes the state faulted (R215), and out of a faulted state leads only the platform's reset (R230). -/
def step (s : State) : Host.Outcome State Fault Refusal :=
  match s.faulted with
  | some f => faultedStep f s
  | none   =>
    match s.host with
    | []         => .next s
    | op :: rest => recordFault (access op { s with host := rest }) { s with host := rest }

/-- The state in which the host's very next access writes this command word to CMD and the block is idle and not faulted, so
that the next step accepts and runs it: the block fetches no instructions, each command arrives as a CMD write (R48, log 7). -/
def State.withFetchWord (s : State) (nbits w : Nat) : State :=
  { s with busy := false, faulted := none, host := issueOp (BitVec.ofNat 32 (w % 2 ^ nbits)) :: s.host }

end Sys2Proof.Machine
end

