-- ==== Sys2Proof/Safety.lean ====
section
/-! DEFINITION. The words claims are stated in: what a command keeps, how it ends, the invariants of the block, the oracle's
answers along a run of calls and the wire form of a payload. -/

namespace Sys2Proof.Safety

open Sys2Proof.Machine Sys2Proof.Config

/-! ### What a command keeps -/

/-- Every register reads as before, but for those listed. -/
def KeepsRegs (except : List Reg) (s t : State) : Prop := ∀ r, r ∉ except → readReg r t = readReg r s

/-- Every byte of PBUF, its values and its defined bits, is as before. -/
def KeepsPbuf (s t : State) : Prop := ∀ i, t.pbuf.byteAt i = s.pbuf.byteAt i

/-- Both PCM spaces are as before. -/
def KeepsSlots (s t : State) : Prop := t.pcmIn = s.pcmIn ∧ t.pcmOut = s.pcmOut

/-- No codec call was made. -/
def KeepsCalls (s t : State) : Prop := t.calls = s.calls

/-- The flags a command's own rule does not name: IE, OVR, TRUNC and HSTATE. -/
def KeepsFlags (s t : State) : Prop := t.ie = s.ie ∧ t.ovr = s.ovr ∧ t.trunc = s.trunc ∧ t.hstate = s.hstate

/-- What no command touches: the parameters, the host's accesses to come, what the host has read, and that the block is not
faulted. -/
def KeepsOutside (s t : State) : Prop :=
  t.params = s.params ∧ t.host = s.host ∧ t.returned = s.returned ∧ t.faulted = s.faulted

/-- The command completed with this error code, `none` for success (R206). -/
def Ended (e : ErrCode) (t : State) : Prop := t.busy = false ∧ t.done = true ∧ t.err = e

/-- Nothing but the completion fields of STATUS changed (R201, R206): every other register, PBUF, the PCM slots, the codec
and the other flags are as before. -/
def OnlyCompletes (e : ErrCode) (s t : State) : Prop :=
  Ended e t ∧ KeepsFlags s t ∧ KeepsRegs [.status] s t ∧ KeepsPbuf s t ∧ KeepsSlots s t ∧ KeepsCalls s t ∧ KeepsOutside s t

/-- Only RESULT changed beside the completion fields (R128, R129, R180 to R182). -/
def OnlyResult (e : ErrCode) (s t : State) : Prop :=
  Ended e t ∧ KeepsFlags s t ∧ KeepsRegs [.status, .result] s t ∧ KeepsPbuf s t ∧ KeepsSlots s t ∧ KeepsCalls s t ∧
  KeepsOutside s t

/-! ### Invariants -/

/-- `pos() ≤ 8 * BUF_CAP` (R28). -/
def CursorInRange (s : State) : Prop := s.pos ≤ 8 * s.params.bufCap

/-- PBUF is in canonical form. -/
def PbufCanonical (s : State) : Prop := Memory.wf s.pbuf = true

/-- No byte outside PBUF[0..BUF_CAP-1] is held (R60), and an undefined bit holds no value (R47). -/
def PbufInside (s : State) : Prop :=
  (∀ i, s.params.bufCap ≤ i → s.pbuf.byteAt i = (0#8, 0#8)) ∧
  (∀ i, (s.pbuf.byteAt i).1 &&& ~~~(s.pbuf.byteAt i).2 = 0#8)

/-- There are MAX_FRAMES input slots and PCM_OUT_FRAMES output slots (R45, R46). -/
def SlotsSized (s : State) : Prop := s.pcmIn.length = s.params.maxFrames ∧ s.pcmOut.length = s.params.pcmOutFrames

/-- The scratch areas stay within their capacities (R43, R44). -/
def ScratchSized (s : State) : Prop :=
  s.toc.length ≤ s.params.bufCap ∧ s.staging.length ≤ s.params.maxFrames ∧ ∀ r ∈ s.staging, r.bytes.length ≤ 31

/-- Between steps no command is in flight (R204), and TRUNC = 1 exactly with ERR = TruncatedPayload (R170, R206). -/
def StatusConsistent (s : State) : Prop := s.busy = false ∧ (s.trunc = true ↔ s.err = .truncatedPayload)

/-- CMR_OUT.CMR is bits 7:4 of CMR_OUT.RAW (R37, R162). -/
def CmrConsistent (s : State) : Prop := s.cmrOut = cmrOf s.cmrRaw

/-- The counts of the result registers stay within their bounds: RES_LEN up to BUF_CAP (R144, R171), NTOC up to BUF_CAP - 1
(R33), NDEC up to 255 and with it RES_SAMPLES and RES_PCMBYTES (R34, R35). -/
def ResultsBounded (s : State) : Prop :=
  s.resLen.toNat ≤ s.params.bufCap ∧ s.ntoc.toNat < s.params.bufCap ∧
  s.ndec.toNat ≤ 255 ∧ s.resSamples.toNat ≤ 40800 ∧ s.resPcmBytes.toNat ≤ 163200

/-- The codec's view of its handle after one more call: `none` when the call breaks the contract "created once per session,
destroyed once" and "any operation on it is invalid" after release (R40, R41). A failed create leaves no handle. -/
def handleStep : Option HState → CodecCall → Option HState
  | some .none, .create _ true  => some .live
  | some .none, .create _ false => some .none
  | some .live, .encode _ _     => some .live
  | some .live, .decode _ _ _ _ => some .live
  | some .live, .destroy        => some .released
  | _, _                        => none

/-- The codec's view of its handle after the calls since reset. -/
def handleAfter (calls : List CodecCall) : Option HState := calls.foldl handleStep (some .none)

/-- The codec saw only legal calls, and HSTATE is its view of the handle (R40, R191). -/
def CallsLegal (s : State) : Prop := handleAfter s.calls = some s.hstate

/-- All invariants of the block, for parameters in the ranges of R9. -/
structure Inv (s : State) : Prop where
  legal     : s.params.legal
  cursor    : CursorInRange s
  canonical : PbufCanonical s
  inside    : PbufInside s
  slots     : SlotsSized s
  scratch   : ScratchSized s
  status    : StatusConsistent s
  cmr       : CmrConsistent s
  results   : ResultsBounded s
  calls     : CallsLegal s

/-- The access was taken and made the block faulted (R215); of a faulted block's other fields nothing is said (log 11). -/
def Faulted (f : Fault) (rest : List HostOp) (s t : State) : Prop :=
  t.faulted = some f ∧ t.host = rest ∧ t.returned = s.returned ∧ t.params = s.params

/-! ### The oracle along a run of calls -/

/-- The answers `CodecEncode` gives to these frames, one call after another (R143). -/
def encodeReplies : List PcmFrame → State → List EncodeReply
  | [], _      => []
  | x :: xs, s => encodeAnswer x s :: encodeReplies xs (recordCall (.encode x (encodeAnswer x s)) s)

/-- The calls themselves, with their answers. -/
def encodeCalls : List PcmFrame → State → List CodecCall
  | [], _      => []
  | x :: xs, s => .encode x (encodeAnswer x s) :: encodeCalls xs (recordCall (.encode x (encodeAnswer x s)) s)

/-- The frames `CodecDecode` gives for these entries and speech bytes, one call after another (R168). -/
def decodeReplies : List (TocEntry × List Byte) → State → List PcmFrame
  | [], _            => []
  | (e, b) :: xs, s =>
    decodeAnswer (e.ft.zeroExtend 8) e.q b s ::
      decodeReplies xs (recordCall (.decode (e.ft.zeroExtend 8) e.q b (decodeAnswer (e.ft.zeroExtend 8) e.q b s)) s)

/-- The calls themselves, with their answers. -/
def decodeCalls : List (TocEntry × List Byte) → State → List CodecCall
  | [], _            => []
  | (e, b) :: xs, s =>
    .decode (e.ft.zeroExtend 8) e.q b (decodeAnswer (e.ft.zeroExtend 8) e.q b s) ::
      decodeCalls xs (recordCall (.decode (e.ft.zeroExtend 8) e.q b (decodeAnswer (e.ft.zeroExtend 8) e.q b s)) s)

/-! ### The wire form of a payload -/

/-- The TOC bytes of R149: F = 1 in every entry but the last (R126). -/
def wireToc : List EncodeReply → List Byte
  | []      => []
  | r :: rs => tocByte (if rs = [] then 0#1 else 1#1) (r.mode.setWidth 4) r.q :: wireToc rs

/-- The speech bytes of R149: the first nbits(m) bits of the codec's bytes, zero-filled to whole bytes. -/
def wireFrame (r : EncodeReply) : List Byte := bytesOf ((bitsOf r.bytes).take (nbits r.mode.toNat))

/-- The payload of R149: the CMR byte, all TOC bytes, all speech frames. -/
def wirePayload (cmr : BitVec 4) (rs : List EncodeReply) : List Byte :=
  (cmr.zeroExtend 8 <<< 4) :: (wireToc rs ++ rs.flatMap wireFrame)

/-- PBUF from byte `i` on holds these bytes, every bit defined. -/
def HoldsBytes (s : State) (i : Nat) (bytes : List Byte) : Prop :=
  ∀ k, k < bytes.length → s.pbuf.readByte (i + k) = bytes[k]?

/-- A chain of TOC bytes (R126): F = 1 in every entry but the last, F = 0 in the last. -/
def TocChain : List Byte → Prop
  | []          => False
  | [b]         => (parseToc b).f = 0#1
  | b :: c :: l => (parseToc b).f = 1#1 ∧ TocChain (c :: l)

/-- The speech entries of a list of TOC bytes, markers left out (R127). -/
def speechEntries (tocBytes : List Byte) : List TocEntry := (tocBytes.map parseToc).filter isSpeech

/-- Speech frames with the sizes their entries ask for (R166). -/
def FramesFit (frames : List (TocEntry × List Byte)) : Prop := ∀ x ∈ frames, x.2.length = nbytes x.1.ft.toNat

/-! ### Where commands stop (R47, R215) -/

/-- Bit `p` is the first bit of PBUF from position `a` on that nothing has written since reset (R47). -/
def FirstUndefined (s : State) (a p : Nat) : Prop :=
  a ≤ p ∧ s.pbuf.getBit p = none ∧ ∀ q, a ≤ q → q < p → s.pbuf.getBit q ≠ none

/-- Bit `p` lies in the bytes from byte `i` on, `n` of them. -/
def InBytes (i n p : Nat) : Prop := 8 * i ≤ p ∧ p < 8 * (i + n)

/-- UNPACK reads bit `p` if every bit before it is defined: a bit of the CMR byte (R162), of a TOC byte that follows entries
with F = 1 (R163), or of the next speech frame that lies in the payload, after a TOC chain for which OUTCAP suffices and the
frames before it (R164 to R168). -/
def UnpackAsksFor (outcap : BitVec 8) (s : State) (p : Nat) : Prop :=
  (1 ≤ s.argLen.toNat ∧ InBytes 0 1 p) ∨
  (∃ cmrByte tocBytes, HoldsBytes s 0 (cmrByte :: tocBytes) ∧ (∀ v ∈ tocBytes, v.getLsbD 7 = true) ∧
    1 + tocBytes.length < s.argLen.toNat ∧ InBytes (1 + tocBytes.length) 1 p) ∨
  (∃ cmrByte tocBytes before e after frames, TocChain tocBytes ∧ tocBytes.map parseToc = before ++ e :: after ∧
    e.ft.toNat ≤ 7 ∧ (speechEntries tocBytes).length ≤ outcap.toNat ∧
    frames.map (fun x => x.1) = before.filter isSpeech ∧ FramesFit frames ∧
    HoldsBytes s 0 (cmrByte :: (tocBytes ++ frames.flatMap (fun x => x.2))) ∧
    1 + tocBytes.length + (frames.flatMap (fun x => x.2)).length + nbytes e.ft.toNat ≤ s.argLen.toNat ∧
    InBytes (1 + tocBytes.length + (frames.flatMap (fun x => x.2)).length) (nbytes e.ft.toNat) p)

/-- PACK passes these frames of the first input slots to the codec, and each reply is valid and keeps the length contract
(R41, R143). -/
def PackGetsPast (frames : List PcmFrame) (s : State) : Prop :=
  (∀ k, k < frames.length → s.pcmIn[k]? = some frames[k]?) ∧
  ∀ r ∈ encodeReplies frames s, r.mode.toNat ≤ 7 ∧ r.bytes.length = nbytes r.mode.toNat

/-- The command stops at this model fault: RDBITS and UNPACK at the first undefined bit they read, PACK at the first undefined
input slot it reads or the first reply of a mode up to 7 with another length than nbytes(mode) (R215). No other command
stops. -/
def StopsAt (i : Instr) (s : State) (f : Fault) : Prop :=
  match i with
  | .rdbits count =>
    count.toNat ≤ 64 ∧ s.pos + count.toNat ≤ 8 * s.params.bufCap ∧
    ∃ p, f = .undefinedBit p ∧ FirstUndefined s s.pos p ∧ p < s.pos + count.toNat
  | .unpack outcap =>
    outcap.toNat ≤ s.params.pcmOutFrames ∧ s.argLen.toNat ≤ s.params.bufCap ∧ s.hstate = .live ∧
    ∃ p, f = .undefinedBit p ∧ FirstUndefined s 0 p ∧ UnpackAsksFor outcap s p
  | .pack _ nfr =>
    1 ≤ nfr.toNat ∧ nfr.toNat ≤ s.params.maxFrames ∧ s.argLen.toNat ≤ s.params.bufCap ∧ s.hstate = .live ∧
    ∃ frames, frames.length < nfr.toNat ∧ PackGetsPast frames s ∧
      ((f = .undefinedPcmIn frames.length ∧ s.pcmIn.getD frames.length none = none) ∨
       ∃ x bad, s.pcmIn[frames.length]? = some (some x) ∧ encodeReplies (frames ++ [x]) s = encodeReplies frames s ++ [bad] ∧
         bad.mode.toNat ≤ 7 ∧ bad.bytes.length ≠ nbytes bad.mode.toNat ∧ f = .codecContract bad.mode)
  | .nop          => False
  | .curSet _ _   => False
  | .wrbits _     => False
  | .modebits _   => False
  | .b2s _        => False
  | .s2b _        => False
  | .tocenc _ _ _ => False
  | .tocdec _     => False
  | .codecCreate  => False
  | .codecDestroy => False

/-! ### The register map, written out (R21 to R37) -/

/-- The offset of every register from the block's base address (R21). -/
def registerMap : List (Reg × Nat) :=
  [(.id, 0x000), (.desc, 0x004), (.ctrl, 0x008), (.status, 0x00C), (.cmd, 0x010), (.cur, 0x014), (.dataHi, 0x018),
   (.dataLo, 0x01C), (.argLen, 0x020), (.codecParam, 0x024), (.resLen, 0x028), (.resFrames, 0x02C), (.resSamples, 0x030),
   (.resPcmBytes, 0x034), (.result, 0x038), (.cmrOut, 0x03C)]

/-- The number in STATUS.ERR (R200). -/
def errNumber : ErrCode → Nat
  | .none => 0 | .uninitializedCodec => 1 | .invalidModeIndex => 2 | .truncatedPayload => 3 | .paddingInconsistency => 4
  | .bufferTooSmall => 5 | .malformedPayload => 6 | .initializationError => 7 | .sizingError => 8 | .illegalCommand => 9

/-- The number in STATUS.HSTATE (R40). -/
def hstateNumber : HState → Nat
  | .none => 0 | .live => 1 | .released => 2

/-- The number each register reads as: every field at the place of its lowest bit (R22 to R37), every reserved bit 0 (R38). -/
def registerNumber (s : State) : Reg → Nat
  | .id          => 0x00000018
  | .desc        => 0x1F400176
  | .ctrl        => s.ie.toNat
  | .status      => s.busy.toNat + 2 * s.done.toNat + 4 * s.ovr.toNat + 8 * s.trunc.toNat + 16 * errNumber s.err +
      256 * hstateNumber s.hstate
  | .cmd         => s.cmd.toNat
  | .cur         => s.byteIndex.toNat + 65536 * s.bitOffset.toNat
  | .dataHi      => s.data.toNat / 2 ^ 32
  | .dataLo      => s.data.toNat % 2 ^ 32
  | .argLen      => s.argLen.toNat
  | .codecParam  => s.codecParam.toNat
  | .resLen      => s.resLen.toNat
  | .resFrames   => s.ntoc.toNat + 65536 * s.ndec.toNat
  | .resSamples  => s.resSamples.toNat
  | .resPcmBytes => s.resPcmBytes.toNat
  | .result      => s.result.toNat
  | .cmrOut      => s.cmrOut.toNat + 256 * s.cmrRaw.toNat

end Sys2Proof.Safety
end

