-- ==== Sys2Proof/Certificates/Slice0/Obligations.lean ====
section
/-! DEFINITION. What is claimed of the block, in the words of Safety.lean. Each docstring names the rule of spec/ it comes
from. -/

open Sys2Proof Sys2Proof.Machine Sys2Proof.Config Sys2Proof.Safety

/-! ### Encoding (30_encoding.md) -/

/-- R81, R88, R89: no bit of an encoding is dropped: the word of an instruction decodes to that instruction, whatever the
values of its operands. -/
def Obligations.DecodeOfEncode : Prop :=
  ∀ i : Instr, decode (encode i) = .ok i

/-- R81, R84, R88: a word that decodes is the word of its instruction, so no two words mean the same command. -/
def Obligations.EncodeOfDecode : Prop :=
  ∀ (w : Word) (i : Instr), decode w = .ok i → encode i = w

/-- R81, R83, R84, R86, R88: the words that decode are exactly those with an OPC of the map and every reserved bit of its
format 0. -/
def Obligations.LegalWordsAreTheMap : Prop :=
  ∀ w : Word, (∃ i, decode w = .ok i) ↔
    ∃ row ∈ ([(0x00#8, 0xFFFFFF#24), (0x01#8, 0xF80000#24), (0x02#8, 0xFFFF80#24), (0x03#8, 0xFFFF80#24),
              (0x10#8, 0xFFF000#24), (0x11#8, 0xFFFF00#24), (0x20#8, 0xFFFFF0#24), (0x21#8, 0xFF0000#24),
              (0x22#8, 0xFF0000#24), (0x23#8, 0xFFFEE0#24), (0x24#8, 0xFFFF00#24), (0x30#8, 0xFFFFFF#24),
              (0x31#8, 0xFFFFFF#24)] : List (BitVec 8 × BitVec 24)),
      w.extractLsb' 24 8 = row.1 ∧ w.extractLsb' 0 24 &&& row.2 = 0#24

/-- R85: NOP is the all-zero word and has no other encoding; it is the reset value of CMD. -/
def Obligations.NopIsOnlyTheZeroWord : Prop :=
  (∀ w : Word, decode w = .ok .nop ↔ w = 0x00000000#32) ∧ ∀ p : Params, readReg .cmd (State.resetFor p) = 0x00000000#32

/-- R89 and the examples of 40 to 45: words written out from the spec decode to what they stand for. -/
def Obligations.SpecWordsDecode : Prop :=
  decode 0x00000000#32 = .ok .nop ∧
  decode 0x01050000#32 = .ok (.curSet 5#3 0#16) ∧
  decode 0x02000005#32 = .ok (.wrbits 5#7) ∧
  decode 0x10000F01#32 = .ok (.pack 15#4 1#8) ∧
  decode 0x11000008#32 = .ok (.unpack 8#8) ∧
  decode 0x2100000A#32 = .ok (.b2s 10#16) ∧
  decode 0x23000110#32 = .ok (.tocenc 1#1 1#1 0#4) ∧
  decode 0x31000000#32 = .ok .codecDestroy

/-! ### A step (60_exceptions.md R204 to R206) -/

/-- R204, R215, R219: an idle block that is not faulted and whose host next writes a legal word to CMD accepts it (CMD, BUSY,
DONE, ERR, TRUNC) and runs the decoded command; where the command is a model fault the state becomes faulted by it, the block's
other fields standing as before the access (that they stand so is the model's choice, log 11). With no host access to come the
block holds its state. -/
def Obligations.StepRunsTheDecodedCommand : Prop :=
  (∀ (s : State) (w : Word) (rest : List HostOp) (i : Instr),
    s.host = .write 0x010 32 w :: rest → s.faulted = none → s.busy = false → decode w = .ok i →
    step s =
      match exec i { s with host := rest, cmd := w, busy := true, done := false, err := .none, trunc := false } with
      | .next t    => .next t
      | .fault f   => .next { s with host := rest, faulted := some f }
      | .refused r => .refused r) ∧
  (∀ s : State, s.host = [] → s.faulted = none → step s = .next s)

/-- R84, R86, R201, R207: an illegal word completes with IllegalCommand and is kept in CMD; beside the fields of R204 nothing
changes. -/
def Obligations.IllegalWordOnlyReports : Prop :=
  ∀ (s : State) (w : Word) (rest : List HostOp) (e : DecodeError),
    s.host = .write 0x010 32 w :: rest → s.faulted = none → s.busy = false → decode w = .error e →
    ∃ t, step s = .next t ∧ t.faulted = none ∧ Ended .illegalCommand t ∧ t.trunc = false ∧ readReg .cmd t = w ∧
      t.ie = s.ie ∧ t.ovr = s.ovr ∧ t.hstate = s.hstate ∧ KeepsRegs [.status, .cmd] s t ∧
      KeepsPbuf s t ∧ KeepsSlots s t ∧ KeepsCalls s t ∧ t.params = s.params ∧ t.host = rest ∧ t.returned = s.returned

/-- R205: a CMD write while BUSY = 1 only sets OVR; OVR stays 1 until the host writes 1 to it or the platform resets the
block; no command clears it. -/
def Obligations.CmdWriteWhileBusySetsOvr : Prop :=
  (∀ (s : State) (w : Word) (rest : List HostOp),
    s.host = .write 0x010 32 w :: rest → s.faulted = none → s.busy = true →
    step s = .next { s with host := rest, ovr := true }) ∧
  (∀ s t : State, step s = .next t → s.ovr = true → t.ovr = false →
    (∃ v rest, s.host = .write 0x00C 32 v :: rest ∧ v.getLsbD 2 = true) ∨ ∃ rest, s.host = .platformReset :: rest) ∧
  (∀ (i : Instr) (s t : State), exec i s = .next t → t.ovr = s.ovr)

/-- R206, R210, R212: whatever the command and its outcome, completion leaves BUSY = 0, DONE = 1 and irq = CTRL.IE. No command
touches CTRL or OVR, CMD (R207), the operand registers ARG_LEN and CODEC_PARAM (R234), PCM_IN (R45) or anything outside the
block. DATA, the host's other operand register, is RDBITS's result and no part of this statement (OnlyTheNamedCommandsWrite). -/
def Obligations.EveryCompletionIsTheSame : Prop :=
  ∀ (i : Instr) (s t : State), exec i s = .next t →
    t.busy = false ∧ t.done = true ∧ t.irq = s.ie ∧ t.ie = s.ie ∧ t.ovr = s.ovr ∧ t.cmd = s.cmd ∧
    t.argLen = s.argLen ∧ t.codecParam = s.codecParam ∧ t.pcmIn = s.pcmIn ∧ KeepsOutside s t

/-- R29, R36, R37, R40, R46, R69, R202: which command alone may write DATA, RESULT, CMR_OUT, HSTATE, TRUNC, the result
registers, CUR, PBUF and PCM_OUT. -/
def Obligations.OnlyTheNamedCommandsWrite : Prop :=
  ∀ (i : Instr) (s t : State), exec i s = .next t →
    (t.data ≠ s.data → ∃ n, i = .rdbits n) ∧
    (t.result ≠ s.result → (∃ m, i = .modebits m) ∨ (∃ n, i = .b2s n) ∨ (∃ n, i = .s2b n) ∨ (∃ f q ft, i = .tocenc f q ft) ∨
      ∃ b, i = .tocdec b) ∧
    (t.cmrOut ≠ s.cmrOut ∨ t.cmrRaw ≠ s.cmrRaw → ∃ o, i = .unpack o) ∧
    (t.hstate ≠ s.hstate → i = .codecCreate ∨ i = .codecDestroy) ∧
    (t.trunc ≠ s.trunc → ∃ o, i = .unpack o) ∧
    (t.resSamples ≠ s.resSamples ∨ t.resPcmBytes ≠ s.resPcmBytes → ∃ o, i = .unpack o) ∧
    (t.resLen ≠ s.resLen ∨ t.ntoc ≠ s.ntoc ∨ t.ndec ≠ s.ndec → (∃ c n, i = .pack c n) ∨ ∃ o, i = .unpack o) ∧
    (t.pos ≠ s.pos → (∃ f x, i = .curSet f x) ∨ (∃ n, i = .wrbits n) ∨ (∃ n, i = .rdbits n) ∨ (∃ c n, i = .pack c n) ∨
      ∃ o, i = .unpack o) ∧
    (t.pbuf ≠ s.pbuf → (∃ n, i = .wrbits n) ∨ ∃ c n, i = .pack c n) ∧
    (t.pcmOut ≠ s.pcmOut → ∃ o, i = .unpack o) ∧
    (t.calls ≠ s.calls → i = .codecCreate ∨ i = .codecDestroy ∨ (∃ c n, i = .pack c n) ∨ ∃ o, i = .unpack o)

/-- R47, R203, R215: no command is refused, and a command stops exactly where `StopsAt` says: RDBITS and UNPACK at the first
bit they read that nothing has written, PACK at the first input slot it reads that nothing has written or at the first reply of
a mode up to 7 with another length than nbytes(mode) (R41), and no command anywhere else. -/
def Obligations.CommandsStopOnlyAtModelFaults : Prop :=
  ∀ (i : Instr) (s : State), (∀ r, exec i s ≠ .refused r) ∧ ∀ f, exec i s = .fault f ↔ StopsAt i s f

/-- R49: "A command's outcome never depends on DONE, OVR, TRUNC, or ERR": two idle blocks that differ only in these flags
take the same step, but for OVR, which stays what it was; a command that makes the one faulted makes the other faulted by the
same fault. -/
def Obligations.FlagsAreNeverOperands : Prop :=
  ∀ (s : State) (w : Word) (rest : List HostOp) (d o tr : Bool) (e : ErrCode),
    s.host = .write 0x010 32 w :: rest → s.faulted = none → s.busy = false →
    ∃ t u, step s = .next t ∧ step { s with done := d, ovr := o, trunc := tr, err := e } = .next u ∧
      u.faulted = t.faulted ∧ (t.faulted = none → u = { t with ovr := o })

/-! ### BitCursor (40_bitcursor.md) -/

/-- R104: CUR_SET moves the cursor to a position up to 8*BUF_CAP and refuses any other as IllegalCommand. -/
def Obligations.CurSetMovesOrRefuses : Prop :=
  ∀ (off : BitVec 3) (idx : BitVec 16) (s : State), ∃ t, exec (.curSet off idx) s = .next t ∧
    (8 * idx.toNat + (7 - off.toNat) ≤ 8 * s.params.bufCap →
      Ended .none t ∧ t.pos = 8 * idx.toNat + (7 - off.toNat) ∧
      (readReg .cur t).toNat = 65536 * off.toNat + idx.toNat ∧
      KeepsFlags s t ∧ KeepsRegs [.status, .cur] s t ∧ KeepsPbuf s t ∧ KeepsSlots s t ∧ KeepsCalls s t ∧ KeepsOutside s t) ∧
    (8 * s.params.bufCap < 8 * idx.toNat + (7 - off.toNat) → OnlyCompletes .illegalCommand s t)

/-- R100, R105, R69: WRBITS writes DATA[63], DATA[62], ... to the COUNT bits from the cursor on, advances the cursor by COUNT
and changes no other bit or register. -/
def Obligations.WrbitsWritesItsRun : Prop :=
  ∀ (count : BitVec 7) (s : State),
    PbufCanonical s → s.params.bufCap ≤ 65535 → count.toNat ≤ 64 → s.pos + count.toNat ≤ 8 * s.params.bufCap →
    ∃ t, exec (.wrbits count) s = .next t ∧ Ended .none t ∧ t.pos = s.pos + count.toNat ∧
      (∀ k, k < count.toNat → t.pbuf.getBit (s.pos + k) = some (s.data.getLsbD (63 - k))) ∧
      (∀ q, q < s.pos ∨ s.pos + count.toNat ≤ q → t.pbuf.getBit q = s.pbuf.getBit q) ∧
      (∀ i, i < s.pos / 8 ∨ s.pos + count.toNat ≤ 8 * i → t.pbuf.byteAt i = s.pbuf.byteAt i) ∧
      KeepsFlags s t ∧ KeepsRegs [.status, .cur] s t ∧ KeepsSlots s t ∧ KeepsCalls s t ∧ KeepsOutside s t

/-- R101, R107, R108: RDBITS puts the COUNT defined bits from the cursor on into DATA, left-aligned with zeros below, advances
the cursor by COUNT and changes nothing else. -/
def Obligations.RdbitsReadsItsRun : Prop :=
  ∀ (count : BitVec 7) (s : State),
    s.params.bufCap ≤ 65535 → count.toNat ≤ 64 → s.pos + count.toNat ≤ 8 * s.params.bufCap →
    (∀ k, k < count.toNat → s.pbuf.getBit (s.pos + k) ≠ none) →
    ∃ t, exec (.rdbits count) s = .next t ∧ Ended .none t ∧ t.pos = s.pos + count.toNat ∧
      (∀ k, k < count.toNat → some (t.data.getLsbD (63 - k)) = s.pbuf.getBit (s.pos + k)) ∧
      (∀ k, count.toNat ≤ k → k < 64 → t.data.getLsbD (63 - k) = false) ∧
      KeepsFlags s t ∧ KeepsRegs [.status, .cur, .dataHi, .dataLo] s t ∧ KeepsPbuf s t ∧ KeepsSlots s t ∧
      KeepsCalls s t ∧ KeepsOutside s t

/-- R101, R47, R215: RDBITS within PBUF stops at the first bit of its run that nothing has written since reset. -/
def Obligations.RdbitsStopsAtAnUndefinedBit : Prop :=
  ∀ (count : BitVec 7) (s : State) (k : Nat),
    count.toNat ≤ 64 → s.pos + count.toNat ≤ 8 * s.params.bufCap → k < count.toNat →
    s.pbuf.getBit (s.pos + k) = none → (∀ j, j < k → s.pbuf.getBit (s.pos + j) ≠ none) →
    exec (.rdbits count) s = .fault (.undefinedBit (s.pos + k))

/-- R106: WRBITS and RDBITS check `pos() + COUNT ≤ 8 * BUF_CAP` before they touch PBUF or CUR; if the check fails they raise
SizingError (code 8) and change neither PBUF nor CUR nor DATA. -/
def Obligations.RunPastTheEndIsASizingError : Prop :=
  ∀ (count : BitVec 7) (s : State), count.toNat ≤ 64 → 8 * s.params.bufCap < s.pos + count.toNat →
    (∃ t, exec (.wrbits count) s = .next t ∧ OnlyCompletes .sizingError s t ∧ (readReg .status t).extractLsb' 4 4 = 8#4) ∧
    (∃ t, exec (.rdbits count) s = .next t ∧ OnlyCompletes .sizingError s t ∧ (readReg .status t).extractLsb' 4 4 = 8#4)

/-- R105, R107, R201: a COUNT above 64 is IllegalCommand and changes nothing. -/
def Obligations.CountAbove64IsIllegal : Prop :=
  ∀ (count : BitVec 7) (s : State), 64 < count.toNat →
    (∃ t, exec (.wrbits count) s = .next t ∧ OnlyCompletes .illegalCommand s t) ∧
    (∃ t, exec (.rdbits count) s = .next t ∧ OnlyCompletes .illegalCommand s t)

/-- R102: write_bits(s, n), setpos(p), read_bits(n) from any position p with p + n ≤ 8*BUF_CAP gives s[0..n) back; the cursor
ends at p + n both times, and every bit outside the run is unchanged. -/
def Obligations.WriteBitsThenReadBits : Prop :=
  ∀ (bits : List Bool) (n : Nat) (s : State),
    PbufCanonical s → s.params.bufCap ≤ 65535 → n ≤ bits.length → s.pos + n ≤ 8 * s.params.bufCap →
    ∃ s2, readBits n ((writeBits bits n s).setPos s.pos) = .ok (bits.take n, s2) ∧
      (writeBits bits n s).pos = s.pos + n ∧ s2.pos = s.pos + n ∧
      ∀ q, q < s.pos ∨ s.pos + n ≤ q →
        (writeBits bits n s).pbuf.getBit q = s.pbuf.getBit q ∧ s2.pbuf.getBit q = s.pbuf.getBit q

/-- R102, R108: WRBITS, CUR_SET back to the same position and RDBITS of the same COUNT give DATA back with its low
64 - COUNT bits cleared. -/
def Obligations.WrbitsThenRdbits : Prop :=
  ∀ (count : BitVec 7) (s : State),
    PbufCanonical s → s.params.bufCap ≤ 65535 → count.toNat ≤ 64 → s.pos + count.toNat ≤ 8 * s.params.bufCap →
    ∃ t1 t2 t3, exec (.wrbits count) s = .next t1 ∧ exec (.curSet s.bitOffset s.byteIndex) t1 = .next t2 ∧
      exec (.rdbits count) t2 = .next t3 ∧ t3.err = .none ∧ t3.pos = s.pos + count.toNat ∧
      ∀ k, k < 64 → t3.data.getLsbD (63 - k) = (decide (k < count.toNat) && s.data.getLsbD (63 - k))

/-! ### CMR and TOC fields (41_fields.md) -/

/-- R124, R128: TOCENC with FT up to 7 puts 128*F + 8*FT + 4*Q into RESULT; with FT of 8 or more it puts 0 there and raises
InvalidModeIndex. Nothing else changes. -/
def Obligations.TocencBuildsOrRejects : Prop :=
  ∀ (f q : BitVec 1) (ft : BitVec 4) (s : State), ∃ t, exec (.tocenc f q ft) s = .next t ∧
    (ft.toNat ≤ 7 → OnlyResult .none s t ∧ (readReg .result t).toNat = 128 * f.toNat + 8 * ft.toNat + 4 * q.toNat) ∧
    (8 ≤ ft.toNat → OnlyResult .invalidModeIndex s t ∧ readReg .result t = 0#32)

/-- R125, R129: TOCDEC puts F in bit 8, Q in bit 4, FT in 3:0, the reserved bits in 17:16 and VALID in bit 24 of RESULT, for
every byte, and changes nothing else. -/
def Obligations.TocdecParsesEveryByte : Prop :=
  ∀ (b : BitVec 8) (s : State), ∃ t, exec (.tocdec b) s = .next t ∧ OnlyResult .none s t ∧
    (readReg .result t).toNat = 256 * (b.toNat / 128) + 16 * (b.toNat / 4 % 2) + b.toNat / 8 % 16 + 65536 * (b.toNat % 4) +
      (if b.toNat / 8 % 16 ≤ 7 then 16777216 else 0)

/-- R129: when RESULT[24] = 1 and RESULT[17:16] = 0, TOCENC with operand RESULT[8:0] gives BYTE back. -/
def Obligations.TocencUndoesTocdec : Prop :=
  ∀ (b : BitVec 8) (s t : State), exec (.tocdec b) s = .next t →
    t.result.getLsbD 24 = true → t.result.extractLsb' 16 2 = 0#2 →
    ∃ u, exec (.tocenc (t.result.extractLsb' 8 1) (t.result.extractLsb' 4 1) (t.result.extractLsb' 0 4)) t = .next u ∧
      u.err = .none ∧ readReg .result u = b.zeroExtend 32

/-! ### ModeTable and sizing helpers (44_modetable.md) -/

/-- R39, R180: MODEBITS of a mode up to 7 puts nbits in RESULT[15:0] and nbytes = (nbits + 7) div 8 in RESULT[31:16]; of a
mode of 8 or more it puts 0 there and raises InvalidModeIndex. Nothing else changes. -/
def Obligations.ModebitsLooksUpOrRejects : Prop :=
  ∀ (mode : BitVec 4) (s : State), ∃ t, exec (.modebits mode) s = .next t ∧
    (∀ n, [95, 103, 118, 134, 148, 159, 204, 244][mode.toNat]? = some n →
      OnlyResult .none s t ∧ (readReg .result t).toNat = 65536 * ((n + 7) / 8) + n) ∧
    (8 ≤ mode.toNat → OnlyResult .invalidModeIndex s t ∧ readReg .result t = 0#32)

/-- R181: B2S puts (N * 160) div 10 = 16 * N into RESULT and changes nothing else. -/
def Obligations.B2sMultipliesBy16 : Prop :=
  ∀ (n : BitVec 16) (s : State), ∃ t, exec (.b2s n) s = .next t ∧ OnlyResult .none s t ∧
    (readReg .result t).toNat = n.toNat * 160 / 10 ∧ (readReg .result t).toNat = 16 * n.toNat

/-- R182: S2B puts (N * 10) div 160, truncated, into RESULT and changes nothing else. -/
def Obligations.S2bDividesBy16 : Prop :=
  ∀ (n : BitVec 16) (s : State), ∃ t, exec (.s2b n) s = .next t ∧ OnlyResult .none s t ∧
    (readReg .result t).toNat = n.toNat * 10 / 160 ∧ (readReg .result t).toNat = n.toNat / 16

/-- R182: S2B(B2S(n)) = n for every n ≤ 4095. -/
def Obligations.S2bUndoesB2s : Prop :=
  ∀ (n : BitVec 16) (s t : State), n.toNat ≤ 4095 → exec (.b2s n) s = .next t →
    ∃ u, exec (.s2b (t.result.extractLsb' 0 16)) t = .next u ∧ readReg .result u = n.zeroExtend 32

/-! ### Control (45_control.md) -/

/-- R190: NOP changes nothing but the completion fields, and the step that accepts it clears TRUNC. -/
def Obligations.NopOnlyCompletes : Prop :=
  (∀ s : State, ∃ t, exec .nop s = .next t ∧ OnlyCompletes .none s t) ∧
  (∀ (s : State) (rest : List HostOp), s.host = .write 0x010 32 0#32 :: rest → s.faulted = none → s.busy = false →
    ∃ t, step s = .next t ∧ t.faulted = none ∧ Ended .none t ∧ t.trunc = false ∧ KeepsRegs [.status, .cmd] s t)

/-- R192: in NONE, CODEC_CREATE makes one create call with CODEC_PARAM. If the codec answers ok the handle is LIVE, else
HSTATE stays NONE and the error is InitializationError. Nothing else changes. -/
def Obligations.CodecCreateFollowsTheCodec : Prop :=
  ∀ s : State, s.hstate = .none →
    ∃ t, exec .codecCreate s = .next t ∧ t.calls = s.calls ++ [.create s.codecParam (createAnswer s)] ∧
      (createAnswer s = true → Ended .none t ∧ t.hstate = .live) ∧
      (createAnswer s = false → Ended .initializationError t ∧ t.hstate = .none) ∧
      t.ie = s.ie ∧ t.ovr = s.ovr ∧ t.trunc = s.trunc ∧ KeepsRegs [.status] s t ∧ KeepsPbuf s t ∧ KeepsSlots s t ∧
      KeepsOutside s t

/-- R192, R201: outside NONE, CODEC_CREATE is IllegalCommand and makes no call. -/
def Obligations.CodecCreateOnlyOnce : Prop :=
  ∀ s : State, s.hstate ≠ .none → ∃ t, exec .codecCreate s = .next t ∧ OnlyCompletes .illegalCommand s t

/-- R193: in LIVE, CODEC_DESTROY makes one destroy call and the handle is RELEASED. Nothing else changes. -/
def Obligations.CodecDestroyReleases : Prop :=
  ∀ s : State, s.hstate = .live →
    ∃ t, exec .codecDestroy s = .next t ∧ Ended .none t ∧ t.calls = s.calls ++ [.destroy] ∧ t.hstate = .released ∧
      t.ie = s.ie ∧ t.ovr = s.ovr ∧ t.trunc = s.trunc ∧ KeepsRegs [.status] s t ∧ KeepsPbuf s t ∧ KeepsSlots s t ∧
      KeepsOutside s t

/-- R193: outside LIVE, CODEC_DESTROY is UninitializedCodec and makes no call. -/
def Obligations.CodecDestroyNeedsAHandle : Prop :=
  ∀ s : State, s.hstate ≠ .live → ∃ t, exec .codecDestroy s = .next t ∧ OnlyCompletes .uninitializedCodec s t

/-- R40, R191: a step moves HSTATE only from NONE to LIVE, from LIVE to RELEASED, or by a reset to NONE. -/
def Obligations.HandleMovesOnlyForward : Prop :=
  ∀ s t : State, step s = .next t →
    t.hstate = s.hstate ∨ (s.hstate = .none ∧ t.hstate = .live) ∨ (s.hstate = .live ∧ t.hstate = .released) ∨
    (t.hstate = .none ∧ ∃ rest, s.host = .platformReset :: rest)

/-! ### PACK (42_pack.md) -/

/-- R141, R201: a bad NFR or a capacity above BUF_CAP makes PACK illegal; it changes nothing. -/
def Obligations.PackRefusesBadOperands : Prop :=
  ∀ (cmr : BitVec 4) (nfr : BitVec 8) (s : State),
    nfr.toNat = 0 ∨ s.params.maxFrames < nfr.toNat ∨ s.params.bufCap < s.argLen.toNat →
    ∃ t, exec (.pack cmr nfr) s = .next t ∧ OnlyCompletes .illegalCommand s t

/-- R141, R147: PACK without a live handle raises UninitializedCodec, clears RES_LEN and RES_FRAMES and changes nothing else:
no codec call, no PBUF bit, no cursor move. -/
def Obligations.PackNeedsAHandle : Prop :=
  ∀ (cmr : BitVec 4) (nfr : BitVec 8) (s : State),
    1 ≤ nfr.toNat → nfr.toNat ≤ s.params.maxFrames → s.argLen.toNat ≤ s.params.bufCap → s.hstate ≠ .live →
    ∃ t, exec (.pack cmr nfr) s = .next t ∧ Ended .uninitializedCodec t ∧
      readReg .resLen t = 0#32 ∧ readReg .resFrames t = 0#32 ∧ KeepsFlags s t ∧
      KeepsRegs [.status, .resLen, .resFrames] s t ∧ KeepsPbuf s t ∧ KeepsSlots s t ∧ KeepsCalls s t ∧ KeepsOutside s t

/-- R140, R142 to R146, R149: PACK with a live handle, defined input slots, valid codec replies and enough capacity calls the
codec once per frame in order, writes exactly the wire form of the payload to PBUF[0..L-1], leaves the cursor at 8*L and
reports L and NFR. No other bit, register or slot changes. -/
def Obligations.PackWritesTheWireForm : Prop :=
  ∀ (cmr : BitVec 4) (nfr : BitVec 8) (s : State) (frames : List PcmFrame),
    PbufCanonical s → s.hstate = .live → 1 ≤ nfr.toNat → nfr.toNat ≤ s.params.maxFrames →
    s.argLen.toNat ≤ s.params.bufCap → frames.length = nfr.toNat →
    (∀ k, k < nfr.toNat → s.pcmIn[k]? = some frames[k]?) →
    (∀ r ∈ encodeReplies frames s, r.mode.toNat ≤ 7 ∧ r.bytes.length = nbytes r.mode.toNat) →
    payloadLen ((encodeReplies frames s).map (fun r => r.mode.toNat)) ≤ s.argLen.toNat →
    ∃ t, exec (.pack cmr nfr) s = .next t ∧ Ended .none t ∧
      HoldsBytes t 0 (wirePayload cmr (encodeReplies frames s)) ∧
      (wirePayload cmr (encodeReplies frames s)).length =
        payloadLen ((encodeReplies frames s).map (fun r => r.mode.toNat)) ∧
      (∀ i, payloadLen ((encodeReplies frames s).map (fun r => r.mode.toNat)) ≤ i → t.pbuf.byteAt i = s.pbuf.byteAt i) ∧
      t.pos = 8 * payloadLen ((encodeReplies frames s).map (fun r => r.mode.toNat)) ∧
      (readReg .resLen t).toNat = payloadLen ((encodeReplies frames s).map (fun r => r.mode.toNat)) ∧
      (readReg .resFrames t).toNat = nfr.toNat ∧ t.calls = s.calls ++ encodeCalls frames s ∧
      KeepsFlags s t ∧ KeepsRegs [.status, .cur, .resLen, .resFrames] s t ∧ KeepsSlots s t ∧ KeepsOutside s t

/-- R143, R147: PACK stops at the first reply of mode 8 or more with InvalidModeIndex: no later call, no PBUF bit written, the
cursor unmoved, RES_LEN and RES_FRAMES 0. -/
def Obligations.PackStopsAtAnInvalidMode : Prop :=
  ∀ (cmr : BitVec 4) (nfr : BitVec 8) (s : State) (frames : List PcmFrame) (valid : List EncodeReply) (bad : EncodeReply),
    s.hstate = .live → nfr.toNat ≤ s.params.maxFrames → s.argLen.toNat ≤ s.params.bufCap → frames.length ≤ nfr.toNat →
    (∀ k, k < frames.length → s.pcmIn[k]? = some frames[k]?) →
    encodeReplies frames s = valid ++ [bad] →
    (∀ r ∈ valid, r.mode.toNat ≤ 7 ∧ r.bytes.length = nbytes r.mode.toNat) → 8 ≤ bad.mode.toNat →
    ∃ t, exec (.pack cmr nfr) s = .next t ∧ Ended .invalidModeIndex t ∧ t.calls = s.calls ++ encodeCalls frames s ∧
      readReg .resLen t = 0#32 ∧ readReg .resFrames t = 0#32 ∧ KeepsFlags s t ∧
      KeepsRegs [.status, .resLen, .resFrames] s t ∧ KeepsPbuf s t ∧ KeepsSlots s t ∧ KeepsOutside s t

/-- R144, R147: when the payload is longer than the capacity PACK raises BufferTooSmall after all its codec calls: no PBUF bit
written, the cursor unmoved, RES_LEN and RES_FRAMES 0. -/
def Obligations.PackChecksTheCapacityFirst : Prop :=
  ∀ (cmr : BitVec 4) (nfr : BitVec 8) (s : State) (frames : List PcmFrame),
    s.hstate = .live → 1 ≤ nfr.toNat → nfr.toNat ≤ s.params.maxFrames → s.argLen.toNat ≤ s.params.bufCap →
    frames.length = nfr.toNat → (∀ k, k < nfr.toNat → s.pcmIn[k]? = some frames[k]?) →
    (∀ r ∈ encodeReplies frames s, r.mode.toNat ≤ 7 ∧ r.bytes.length = nbytes r.mode.toNat) →
    s.argLen.toNat < payloadLen ((encodeReplies frames s).map (fun r => r.mode.toNat)) →
    ∃ t, exec (.pack cmr nfr) s = .next t ∧ Ended .bufferTooSmall t ∧ t.calls = s.calls ++ encodeCalls frames s ∧
      readReg .resLen t = 0#32 ∧ readReg .resFrames t = 0#32 ∧ KeepsFlags s t ∧
      KeepsRegs [.status, .resLen, .resFrames] s t ∧ KeepsPbuf s t ∧ KeepsSlots s t ∧ KeepsOutside s t

/-- R146: PACK never raises PaddingInconsistency, whatever the codec answers. -/
def Obligations.PackNeverMisaligns : Prop :=
  ∀ (cmr : BitVec 4) (nfr : BitVec 8) (s t : State), exec (.pack cmr nfr) s = .next t → t.err ≠ .paddingInconsistency

/-- R144 to R147, R202, R232: PACK with any error leaves PBUF and the cursor unchanged; on success RES_LEN is the cursor's byte
index, at most the capacity, every byte below it is defined (PBUF in its canonical form) and every byte from it on is
unchanged. -/
def Obligations.PackIsAllOrNothing : Prop :=
  ∀ (cmr : BitVec 4) (nfr : BitVec 8) (s t : State), exec (.pack cmr nfr) s = .next t →
    (t.err ≠ .none → KeepsPbuf s t ∧ t.pos = s.pos) ∧
    (t.err = .none → t.pos = 8 * t.resLen.toNat ∧ t.resLen.toNat ≤ s.argLen.toNat ∧
      (PbufCanonical s → ∀ i, i < t.resLen.toNat → t.pbuf.readByte i ≠ none) ∧
      ∀ i, t.resLen.toNat ≤ i → t.pbuf.byteAt i = s.pbuf.byteAt i)

/-! ### UNPACK (43_unpack.md) -/

/-- R161, R201: a bad OUTCAP or a payload length above BUF_CAP makes UNPACK illegal; it changes nothing. -/
def Obligations.UnpackRefusesBadOperands : Prop :=
  ∀ (outcap : BitVec 8) (s : State), s.params.pcmOutFrames < outcap.toNat ∨ s.params.bufCap < s.argLen.toNat →
    ∃ t, exec (.unpack outcap) s = .next t ∧ OnlyCompletes .illegalCommand s t

/-- R161: UNPACK without a live handle raises UninitializedCodec, sets RES_LEN, RES_FRAMES, RES_SAMPLES and RES_PCMBYTES to 0
and leaves CUR, CMR_OUT, PBUF and PCM_OUT unchanged. -/
def Obligations.UnpackNeedsAHandle : Prop :=
  ∀ (outcap : BitVec 8) (s : State),
    outcap.toNat ≤ s.params.pcmOutFrames → s.argLen.toNat ≤ s.params.bufCap → s.hstate ≠ .live →
    ∃ t, exec (.unpack outcap) s = .next t ∧ Ended .uninitializedCodec t ∧
      readReg .resLen t = 0#32 ∧ readReg .resFrames t = 0#32 ∧ readReg .resSamples t = 0#32 ∧ readReg .resPcmBytes t = 0#32 ∧
      KeepsFlags s t ∧ KeepsRegs [.status, .resLen, .resFrames, .resSamples, .resPcmBytes] s t ∧
      KeepsPbuf s t ∧ KeepsSlots s t ∧ KeepsCalls s t ∧ KeepsOutside s t

/-- R162, R172: an empty payload is malformed: every result 0, CMR_OUT 0, the cursor at position 0, no codec call. -/
def Obligations.UnpackRejectsAnEmptyPayload : Prop :=
  ∀ (outcap : BitVec 8) (s : State), outcap.toNat ≤ s.params.pcmOutFrames → s.argLen = 0#16 → s.hstate = .live →
    ∃ t, exec (.unpack outcap) s = .next t ∧ Ended .malformedPayload t ∧ t.pos = 0 ∧ readReg .cmrOut t = 0#32 ∧
      readReg .resLen t = 0#32 ∧ readReg .resFrames t = 0#32 ∧ readReg .resSamples t = 0#32 ∧ readReg .resPcmBytes t = 0#32 ∧
      KeepsFlags s t ∧ KeepsRegs [.status, .cur, .resLen, .resFrames, .resSamples, .resPcmBytes, .cmrOut] s t ∧
      KeepsPbuf s t ∧ KeepsSlots s t ∧ KeepsCalls s t ∧ KeepsOutside s t

/-- R163, R172: a payload whose TOC never ends is malformed: RES_LEN = PLEN, NTOC = PLEN - 1, no frame decoded, CMR_OUT
recorded, no codec call. -/
def Obligations.UnpackRejectsAnEndlessToc : Prop :=
  ∀ (outcap : BitVec 8) (s : State) (cmrByte : BitVec 8) (tocBytes : List Byte),
    outcap.toNat ≤ s.params.pcmOutFrames → s.argLen.toNat ≤ s.params.bufCap → s.hstate = .live →
    s.argLen.toNat = 1 + tocBytes.length → HoldsBytes s 0 (cmrByte :: tocBytes) →
    (∀ v ∈ tocBytes, v.getLsbD 7 = true) →
    ∃ t, exec (.unpack outcap) s = .next t ∧ Ended .malformedPayload t ∧ t.pos = 8 * s.argLen.toNat ∧
      (readReg .cmrOut t).toNat = 256 * cmrByte.toNat + cmrByte.toNat / 16 ∧
      (readReg .resLen t).toNat = s.argLen.toNat ∧ (readReg .resFrames t).toNat = tocBytes.length ∧
      readReg .resSamples t = 0#32 ∧ readReg .resPcmBytes t = 0#32 ∧
      KeepsFlags s t ∧ KeepsRegs [.status, .cur, .resLen, .resFrames, .resSamples, .resPcmBytes, .cmrOut] s t ∧
      KeepsPbuf s t ∧ KeepsSlots s t ∧ KeepsCalls s t ∧ KeepsOutside s t

/-- R164, R173: a TOC with more speech entries than OUTCAP raises BufferTooSmall before any codec call: RES_LEN is 1 + the
number of TOC bytes, no frame is decoded and PCM_OUT is unchanged. -/
def Obligations.UnpackChecksTheSlotsFirst : Prop :=
  ∀ (outcap : BitVec 8) (s : State) (cmrByte : BitVec 8) (tocBytes : List Byte),
    outcap.toNat ≤ s.params.pcmOutFrames → s.argLen.toNat ≤ s.params.bufCap → s.hstate = .live →
    1 + tocBytes.length ≤ s.argLen.toNat → HoldsBytes s 0 (cmrByte :: tocBytes) → TocChain tocBytes →
    outcap.toNat < (speechEntries tocBytes).length →
    ∃ t, exec (.unpack outcap) s = .next t ∧ Ended .bufferTooSmall t ∧ t.pos = 8 * (1 + tocBytes.length) ∧
      (readReg .cmrOut t).toNat = 256 * cmrByte.toNat + cmrByte.toNat / 16 ∧
      (readReg .resLen t).toNat = 1 + tocBytes.length ∧ (readReg .resFrames t).toNat = tocBytes.length ∧
      readReg .resSamples t = 0#32 ∧ readReg .resPcmBytes t = 0#32 ∧
      KeepsFlags s t ∧ KeepsRegs [.status, .cur, .resLen, .resFrames, .resSamples, .resPcmBytes, .cmrOut] s t ∧
      KeepsPbuf s t ∧ KeepsSlots s t ∧ KeepsCalls s t ∧ KeepsOutside s t

/-- R160, R162 to R169, R171: UNPACK of a payload that holds a CMR byte, a TOC chain and the speech bytes its entries ask for
decodes each speech entry in TOC order, skips the markers, stores the frames in PCM_OUT[0..] and reports what it consumed.
Later payload bytes are not looked at; PBUF and every other slot and register are unchanged. -/
def Obligations.UnpackDecodesThePayload : Prop :=
  ∀ (outcap : BitVec 8) (s : State) (cmrByte : BitVec 8) (tocBytes : List Byte) (frames : List (TocEntry × List Byte)),
    s.params.legal → SlotsSized s → outcap.toNat ≤ s.params.pcmOutFrames → s.argLen.toNat ≤ s.params.bufCap →
    s.hstate = .live → TocChain tocBytes → frames.map (fun x => x.1) = speechEntries tocBytes → FramesFit frames →
    HoldsBytes s 0 (cmrByte :: (tocBytes ++ frames.flatMap (fun x => x.2))) →
    1 + tocBytes.length + (frames.flatMap (fun x => x.2)).length ≤ s.argLen.toNat → frames.length ≤ outcap.toNat →
    ∃ t, exec (.unpack outcap) s = .next t ∧ Ended .none t ∧
      t.pos = 8 * (1 + tocBytes.length + (frames.flatMap (fun x => x.2)).length) ∧
      (readReg .cmrOut t).toNat = 256 * cmrByte.toNat + cmrByte.toNat / 16 ∧
      (readReg .resLen t).toNat = 1 + tocBytes.length + (frames.flatMap (fun x => x.2)).length ∧
      (readReg .resFrames t).toNat = 65536 * frames.length + tocBytes.length ∧
      (readReg .resSamples t).toNat = 160 * frames.length ∧
      (readReg .resPcmBytes t).toNat = 160 * s.params.pcmSampleBytes * frames.length ∧
      t.calls = s.calls ++ decodeCalls frames s ∧ t.pcmIn = s.pcmIn ∧
      (∀ k, t.pcmOut[k]? = if k < frames.length then some (decodeReplies frames s)[k]? else s.pcmOut[k]?) ∧
      KeepsFlags s t ∧ KeepsRegs [.status, .cur, .resLen, .resFrames, .resSamples, .resPcmBytes, .cmrOut] s t ∧
      KeepsPbuf s t ∧ KeepsOutside s t

/-- R166, R168, R170: when the next speech frame does not fit the rest of the payload, UNPACK keeps the frames decoded before
it, sets TRUNC, raises TruncatedPayload and leaves the cursor at the first byte of the truncated frame; no call is made for
that entry or a later one. -/
def Obligations.UnpackKeepsWhatCameBeforeATruncation : Prop :=
  ∀ (outcap : BitVec 8) (s : State) (cmrByte : BitVec 8) (tocBytes : List Byte) (before after : List TocEntry) (e : TocEntry)
    (frames : List (TocEntry × List Byte)),
    s.params.legal → SlotsSized s → outcap.toNat ≤ s.params.pcmOutFrames → s.argLen.toNat ≤ s.params.bufCap →
    s.hstate = .live → TocChain tocBytes → tocBytes.map parseToc = before ++ e :: after → e.ft.toNat ≤ 7 →
    frames.map (fun x => x.1) = before.filter isSpeech → FramesFit frames →
    HoldsBytes s 0 (cmrByte :: (tocBytes ++ frames.flatMap (fun x => x.2))) →
    1 + tocBytes.length + (frames.flatMap (fun x => x.2)).length ≤ s.argLen.toNat →
    s.argLen.toNat < 1 + tocBytes.length + (frames.flatMap (fun x => x.2)).length + nbytes e.ft.toNat →
    (speechEntries tocBytes).length ≤ outcap.toNat →
    ∃ t, exec (.unpack outcap) s = .next t ∧ Ended .truncatedPayload t ∧ t.trunc = true ∧
      t.pos = 8 * (1 + tocBytes.length + (frames.flatMap (fun x => x.2)).length) ∧
      (readReg .cmrOut t).toNat = 256 * cmrByte.toNat + cmrByte.toNat / 16 ∧
      (readReg .resLen t).toNat = 1 + tocBytes.length + (frames.flatMap (fun x => x.2)).length ∧
      (readReg .resFrames t).toNat = 65536 * frames.length + tocBytes.length ∧
      (readReg .resSamples t).toNat = 160 * frames.length ∧
      (readReg .resPcmBytes t).toNat = 160 * s.params.pcmSampleBytes * frames.length ∧
      t.calls = s.calls ++ decodeCalls frames s ∧ t.pcmIn = s.pcmIn ∧
      (∀ k, t.pcmOut[k]? = if k < frames.length then some (decodeReplies frames s)[k]? else s.pcmOut[k]?) ∧
      t.ie = s.ie ∧ t.ovr = s.ovr ∧ t.hstate = s.hstate ∧
      KeepsRegs [.status, .cur, .resLen, .resFrames, .resSamples, .resPcmBytes, .cmrOut] s t ∧
      KeepsPbuf s t ∧ KeepsOutside s t

/-- R175: UNPACK of what PACK wrote, with ARG_LEN = L and OUTCAP of at least NFR, succeeds with NTOC = NDEC = NFR and
RES_LEN = L; it decodes (m[f], q[f], S'[f]) for each frame in order, S'[f] being S[f] with its pad bits cleared. With the stub
codec of 95_test_vectors.md section 2, whose frame for a triple is the model's form of it (log 3), frames whose pad bits are 0
come back as they went in. -/
def Obligations.UnpackOfPackRoundTrip : Prop :=
  ∀ (cmr : BitVec 4) (nfr outcap : BitVec 8) (s t : State) (frames : List PcmFrame),
    s.params.legal → SlotsSized s → PbufCanonical s → s.hstate = .live →
    frames.length = nfr.toNat → (∀ k, k < nfr.toNat → s.pcmIn[k]? = some frames[k]?) →
    nfr.toNat ≤ outcap.toNat → outcap.toNat ≤ s.params.pcmOutFrames →
    exec (.pack cmr nfr) s = .next t → t.err = .none →
    ∃ u, exec (.unpack outcap) { t with argLen := t.resLen } = .next u ∧ u.err = .none ∧
      u.ntoc.toNat = nfr.toNat ∧ u.ndec.toNat = nfr.toNat ∧ u.resLen = t.resLen ∧
      u.cmrOut = cmr ∧
      u.calls = t.calls ++ decodeCalls
        ((encodeReplies frames s).map (fun r => ({ f := 0#1, ft := r.mode.setWidth 4, q := r.q }, wireFrame r))) t ∧
      (s.params.codec = .stub →
        (∀ x ∈ frames, ∃ r : EncodeReply, x = stubFrame r.mode r.q r.bytes ∧ wireFrame r = r.bytes) →
        ∀ k, k < nfr.toNat → u.pcmOut[k]? = some frames[k]?)

/-! ### Registers and the host (10_state.md, 20_memory.md, 70_reset_and_hazards.md) -/

/-- R231: what reset leaves, for every choice of the open parameters: the value of every register, irq 0, every PBUF bit and
every PCM slot undefined, no codec call made. -/
def Obligations.ResetLeavesTheSpecsValues : Prop :=
  ∀ p : Params,
    (allRegs.map (fun r => readReg r (State.resetFor p)) =
      [0x00000018#32, 0x1F400176#32, 0#32, 0#32, 0#32, 0x00070000#32, 0#32, 0#32, 0#32, 0#32, 0#32, 0#32, 0#32, 0#32, 0#32, 0#32]) ∧
    (State.resetFor p).pos = 0 ∧ (State.resetFor p).irq = false ∧ (State.resetFor p).hstate = .none ∧
    (∀ q, (State.resetFor p).pbuf.getBit q = none) ∧
    (∀ k, k < p.maxFrames → (State.resetFor p).pcmIn[k]? = some none) ∧
    (∀ k, k < p.pcmOutFrames → (State.resetFor p).pcmOut[k]? = some none) ∧
    (State.resetFor p).calls = [] ∧ (State.resetFor p).faulted = none

/-- R21 to R38, R70: a 32-bit write at a register's offset to an idle block stores the implemented bits of the RW registers,
clears DONE and OVR where STATUS is written 1, is ignored by the read-only registers, and changes no other register, PBUF bit or
slot. -/
def Obligations.RegisterWritesFollowTheMap : Prop :=
  ∀ (s : State) (r : Reg) (offset : Nat) (v : Word) (rest : List HostOp), (r, offset) ∈ registerMap →
    s.host = .write offset 32 v :: rest → s.faulted = none → s.busy = false →
    r ≠ .cmd → ∃ t, step s = .next t ∧ t.faulted = none ∧ t.host = rest ∧ t.returned = s.returned ∧ KeepsRegs [r] s t ∧
      KeepsPbuf s t ∧ KeepsSlots s t ∧ KeepsCalls s t ∧
      readReg r t = match r with
        | .ctrl       => v &&& 0x00000001#32
        | .status     => readReg .status s &&& ~~~(v &&& 0x00000006#32)
        | .dataHi     => v
        | .dataLo     => v
        | .argLen     => v &&& 0x0000FFFF#32
        | .codecParam => v
        | _           => readReg r s

/-- R70: reads have no side effect: a register read, a PBUF read or a PCM slot read that answers gives one datum back and
changes nothing else. -/
def Obligations.HostReadsHaveNoSideEffect : Prop :=
  ∀ (s t : State) (op : HostOp) (rest : List HostOp), s.host = op :: rest →
    ((∃ o w, op = .read o w) ∨ ∃ k, op = .pcmOutRead k) → step s = .next t → t.faulted = none →
    ∃ d, t = { s with host := rest, returned := s.returned ++ [d] }

/-- R21 to R38, R65, R200: every register has its offset and its layout: a 32-bit read at the offset gives the number that has
each field at its place and 0 in every reserved bit. STATUS and CTRL answer while BUSY = 1 too (R236, log 8). -/
def Obligations.RegisterReadsAnswer : Prop :=
  (∀ (s : State) (r : Reg), readReg r s = BitVec.ofNat 32 (registerNumber s r) ∧ registerNumber s r < 2 ^ 32) ∧
  ∀ (s : State) (r : Reg) (offset : Nat) (rest : List HostOp), (r, offset) ∈ registerMap →
    s.host = .read offset 32 :: rest → s.faulted = none → s.busy = false ∨ r = .status ∨ r = .ctrl →
    ∃ t, step s = .next t ∧ t.faulted = none ∧ t.returned = s.returned ++ [.word (BitVec.ofNat 32 (registerNumber s r))]

/-- R64, R47: a host byte write defines its byte and no other; a host byte read of an idle block gives a wholly defined byte
and is a model fault where a bit is undefined. -/
def Obligations.PbufWindowReadsAndWrites : Prop :=
  ∀ (s : State) (i : Nat) (rest : List HostOp), PbufCanonical s → s.faulted = none → s.busy = false → i < s.params.bufCap →
    (∀ v : Word, s.host = .write (0x1000 + i) 8 v :: rest →
      ∃ t, step s = .next t ∧ t.faulted = none ∧ t.pbuf.readByte i = some (v.extractLsb' 0 8) ∧
        (∀ j, j ≠ i → t.pbuf.byteAt j = s.pbuf.byteAt j) ∧ KeepsRegs [] s t ∧ KeepsSlots s t ∧ KeepsCalls s t) ∧
    (s.host = .read (0x1000 + i) 8 :: rest → ∀ b, s.pbuf.readByte i = some b →
      ∃ t, step s = .next t ∧ t.faulted = none ∧ t.returned = s.returned ++ [.byte b]) ∧
    (s.host = .read (0x1000 + i) 8 :: rest → s.pbuf.readByte i = none →
      ∃ p t, step s = .next t ∧ Faulted (.undefinedBit p) rest s t ∧ p / 8 = i ∧ s.pbuf.getBit p = none)

/-- R65, R66, R215: an access of a wrong width, a misaligned register access and an access to an unlisted offset are refused
as model faults, read or write: the state becomes faulted. -/
def Obligations.RefusedAccessesFault : Prop :=
  ∀ (s : State) (offset width : Nat) (v : Word) (rest : List HostOp), s.faulted = none → s.busy = false →
    (offset < 0x1000 ∧ (offset % 4 ≠ 0 ∨ width ≠ 32 ∨ 0x03C < offset)) ∨
      (0x1000 ≤ offset ∧ (width ≠ 8 ∨ 0x1000 + s.params.bufCap ≤ offset)) →
    (s.host = .read offset width :: rest ∨ s.host = .write offset width v :: rest) →
    ∃ f t, step s = .next t ∧ Faulted f rest s t

/-- R67: the PCM port: a write defines its slot and no other, a read gives a defined slot, an undefined slot and an index out
of range are model faults. -/
def Obligations.PcmPortReadsAndWrites : Prop :=
  ∀ (s : State) (k : Nat) (x : PcmFrame) (rest : List HostOp), SlotsSized s → s.faulted = none → s.busy = false →
    (s.host = .pcmInWrite k x :: rest →
      (k < s.params.maxFrames → ∃ t, step s = .next t ∧ t.faulted = none ∧ t.pcmIn[k]? = some (some x) ∧
        (∀ j, j ≠ k → t.pcmIn[j]? = s.pcmIn[j]?) ∧ t.pcmOut = s.pcmOut ∧ KeepsRegs [] s t ∧ KeepsPbuf s t ∧ KeepsCalls s t) ∧
      (s.params.maxFrames ≤ k → ∃ t, step s = .next t ∧ Faulted (.pcmIndex k) rest s t)) ∧
    (s.host = .pcmOutRead k :: rest →
      (∀ y, s.pcmOut[k]? = some (some y) → ∃ t, step s = .next t ∧ t.faulted = none ∧ t.returned = s.returned ++ [.frame y]) ∧
      (s.pcmOut[k]? = some none → ∃ t, step s = .next t ∧ Faulted (.undefinedPcmOut k) rest s t) ∧
      (s.params.pcmOutFrames ≤ k → ∃ t, step s = .next t ∧ Faulted (.pcmIndex k) rest s t))

/-- R215, R230, R231: the platform's reset takes the block from any state, a faulted one and one with BUSY = 1 among them, to the
reset values of its parameters, not faulted, and makes no codec call. A step answers a model fault exactly where a faulted
state is asked to go on without that reset. That the host's queue, what it has read and the parameters stay is the model's
choice (log 10), and so is that nothing else leads out of a faulted state (log 11). -/
def Obligations.PlatformResetFromAnyState : Prop :=
  (∀ (s : State) (f : Fault),
    step s = .fault f ↔ s.faulted = some f ∧ ∀ rest, s.host ≠ .platformReset :: rest) ∧
  ∀ (s : State) (rest : List HostOp), s.host = .platformReset :: rest →
    ∃ t, step s = .next t ∧ t.faulted = none ∧ (∀ r, readReg r t = readReg r (State.resetFor s.params)) ∧
      (∀ q, t.pbuf.getBit q = none) ∧ t.pcmIn = List.replicate s.params.maxFrames none ∧
      t.pcmOut = List.replicate s.params.pcmOutFrames none ∧ t.calls = [] ∧ t.hstate = .none ∧ t.irq = false ∧
      t.host = rest ∧ t.returned = s.returned ∧ t.params = s.params

/-! ### Invariants -/

/-- R231: the reset state meets every invariant, for all legal parameters; the model's reset state is one of these. -/
def Obligations.InvariantsHoldAtReset : Prop :=
  (∀ p : Params, p.legal → Inv (State.resetFor p)) ∧ Inv State.reset

/-- R9, R28, R32 to R37, R40, R43 to R46, R60, R144, R170, R171, R204: every step that answers keeps the invariants of the
block. That the parameters stand in the state and stay legal is the model's choice (log 1); that PBUF is two canonical planes
with no value in an undefined bit is its way to hold R47 (log 5); of a step that makes the state faulted the statement speaks
of the fields the model leaves there (log 11). -/
def Obligations.StepsKeepTheInvariants : Prop :=
  ∀ s t : State, Inv s → step s = .next t → Inv t

/-- R40, R191, U1, U2: every step keeps the codec's view of its handle legal: no call before a create, none after a destroy,
no second create and no second destroy, and HSTATE is that view. No other invariant is needed. -/
def Obligations.TheCodecSeesOnlyLegalCalls : Prop :=
  ∀ s t : State, CallsLegal s → step s = .next t → CallsLegal t

/-- R71, R204: a step from an idle block is never refused, and leaves the block idle: no host access is without a move. -/
def Obligations.IdleBlocksStayIdle : Prop :=
  ∀ s : State, s.busy = false → (∀ r, step s ≠ .refused r) ∧ ∀ t, step s = .next t → t.busy = false
end

