-- ==== Sys2Proof/Laws/Bits.lean ====
section
/-! SUPPORT. Bit sequences, bytes and numbers: lengths, elements and round trips (R11). -/

namespace Sys2Proof.Laws

open Sys2Proof.Machine

@[simp] theorem zeros_length (n : Nat) : (zeros n).length = n := by simp [zeros]

@[simp] theorem bitsN_length (v n : Nat) : (bitsN v n).length = n := by
  induction n with
  | zero => rfl
  | succ n ih => simp [bitsN, ih]

/-- Element i of `bitsN(v, n)` is bit n - 1 - i of v. -/
theorem bitsN_getElem? (v n i : Nat) (h : i < n) : (bitsN v n)[i]? = some (v.testBit (n - 1 - i)) := by
  induction n generalizing i with
  | zero => omega
  | succ n ih =>
    cases i with
    | zero => simp [bitsN]
    | succ i =>
      simp only [bitsN, List.getElem?_cons_succ]
      rw [ih i (by omega)]
      congr 2
      omega

/-- `num` of a sequence with a bit in front. -/
theorem num_cons (b : Bool) (s : List Bool) : num (b :: s) = b.toNat * 2 ^ s.length + num s := by
  have key : ∀ (s : List Bool) (a : Nat),
      s.foldl (fun acc b => 2 * acc + b.toNat) a = a * 2 ^ s.length + s.foldl (fun acc b => 2 * acc + b.toNat) 0 := by
    intro s
    induction s with
    | nil => intro a; simp
    | cons x xs ih =>
      intro a
      simp only [List.foldl_cons, List.length_cons]
      rw [ih, ih (2 * 0 + x.toNat)]
      ring
  unfold num
  rw [List.foldl_cons, key]
  simp

theorem num_lt (s : List Bool) : num s < 2 ^ s.length := by
  induction s with
  | nil => simp [num]
  | cons b s ih =>
    rw [num_cons, List.length_cons, Nat.pow_succ]
    cases b <;> simp <;> omega

/-- Bit j of `num(s)` is the bit j places before the end. -/
theorem num_testBit (s : List Bool) (j : Nat) : (num s).testBit j = (decide (j < s.length) && s.getD (s.length - 1 - j) false) := by
  induction s with
  | nil => simp [num]
  | cons b s ih =>
    rw [num_cons, Nat.mul_comm]
    rw [Nat.testBit_two_pow_mul_add _ (num_lt s)]
    by_cases hj : j < s.length
    · rw [if_pos hj, ih]
      have e : s.length + 1 - 1 - j = (s.length - 1 - j) + 1 := by omega
      simp only [List.length_cons, e, List.getD_cons_succ, hj, decide_true, Bool.true_and]
      simp [show j < s.length + 1 by omega]
    · rw [if_neg hj]
      by_cases hj2 : j = s.length
      · subst hj2
        cases b <;> simp
      · have h1 : ¬ j < s.length + 1 := by omega
        have h2 : j - s.length = (j - s.length - 1) + 1 := by omega
        rw [h2]
        cases b <;> simp [h1, Nat.testBit_succ]

/-- `num(bitsN(v, n)) = v mod 2^n` (R11). -/
theorem num_bitsN (v n : Nat) : num (bitsN v n) = v % 2 ^ n := by
  apply Nat.eq_of_testBit_eq
  intro j
  rw [num_testBit, Nat.testBit_mod_two_pow, bitsN_length]
  by_cases hj : j < n
  · simp only [hj, decide_true, Bool.true_and]
    rw [List.getD_eq_getElem?_getD, bitsN_getElem? _ _ _ (by omega)]
    simp only [Option.getD_some]
    congr 1
    omega
  · simp [hj]

@[simp] theorem bitsOf_length (B : List Byte) : (bitsOf B).length = 8 * B.length := by
  induction B with
  | nil => rfl
  | cons b B ih =>
    have : bitsOf (b :: B) = bitsN b.toNat 8 ++ bitsOf B := rfl
    rw [this, List.length_append, ih, bitsN_length, List.length_cons]
    omega

theorem bitsOf_cons (b : Byte) (B : List Byte) : bitsOf (b :: B) = bitsN b.toNat 8 ++ bitsOf B := rfl

theorem bitsOf_append (A B : List Byte) : bitsOf (A ++ B) = bitsOf A ++ bitsOf B := by
  simp [bitsOf, List.flatMap_append]

/-- Eight bits of a byte make the byte again. -/
theorem byteOf_bitsN (b : Byte) (rest : List Bool) : byteOf (bitsN b.toNat 8 ++ rest) = b := by
  unfold byteOf
  have h1 : (bitsN b.toNat 8 ++ rest).take 8 = bitsN b.toNat 8 := by
    rw [List.take_append_of_le_length (by simp), List.take_of_length_le (by simp)]
  have h2 : 8 - (bitsN b.toNat 8 ++ rest).length = 0 := by simp
  rw [h1, h2]
  have hb : b.toNat % 256 = b.toNat := Nat.mod_eq_of_lt b.isLt
  simp [zeros, num_bitsN, hb]

/-- The bits of `byteOf`: the first eight, zero-filled. -/
theorem bitsN_byteOf (s : List Bool) : bitsN (byteOf s).toNat 8 = s.take 8 ++ zeros (8 - s.length) := by
  unfold byteOf
  set u := s.take 8 ++ zeros (8 - s.length) with hu
  have hl : u.length = 8 := by simp [hu]; omega
  have hlt : num u < 2 ^ 8 := by have := num_lt u; rwa [hl] at this
  rw [BitVec.toNat_ofNat, Nat.mod_eq_of_lt hlt]
  apply List.ext_getElem?
  intro i
  by_cases hi : i < 8
  · rw [bitsN_getElem? _ _ _ hi, num_testBit, hl]
    have e : 8 - 1 - (8 - 1 - i) = i := by omega
    rw [e]
    have h3 : 8 - 1 - i < 8 := by omega
    simp only [h3, decide_true, Bool.true_and]
    rw [List.getD_eq_getElem?_getD, List.getElem?_eq_getElem (by omega)]
    simp
  · rw [List.getElem?_eq_none (by simp; omega), List.getElem?_eq_none (by omega)]

theorem ceil8_eq (n : Nat) : ceil8 n = (n + 7) / 8 := rfl

theorem bytesOf_nil : bytesOf [] = [] := rfl

/-- `bytesOf` byte by byte. -/
theorem bytesOf_step (s : List Bool) (h : s ≠ []) : bytesOf s = byteOf s :: bytesOf (s.drop 8) := by
  unfold bytesOf
  have hl : 0 < s.length := List.length_pos_iff.mpr h
  have e : ceil8 s.length = ceil8 (s.drop 8).length + 1 := by simp [ceil8]; omega
  rw [e, List.range_succ_eq_map, List.map_cons, List.map_map]
  simp only [Nat.mul_zero, List.drop_zero, List.cons.injEq, true_and]
  apply List.map_congr_left
  intro k _
  simp [List.drop_drop, Nat.mul_add, Nat.add_comm]

@[simp] theorem bytesOf_length (s : List Bool) : (bytesOf s).length = ceil8 s.length := by simp [bytesOf]

/-- `bitsOf(bytesOf(s))` is s with the last byte's unused bits 0 (R11). -/
theorem bitsOf_bytesOf (s : List Bool) : bitsOf (bytesOf s) = s ++ zeros (8 * ceil8 s.length - s.length) := by
  induction hn : s.length using Nat.strong_induction_on generalizing s with
  | _ n ih =>
    subst hn
    by_cases h : s = []
    · subst h; rfl
    · have hl : 0 < s.length := List.length_pos_iff.mpr h
      rw [bytesOf_step s h, bitsOf_cons, bitsN_byteOf, ih (s.drop 8).length (by simp; omega) (s.drop 8) rfl]
      by_cases h8 : 8 ≤ s.length
      · have e : 8 - s.length = 0 := by omega
        have e2 : 8 * ceil8 (s.drop 8).length - (s.drop 8).length = 8 * ceil8 s.length - s.length := by
          simp [ceil8]; omega
        rw [e, e2]
        simp only [zeros, List.replicate_zero, List.append_nil]
        rw [← List.append_assoc, List.take_append_drop]
      · have e : s.drop 8 = [] := List.drop_eq_nil_of_le (by omega)
        have e2 : 8 * ceil8 s.length - s.length = 8 - s.length := by simp [ceil8]; omega
        rw [e, e2, List.take_of_length_le (by omega)]
        simp [zeros, ceil8]

/-- `bytesOf(bitsOf(B)) = B` (R11). -/
theorem bytesOf_bitsOf (B : List Byte) : bytesOf (bitsOf B) = B := by
  induction B with
  | nil => rfl
  | cons b B ih =>
    have hne : bitsOf (b :: B) ≠ [] := by
      intro h
      have := congrArg List.length h
      simp at this
    rw [bytesOf_step _ hne, bitsOf_cons, byteOf_bitsN]
    rw [List.drop_append_of_le_length (by simp), List.drop_of_length_le (by simp), List.nil_append, ih]

/-- Element i of a byte list's bits. -/
theorem bitsOf_getElem? (B : List Byte) (i k : Nat) (hk : k < 8) :
    (bitsOf B)[8 * i + k]? = (B[i]?).map (fun b => b.getLsbD (7 - k)) := by
  induction B generalizing i with
  | nil => simp [bitsOf]
  | cons b B ih =>
    rw [bitsOf_cons]
    cases i with
    | zero =>
      rw [Nat.mul_zero, Nat.zero_add, List.getElem?_append_left (by simp [hk]), bitsN_getElem? _ _ _ hk]
      simp [BitVec.getLsbD]
    | succ i =>
      rw [List.getElem?_append_right (by simp; omega), bitsN_length,
        show 8 * (i + 1) + k - 8 = 8 * i + k by omega, ih]
      simp

/-- DATA as a bit sequence (R29). -/
theorem dataBits_length (n : Nat) (d : BitVec 64) (h : n ≤ 64) : (dataBits n d).length = n := by simp [dataBits, h]

theorem dataBits_getElem? (n i : Nat) (d : BitVec 64) (hn : n ≤ 64) (hi : i < n) :
    (dataBits n d)[i]? = some (d.getLsbD (63 - i)) := by
  unfold dataBits
  rw [List.getElem?_take, if_pos hi, bitsN_getElem? _ _ _ (by omega)]
  simp [BitVec.getLsbD]

/-- Bit 63 - i of the DATA word made from a run is the run's bit i, 0 past its end (R107). -/
theorem dataOfBits_getLsbD (bits : List Bool) (i : Nat) (hl : bits.length ≤ 64) (hi : i < 64) :
    (dataOfBits bits).getLsbD (63 - i) = bits.getD i false := by
  unfold dataOfBits
  have hlen : (bits ++ zeros (64 - bits.length)).length = 64 := by simp; omega
  rw [BitVec.getLsbD_ofNat, num_testBit, hlen]
  have h1 : 63 - i < 64 := by omega
  have e : 64 - 1 - (63 - i) = i := by omega
  simp only [h1, decide_true, Bool.true_and, e]
  rw [List.getD_eq_getElem?_getD, List.getD_eq_getElem?_getD]
  by_cases hib : i < bits.length
  · rw [List.getElem?_append_left hib]
  · rw [List.getElem?_append_right (by omega), List.getElem?_eq_none (l := bits) (by omega)]
    simp only [zeros, List.getElem?_replicate]
    split <;> rfl

end Sys2Proof.Laws
end

