-- ==== Sys2Proof/Laws/Memory.lean ====
section
/-! SUPPORT. What every operation on PBUF does: reads after writes, the canonical form kept, bits and runs of bits. -/

namespace Sys2Proof.Laws

open Sys2Proof.Machine

/-! ### One plane of cells -/

theorem cellsRead_of_above {l : List Host.Cell} {lo a : Nat} (h : cellsAbove lo l = true) (ha : a ≤ lo) :
    cellsRead a l = unlistedByte := by
  induction l generalizing lo with
  | nil => rfl
  | cons c rest ih =>
    obtain ⟨k, w⟩ := c
    simp only [cellsAbove, Bool.and_eq_true, decide_eq_true_eq] at h
    have hk : k ≠ a := by omega
    simp only [cellsRead, hk, if_false]
    exact ih h.2 (by omega)

theorem cellsAbove_mono {l : List Host.Cell} {lo lo' : Nat} (h : cellsAbove lo l = true) (hl : lo' ≤ lo) :
    cellsAbove lo' l = true := by
  cases l with
  | nil => rfl
  | cons c rest =>
    obtain ⟨k, w⟩ := c
    simp only [cellsAbove, Bool.and_eq_true, decide_eq_true_eq] at h ⊢
    exact ⟨⟨by omega, h.1.2⟩, h.2⟩

theorem cellsWf_of_above {l : List Host.Cell} {lo : Nat} (h : cellsAbove lo l = true) : cellsWf l = true := by
  cases l with
  | nil => rfl
  | cons c rest =>
    obtain ⟨k, w⟩ := c
    simp only [cellsAbove, cellsWf, Bool.and_eq_true, decide_eq_true_eq] at h ⊢
    exact ⟨h.1.2, h.2⟩

theorem cellsAbove_cons {l : List Host.Cell} {lo a : Nat} {v : Byte} (hlo : lo < a) (h : cellsAbove a l = true) :
    cellsAbove lo (cellsCons a v l) = true := by
  unfold cellsCons
  split
  · exact cellsAbove_mono h (by omega)
  · rename_i hv
    simp [cellsAbove, hlo, h, hv]

theorem cellsAbove_write {l : List Host.Cell} {lo a : Nat} {v : Byte} (hlo : lo < a) (h : cellsAbove lo l = true) :
    cellsAbove lo (cellsWrite a v l) = true := by
  induction l generalizing lo with
  | nil => exact cellsAbove_cons hlo rfl
  | cons c rest ih =>
    obtain ⟨k, w⟩ := c
    simp only [cellsAbove, Bool.and_eq_true, decide_eq_true_eq] at h
    simp only [cellsWrite]
    split
    · rename_i hak
      exact cellsAbove_cons hlo (by simp [cellsAbove, hak, h.1.2, h.2])
    · split
      · rename_i _ hak
        exact cellsAbove_cons hlo (hak ▸ h.2)
      · simp only [cellsAbove, Bool.and_eq_true, decide_eq_true_eq]
        exact ⟨h.1, ih (by omega) h.2⟩

theorem cellsWf_write {l : List Host.Cell} {a : Nat} {v : Byte} (h : cellsWf l = true) :
    cellsWf (cellsWrite a v l) = true := by
  cases l with
  | nil =>
    unfold cellsWrite cellsCons
    split
    · rfl
    · rename_i hv
      simp [cellsWf, cellsAbove, hv]
  | cons c rest =>
    obtain ⟨k, w⟩ := c
    simp only [cellsWf, Bool.and_eq_true, decide_eq_true_eq] at h
    simp only [cellsWrite]
    split
    · rename_i hak
      unfold cellsCons
      split
      · simp [cellsWf, h.1, h.2]
      · rename_i hv
        simp [cellsWf, cellsAbove, hv, hak, h.1, h.2]
    · split
      · rename_i _ hak
        subst hak
        unfold cellsCons
        split
        · exact cellsWf_of_above h.2
        · rename_i hv
          simp [cellsWf, hv, h.2]
      · simp only [cellsWf, Bool.and_eq_true, decide_eq_true_eq]
        exact ⟨h.1, cellsAbove_write (by omega) h.2⟩

theorem cellsRead_cons_self {l : List Host.Cell} {a : Nat} {v : Byte} (h : cellsAbove a l = true) :
    cellsRead a (cellsCons a v l) = v := by
  unfold cellsCons
  split
  · rename_i hv
    rw [cellsRead_of_above h (Nat.le_refl a), hv]
  · simp [cellsRead]

theorem cellsRead_cons_ne {l : List Host.Cell} {a b : Nat} {v : Byte} (h : b ≠ a) :
    cellsRead b (cellsCons a v l) = cellsRead b l := by
  unfold cellsCons
  split
  · rfl
  · simp [cellsRead, h.symm]

/-- A read of the address written gives the value written. -/
theorem cellsRead_write_self {l : List Host.Cell} {a : Nat} {v : Byte} (h : cellsWf l = true) :
    cellsRead a (cellsWrite a v l) = v := by
  have key : ∀ (l : List Host.Cell), cellsWf l = true → cellsRead a (cellsWrite a v l) = v := by
    intro l
    induction l with
    | nil => intro _; exact cellsRead_cons_self rfl
    | cons c rest ih =>
      obtain ⟨k, w⟩ := c
      intro h
      simp only [cellsWf, Bool.and_eq_true, decide_eq_true_eq] at h
      simp only [cellsWrite]
      split
      · rename_i hak
        exact cellsRead_cons_self (by simp [cellsAbove, hak, h.1, h.2])
      · split
        · rename_i _ hak
          exact cellsRead_cons_self (hak ▸ h.2)
        · rename_i _ hak
          simp only [cellsRead, Ne.symm hak, if_false]
          exact ih (cellsWf_of_above h.2)
  exact key l h

/-- A write leaves every other address alone. -/
theorem cellsRead_write_ne {l : List Host.Cell} {a b : Nat} {v : Byte} (hb : b ≠ a) :
    cellsRead b (cellsWrite a v l) = cellsRead b l := by
  induction l with
  | nil => exact cellsRead_cons_ne hb
  | cons c rest ih =>
    obtain ⟨k, w⟩ := c
    simp only [cellsWrite]
    split
    · exact cellsRead_cons_ne hb
    · split
      · rename_i _ hak
        rw [cellsRead_cons_ne hb]
        simp [cellsRead, show k ≠ b by omega]
      · simp [cellsRead, ih]

/-- In canonical form, equal reads are equal lists. -/
theorem cells_ext {l m : List Host.Cell} (hl : cellsWf l = true) (hm : cellsWf m = true)
    (h : ∀ a, cellsRead a l = cellsRead a m) : l = m := by
  induction l generalizing m with
  | nil =>
    cases m with
    | nil => rfl
    | cons c rest =>
      obtain ⟨k, w⟩ := c
      simp only [cellsWf, Bool.and_eq_true, decide_eq_true_eq] at hm
      exact absurd (h k).symm (by simpa [cellsRead] using hm.1)
  | cons c rest ih =>
    obtain ⟨k, w⟩ := c
    simp only [cellsWf, Bool.and_eq_true, decide_eq_true_eq] at hl
    cases m with
    | nil => exact absurd (h k) (by simpa [cellsRead] using hl.1)
    | cons d rest' =>
      obtain ⟨k', w'⟩ := d
      simp only [cellsWf, Bool.and_eq_true, decide_eq_true_eq] at hm
      have hkk : k = k' := by
        by_contra hne
        rcases Nat.lt_or_gt_of_ne hne with hlt | hgt
        · have := h k
          rw [show cellsRead k ((k', w') :: rest') = unlistedByte from
            cellsRead_of_above (lo := k) (by simp [cellsAbove, hlt, hm.1, hm.2]) (Nat.le_refl k)] at this
          exact hl.1 (by simpa [cellsRead] using this)
        · have := h k'
          rw [show cellsRead k' ((k, w) :: rest) = unlistedByte from
            cellsRead_of_above (lo := k') (by simp [cellsAbove, hgt, hl.1, hl.2]) (Nat.le_refl k')] at this
          exact hm.1 (by simpa [cellsRead] using this.symm)
      subst hkk
      have hw : w = w' := by simpa [cellsRead] using h k
      subst hw
      have := ih (cellsWf_of_above hl.2) (cellsWf_of_above hm.2) (by
        intro a
        by_cases ha : a ≤ k
        · rw [cellsRead_of_above hl.2 ha, cellsRead_of_above hm.2 ha]
        · have := h a
          simpa [cellsRead, show k ≠ a by omega] using this)
      rw [this]

/-! ### Both planes -/

@[simp] theorem byteAt_setByteAt_self {b : Pbuf} {i : Nat} {v : Byte × Byte} (h : Memory.wf b = true) :
    (b.setByteAt i v).byteAt i = v := by
  simp only [Memory.wf, Bool.and_eq_true] at h
  simp [Pbuf.byteAt, Pbuf.setByteAt, cellsRead_write_self h.1, cellsRead_write_self h.2]

theorem byteAt_setByteAt_ne {b : Pbuf} {i j : Nat} {v : Byte × Byte} (h : j ≠ i) :
    (b.setByteAt i v).byteAt j = b.byteAt j := by
  simp [Pbuf.byteAt, Pbuf.setByteAt, cellsRead_write_ne h]

/-- Every byte write keeps the canonical form. -/
theorem setByteAt_wf {b : Pbuf} {i : Nat} {v : Byte × Byte} (h : Memory.wf b = true) :
    Memory.wf (b.setByteAt i v) = true := by
  simp only [Memory.wf, Bool.and_eq_true] at h ⊢
  exact ⟨cellsWf_write h.1, cellsWf_write h.2⟩

theorem writeByte_wf {b : Pbuf} {i : Nat} {v : Byte} (h : Memory.wf b = true) : Memory.wf (b.writeByte i v) = true :=
  setByteAt_wf h

theorem setBit_wf {b : Pbuf} {p : Nat} {x : Bool} (h : Memory.wf b = true) : Memory.wf (b.setBit p x) = true :=
  setByteAt_wf h

theorem setRun_wf {b : Pbuf} {p : Nat} {xs : List Bool} (h : Memory.wf b = true) : Memory.wf (b.setRun p xs) = true := by
  induction xs generalizing p b with
  | nil => exact h
  | cons x xs ih => exact ih (setBit_wf h)

/-- Canonical buffers with the same bytes are the same buffer. -/
theorem pbuf_ext {b c : Pbuf} (hb : Memory.wf b = true) (hc : Memory.wf c = true)
    (h : ∀ i, b.byteAt i = c.byteAt i) : b = c := by
  simp only [Memory.wf, Bool.and_eq_true] at hb hc
  obtain ⟨bv, bd⟩ := b
  obtain ⟨cv, cd⟩ := c
  have hv : bv = cv := cells_ext hb.1 hc.1 (fun a => by simpa [Pbuf.byteAt] using congrArg Prod.fst (h a))
  have hd : bd = cd := cells_ext hb.2 hc.2 (fun a => by simpa [Pbuf.byteAt] using congrArg Prod.snd (h a))
  rw [hv, hd]

/-! ### Bits of a byte -/

theorem byteSet_getLsbD (x : Byte) (k j : Nat) (b : Bool) (hk : k < 8) :
    (byteSet x k b).getLsbD j = if j = k then b else x.getLsbD j := by
  have hj : j < 8 ∨ 8 ≤ j := by omega
  rcases hj with hj | hj
  · unfold byteSet
    split
    · rename_i hb
      subst hb
      by_cases h : j = k
      · subst h; simp [hj]
      · simp only [h, if_false, BitVec.getLsbD_or, BitVec.getLsbD_shiftLeft]
        have : (1#8).getLsbD (j - k) = false ∨ j < k := by
          by_cases hlt : j < k
          · exact .inr hlt
          · left
            rw [BitVec.getLsbD_one]
            simp; omega
        rcases this with h1 | h1 <;> simp [h1]
    · rename_i hb
      simp only [Bool.not_eq_true] at hb
      subst hb
      by_cases h : j = k
      · subst h; simp [hj]
      · simp only [h, if_false, BitVec.getLsbD_and, BitVec.getLsbD_not, BitVec.getLsbD_shiftLeft, hj, decide_true,
          Bool.true_and]
        have : (1#8).getLsbD (j - k) = false ∨ j < k := by
          by_cases hlt : j < k
          · exact .inr hlt
          · left
            rw [BitVec.getLsbD_one]
            simp; omega
        rcases this with h1 | h1 <;> simp [h1]
  · rw [BitVec.getLsbD_of_ge _ _ hj, BitVec.getLsbD_of_ge _ _ hj]
    simp [show j ≠ k by omega]

/-! ### One bit of PBUF -/

/-- Read of a bit after a write of a bit. -/
theorem getBit_setBit {b : Pbuf} (h : Memory.wf b = true) (p q : Nat) (x : Bool) :
    (b.setBit p x).getBit q = if q = p then some x else b.getBit q := by
  by_cases hq : q / 8 = p / 8
  · unfold Pbuf.getBit Pbuf.setBit
    rw [hq, byteAt_setByteAt_self h]
    simp only [byteSet_getLsbD _ _ _ _ (show 7 - p % 8 < 8 by omega)]
    by_cases hqp : q = p
    · subst hqp; simp
    · have : 7 - q % 8 ≠ 7 - p % 8 := by omega
      simp [this, hqp]
  · have hqp : q ≠ p := fun e => hq (by rw [e])
    unfold Pbuf.getBit Pbuf.setBit
    rw [byteAt_setByteAt_ne hq]
    simp [hqp]

/-- A bit write touches no other byte. -/
theorem byteAt_setBit_ne {b : Pbuf} {p i : Nat} {x : Bool} (h : i ≠ p / 8) : (b.setBit p x).byteAt i = b.byteAt i :=
  byteAt_setByteAt_ne h

/-! ### Runs of bits -/

/-- Read of a bit after a run was written (R100): the run's bits, every other bit unchanged. -/
theorem getBit_setRun {b : Pbuf} (h : Memory.wf b = true) (p q : Nat) (xs : List Bool) :
    (b.setRun p xs).getBit q = if p ≤ q ∧ q < p + xs.length then xs[q - p]? else b.getBit q := by
  induction xs generalizing p b with
  | nil =>
    have : ¬ (p ≤ q ∧ q < p + ([] : List Bool).length) := by
      simp only [List.length_nil]
      omega
    rw [if_neg this]; rfl
  | cons x xs ih =>
    simp only [Pbuf.setRun]
    rw [ih (setBit_wf h), getBit_setBit h]
    by_cases h1 : q = p
    · subst h1
      simp
    · by_cases h2 : p + 1 ≤ q ∧ q < p + 1 + xs.length
      · have h3 : p ≤ q ∧ q < p + (x :: xs).length := by simp; omega
        rw [if_pos h2, if_pos h3, show q - p = (q - (p + 1)) + 1 by omega]
        rfl
      · have h3 : ¬ (p ≤ q ∧ q < p + (x :: xs).length) := by simp at h2 ⊢; omega
        rw [if_neg h2, if_neg h3, if_neg h1]

/-- A run touches only the bytes of its span (R69, R103). -/
theorem byteAt_setRun_ne {b : Pbuf} (p i : Nat) (xs : List Bool) (h : i < p / 8 ∨ p + xs.length ≤ 8 * i) :
    (b.setRun p xs).byteAt i = b.byteAt i := by
  induction xs generalizing p b with
  | nil => rfl
  | cons x xs ih =>
    simp only [Pbuf.setRun]
    simp only [List.length_cons] at h
    rw [ih (p + 1) (by omega), byteAt_setBit_ne (by omega)]

/-- Reading a run gives its bits exactly when each is defined (R101). -/
theorem getRun_ok {b : Pbuf} (p n : Nat) (xs : List Bool) :
    b.getRun p n = .ok xs ↔ xs.length = n ∧ ∀ i, i < n → b.getBit (p + i) = xs[i]? := by
  induction n generalizing p xs with
  | zero =>
    simp only [Pbuf.getRun, Except.ok.injEq]
    constructor
    · rintro rfl; simp
    · rintro ⟨h, -⟩; exact (List.length_eq_zero_iff.mp h).symm
  | succ n ih =>
    simp only [Pbuf.getRun]
    split
    · rename_i hb
      constructor
      · intro h; cases h
      · rintro ⟨hl, hi⟩
        have := hi 0 (by omega)
        rw [Nat.add_zero, hb] at this
        have hne : xs ≠ [] := by intro e; simp [e] at hl
        cases xs with
        | nil => exact absurd rfl hne
        | cons y ys => simp at this
    · rename_i x hb
      have step : ∀ ys, b.getRun (p + 1) n = .ok ys ↔ ys.length = n ∧ ∀ i, i < n → b.getBit (p + 1 + i) = ys[i]? :=
        fun ys => ih (p + 1) ys
      constructor
      · intro h
        split at h
        · cases h
        · rename_i ys hys
          cases h
          obtain ⟨hl, hi⟩ := (step ys).mp hys
          refine ⟨by simp [hl], ?_⟩
          intro i hin
          cases i with
          | zero => simpa using hb
          | succ i =>
            have := hi i (by omega)
            rw [show p + (i + 1) = p + 1 + i by omega]
            simpa using this
      · rintro ⟨hl, hi⟩
        cases xs with
        | nil => simp at hl
        | cons y ys =>
          have h0 := hi 0 (by omega)
          simp only [Nat.add_zero, List.getElem?_cons_zero] at h0
          have hxy : x = y := by rw [hb] at h0; simpa using h0
          subst hxy
          have hys : b.getRun (p + 1) n = .ok ys := (step ys).mpr ⟨by simpa using hl, by
            intro i hin
            have := hi (i + 1) (by omega)
            rw [show p + 1 + i = p + (i + 1) by omega]
            simpa using this⟩
          rw [hys]

/-- Reading a run fails only at a bit nothing has written, the first one (R47, R215). -/
theorem getRun_error {b : Pbuf} (p n : Nat) (f : Fault) (h : b.getRun p n = .error f) :
    ∃ i, i < n ∧ f = .undefinedBit (p + i) ∧ b.getBit (p + i) = none ∧ ∀ j, j < i → b.getBit (p + j) ≠ none := by
  induction n generalizing p with
  | zero => simp [Pbuf.getRun] at h
  | succ n ih =>
    simp only [Pbuf.getRun] at h
    split at h
    · rename_i hb
      cases h
      exact ⟨0, by omega, by simp, by simpa using hb, by intro j hj; omega⟩
    · rename_i x hb
      split at h
      · rename_i g hg
        cases h
        obtain ⟨i, hi, hf, hn, hj⟩ := ih (p + 1) hg
        rw [show p + 1 + i = p + (i + 1) by omega] at hf hn
        refine ⟨i + 1, by omega, hf, hn, ?_⟩
        intro j hji
        cases j with
        | zero => simp [hb]
        | succ j =>
          have := hj j (by omega)
          rwa [show p + 1 + j = p + (j + 1) by omega] at this
      · cases h

/-- A run that is wholly defined is read. -/
theorem getRun_defined {b : Pbuf} (p n : Nat) (h : ∀ i, i < n → b.getBit (p + i) ≠ none) :
    ∃ xs, b.getRun p n = .ok xs := by
  cases hr : b.getRun p n with
  | ok xs => exact ⟨xs, rfl⟩
  | error f =>
    obtain ⟨i, hi, -, hn, -⟩ := getRun_error p n f hr
    exact absurd hn (h i hi)

/-- Write, then read at the same place (R102): the bits written. -/
theorem getRun_setRun {b : Pbuf} (h : Memory.wf b = true) (p : Nat) (xs : List Bool) :
    (b.setRun p xs).getRun p xs.length = .ok xs := by
  rw [getRun_ok]
  refine ⟨rfl, ?_⟩
  intro i hi
  rw [getBit_setRun h, if_pos ⟨by omega, by omega⟩]
  congr 1
  omega

/-! ### Whole bytes as bits -/

/-- A byte is readable, with value v, exactly when its 8 bits are defined and are v's, bit 7 first (R60, R64). -/
theorem readByte_iff_bits (b : Pbuf) (i : Nat) (v : Byte) :
    b.readByte i = some v ↔ ∀ k, k < 8 → b.getBit (8 * i + k) = some (v.getLsbD (7 - k)) := by
  have hd : ∀ k, k < 8 → (8 * i + k) / 8 = i ∧ 7 - (8 * i + k) % 8 = 7 - k := by intro k hk; omega
  unfold Pbuf.readByte
  constructor
  · intro h k hk
    split at h
    · rename_i hf
      simp only [Option.some.injEq] at h
      unfold Pbuf.getBit
      rw [(hd k hk).1, (hd k hk).2, hf, h]
      have : (0xFF#8).getLsbD (7 - k) = true := by
        have : ∀ k, k < 8 → (0xFF#8).getLsbD (7 - k) = true := by decide
        exact this k hk
      simp [this]
    · cases h
  · intro h
    have hbit : ∀ j, j < 8 → (b.byteAt i).2.getLsbD j = true ∧ (b.byteAt i).1.getLsbD j = v.getLsbD j := by
      intro j hj
      have := h (7 - j) (by omega)
      unfold Pbuf.getBit at this
      rw [(hd (7 - j) (by omega)).1, (hd (7 - j) (by omega)).2, show 7 - (7 - j) = j by omega] at this
      split at this
      · rename_i hdj
        exact ⟨hdj, by simpa using this⟩
      · cases this
    have h2 : (b.byteAt i).2 = 0xFF#8 := by
      apply BitVec.eq_of_getLsbD_eq
      intro j hj
      rw [(hbit j hj).1]
      have : ∀ j, j < 8 → (0xFF#8).getLsbD j = true := by decide
      exact (this j hj).symm
    have h1 : (b.byteAt i).1 = v := BitVec.eq_of_getLsbD_eq (fun j hj => (hbit j hj).2)
    rw [if_pos h2, h1]

/-- A host write of a byte defines all its 8 bits (R64). -/
theorem readByte_writeByte_self {b : Pbuf} (h : Memory.wf b = true) (i : Nat) (v : Byte) :
    (b.writeByte i v).readByte i = some v := by
  unfold Pbuf.readByte Pbuf.writeByte
  rw [byteAt_setByteAt_self h]
  simp

/-- A host write of a byte leaves every other byte alone. -/
theorem byteAt_writeByte_ne {b : Pbuf} {i j : Nat} {v : Byte} (h : j ≠ i) : (b.writeByte i v).byteAt j = b.byteAt j :=
  byteAt_setByteAt_ne h

/-- PBUF right after reset is in canonical form. -/
theorem reset_wf (p : Config.Params) : Memory.wf (State.resetFor p).pbuf = true := rfl

/-- Reading a run stops at the first bit nothing has written (R47, R215). -/
theorem getRun_stops {b : Pbuf} (p n i : Nat) (hi : i < n) (hn : b.getBit (p + i) = none)
    (hd : ∀ j, j < i → b.getBit (p + j) ≠ none) : b.getRun p n = .error (.undefinedBit (p + i)) := by
  cases hr : b.getRun p n with
  | ok xs =>
    obtain ⟨hl, hb⟩ := (getRun_ok p n xs).mp hr
    have := hb i hi
    rw [hn, List.getElem?_eq_getElem (by omega)] at this
    cases this
  | error f =>
    obtain ⟨k, hk, rfl, hkn, hkd⟩ := getRun_error p n f hr
    have h1 : ¬ i < k := fun h => hkd i h hn
    have h2 : ¬ k < i := fun h => hd k h hkn
    rw [show k = i by omega]

end Sys2Proof.Laws
end

