-- ==== Sys2Proof/Laws/State.lean ====
section
/-! SUPPORT. For every named update of the state, what each field holds after it: all true by rfl, so that no later proof
unfolds a record update. -/

namespace Sys2Proof.Laws

open Sys2Proof.Machine Sys2Proof.Config

/-! ### `State.setPos`: the cursor moves (R28) -/
@[simp] theorem setPos_params (p : Nat) (s : State) : (s.setPos p).params = s.params := rfl
@[simp] theorem setPos_ie (p : Nat) (s : State) : (s.setPos p).ie = s.ie := rfl
@[simp] theorem setPos_busy (p : Nat) (s : State) : (s.setPos p).busy = s.busy := rfl
@[simp] theorem setPos_done (p : Nat) (s : State) : (s.setPos p).done = s.done := rfl
@[simp] theorem setPos_ovr (p : Nat) (s : State) : (s.setPos p).ovr = s.ovr := rfl
@[simp] theorem setPos_trunc (p : Nat) (s : State) : (s.setPos p).trunc = s.trunc := rfl
@[simp] theorem setPos_err (p : Nat) (s : State) : (s.setPos p).err = s.err := rfl
@[simp] theorem setPos_hstate (p : Nat) (s : State) : (s.setPos p).hstate = s.hstate := rfl
@[simp] theorem setPos_cmd (p : Nat) (s : State) : (s.setPos p).cmd = s.cmd := rfl
@[simp] theorem setPos_byteIndex (p : Nat) (s : State) : (s.setPos p).byteIndex = BitVec.ofNat 16 (p / 8) := rfl
@[simp] theorem setPos_bitOffset (p : Nat) (s : State) : (s.setPos p).bitOffset = BitVec.ofNat 3 (7 - p % 8) := rfl
@[simp] theorem setPos_data (p : Nat) (s : State) : (s.setPos p).data = s.data := rfl
@[simp] theorem setPos_argLen (p : Nat) (s : State) : (s.setPos p).argLen = s.argLen := rfl
@[simp] theorem setPos_codecParam (p : Nat) (s : State) : (s.setPos p).codecParam = s.codecParam := rfl
@[simp] theorem setPos_resLen (p : Nat) (s : State) : (s.setPos p).resLen = s.resLen := rfl
@[simp] theorem setPos_ntoc (p : Nat) (s : State) : (s.setPos p).ntoc = s.ntoc := rfl
@[simp] theorem setPos_ndec (p : Nat) (s : State) : (s.setPos p).ndec = s.ndec := rfl
@[simp] theorem setPos_resSamples (p : Nat) (s : State) : (s.setPos p).resSamples = s.resSamples := rfl
@[simp] theorem setPos_resPcmBytes (p : Nat) (s : State) : (s.setPos p).resPcmBytes = s.resPcmBytes := rfl
@[simp] theorem setPos_result (p : Nat) (s : State) : (s.setPos p).result = s.result := rfl
@[simp] theorem setPos_cmrOut (p : Nat) (s : State) : (s.setPos p).cmrOut = s.cmrOut := rfl
@[simp] theorem setPos_cmrRaw (p : Nat) (s : State) : (s.setPos p).cmrRaw = s.cmrRaw := rfl
@[simp] theorem setPos_pbuf (p : Nat) (s : State) : (s.setPos p).pbuf = s.pbuf := rfl
@[simp] theorem setPos_pcmIn (p : Nat) (s : State) : (s.setPos p).pcmIn = s.pcmIn := rfl
@[simp] theorem setPos_pcmOut (p : Nat) (s : State) : (s.setPos p).pcmOut = s.pcmOut := rfl
@[simp] theorem setPos_toc (p : Nat) (s : State) : (s.setPos p).toc = s.toc := rfl
@[simp] theorem setPos_staging (p : Nat) (s : State) : (s.setPos p).staging = s.staging := rfl
@[simp] theorem setPos_calls (p : Nat) (s : State) : (s.setPos p).calls = s.calls := rfl
@[simp] theorem setPos_faulted (p : Nat) (s : State) : (s.setPos p).faulted = s.faulted := rfl
@[simp] theorem setPos_draws (p : Nat) (s : State) : (s.setPos p).draws = s.draws := rfl
@[simp] theorem setPos_host (p : Nat) (s : State) : (s.setPos p).host = s.host := rfl
@[simp] theorem setPos_returned (p : Nat) (s : State) : (s.setPos p).returned = s.returned := rfl

/-! ### `completeWith`: completion (R206) -/
@[simp] theorem completeWith_params (e : ErrCode) (s : State) : (completeWith e s).params = s.params := rfl
@[simp] theorem completeWith_ie (e : ErrCode) (s : State) : (completeWith e s).ie = s.ie := rfl
@[simp] theorem completeWith_busy (e : ErrCode) (s : State) : (completeWith e s).busy = false := rfl
@[simp] theorem completeWith_done (e : ErrCode) (s : State) : (completeWith e s).done = true := rfl
@[simp] theorem completeWith_ovr (e : ErrCode) (s : State) : (completeWith e s).ovr = s.ovr := rfl
@[simp] theorem completeWith_trunc (e : ErrCode) (s : State) : (completeWith e s).trunc = s.trunc := rfl
@[simp] theorem completeWith_err (e : ErrCode) (s : State) : (completeWith e s).err = e := rfl
@[simp] theorem completeWith_hstate (e : ErrCode) (s : State) : (completeWith e s).hstate = s.hstate := rfl
@[simp] theorem completeWith_cmd (e : ErrCode) (s : State) : (completeWith e s).cmd = s.cmd := rfl
@[simp] theorem completeWith_byteIndex (e : ErrCode) (s : State) : (completeWith e s).byteIndex = s.byteIndex := rfl
@[simp] theorem completeWith_bitOffset (e : ErrCode) (s : State) : (completeWith e s).bitOffset = s.bitOffset := rfl
@[simp] theorem completeWith_data (e : ErrCode) (s : State) : (completeWith e s).data = s.data := rfl
@[simp] theorem completeWith_argLen (e : ErrCode) (s : State) : (completeWith e s).argLen = s.argLen := rfl
@[simp] theorem completeWith_codecParam (e : ErrCode) (s : State) : (completeWith e s).codecParam = s.codecParam := rfl
@[simp] theorem completeWith_resLen (e : ErrCode) (s : State) : (completeWith e s).resLen = s.resLen := rfl
@[simp] theorem completeWith_ntoc (e : ErrCode) (s : State) : (completeWith e s).ntoc = s.ntoc := rfl
@[simp] theorem completeWith_ndec (e : ErrCode) (s : State) : (completeWith e s).ndec = s.ndec := rfl
@[simp] theorem completeWith_resSamples (e : ErrCode) (s : State) : (completeWith e s).resSamples = s.resSamples := rfl
@[simp] theorem completeWith_resPcmBytes (e : ErrCode) (s : State) : (completeWith e s).resPcmBytes = s.resPcmBytes := rfl
@[simp] theorem completeWith_result (e : ErrCode) (s : State) : (completeWith e s).result = s.result := rfl
@[simp] theorem completeWith_cmrOut (e : ErrCode) (s : State) : (completeWith e s).cmrOut = s.cmrOut := rfl
@[simp] theorem completeWith_cmrRaw (e : ErrCode) (s : State) : (completeWith e s).cmrRaw = s.cmrRaw := rfl
@[simp] theorem completeWith_pbuf (e : ErrCode) (s : State) : (completeWith e s).pbuf = s.pbuf := rfl
@[simp] theorem completeWith_pcmIn (e : ErrCode) (s : State) : (completeWith e s).pcmIn = s.pcmIn := rfl
@[simp] theorem completeWith_pcmOut (e : ErrCode) (s : State) : (completeWith e s).pcmOut = s.pcmOut := rfl
@[simp] theorem completeWith_toc (e : ErrCode) (s : State) : (completeWith e s).toc = unspecifiedToc s := rfl
@[simp] theorem completeWith_staging (e : ErrCode) (s : State) : (completeWith e s).staging = unspecifiedStaging s := rfl
@[simp] theorem completeWith_calls (e : ErrCode) (s : State) : (completeWith e s).calls = s.calls := rfl
@[simp] theorem completeWith_faulted (e : ErrCode) (s : State) : (completeWith e s).faulted = s.faulted := rfl
@[simp] theorem completeWith_draws (e : ErrCode) (s : State) : (completeWith e s).draws = s.draws + 1 := rfl
@[simp] theorem completeWith_host (e : ErrCode) (s : State) : (completeWith e s).host = s.host := rfl
@[simp] theorem completeWith_returned (e : ErrCode) (s : State) : (completeWith e s).returned = s.returned := rfl

/-! ### `acceptCommand`: acceptance (R204) -/
@[simp] theorem acceptCommand_params (w : Word) (s : State) : (acceptCommand w s).params = s.params := rfl
@[simp] theorem acceptCommand_ie (w : Word) (s : State) : (acceptCommand w s).ie = s.ie := rfl
@[simp] theorem acceptCommand_busy (w : Word) (s : State) : (acceptCommand w s).busy = true := rfl
@[simp] theorem acceptCommand_done (w : Word) (s : State) : (acceptCommand w s).done = false := rfl
@[simp] theorem acceptCommand_ovr (w : Word) (s : State) : (acceptCommand w s).ovr = s.ovr := rfl
@[simp] theorem acceptCommand_trunc (w : Word) (s : State) : (acceptCommand w s).trunc = false := rfl
@[simp] theorem acceptCommand_err (w : Word) (s : State) : (acceptCommand w s).err = .none := rfl
@[simp] theorem acceptCommand_hstate (w : Word) (s : State) : (acceptCommand w s).hstate = s.hstate := rfl
@[simp] theorem acceptCommand_cmd (w : Word) (s : State) : (acceptCommand w s).cmd = w := rfl
@[simp] theorem acceptCommand_byteIndex (w : Word) (s : State) : (acceptCommand w s).byteIndex = s.byteIndex := rfl
@[simp] theorem acceptCommand_bitOffset (w : Word) (s : State) : (acceptCommand w s).bitOffset = s.bitOffset := rfl
@[simp] theorem acceptCommand_data (w : Word) (s : State) : (acceptCommand w s).data = s.data := rfl
@[simp] theorem acceptCommand_argLen (w : Word) (s : State) : (acceptCommand w s).argLen = s.argLen := rfl
@[simp] theorem acceptCommand_codecParam (w : Word) (s : State) : (acceptCommand w s).codecParam = s.codecParam := rfl
@[simp] theorem acceptCommand_resLen (w : Word) (s : State) : (acceptCommand w s).resLen = s.resLen := rfl
@[simp] theorem acceptCommand_ntoc (w : Word) (s : State) : (acceptCommand w s).ntoc = s.ntoc := rfl
@[simp] theorem acceptCommand_ndec (w : Word) (s : State) : (acceptCommand w s).ndec = s.ndec := rfl
@[simp] theorem acceptCommand_resSamples (w : Word) (s : State) : (acceptCommand w s).resSamples = s.resSamples := rfl
@[simp] theorem acceptCommand_resPcmBytes (w : Word) (s : State) : (acceptCommand w s).resPcmBytes = s.resPcmBytes := rfl
@[simp] theorem acceptCommand_result (w : Word) (s : State) : (acceptCommand w s).result = s.result := rfl
@[simp] theorem acceptCommand_cmrOut (w : Word) (s : State) : (acceptCommand w s).cmrOut = s.cmrOut := rfl
@[simp] theorem acceptCommand_cmrRaw (w : Word) (s : State) : (acceptCommand w s).cmrRaw = s.cmrRaw := rfl
@[simp] theorem acceptCommand_pbuf (w : Word) (s : State) : (acceptCommand w s).pbuf = s.pbuf := rfl
@[simp] theorem acceptCommand_pcmIn (w : Word) (s : State) : (acceptCommand w s).pcmIn = s.pcmIn := rfl
@[simp] theorem acceptCommand_pcmOut (w : Word) (s : State) : (acceptCommand w s).pcmOut = s.pcmOut := rfl
@[simp] theorem acceptCommand_toc (w : Word) (s : State) : (acceptCommand w s).toc = s.toc := rfl
@[simp] theorem acceptCommand_staging (w : Word) (s : State) : (acceptCommand w s).staging = s.staging := rfl
@[simp] theorem acceptCommand_calls (w : Word) (s : State) : (acceptCommand w s).calls = s.calls := rfl
@[simp] theorem acceptCommand_faulted (w : Word) (s : State) : (acceptCommand w s).faulted = s.faulted := rfl
@[simp] theorem acceptCommand_draws (w : Word) (s : State) : (acceptCommand w s).draws = s.draws := rfl
@[simp] theorem acceptCommand_host (w : Word) (s : State) : (acceptCommand w s).host = s.host := rfl
@[simp] theorem acceptCommand_returned (w : Word) (s : State) : (acceptCommand w s).returned = s.returned := rfl

/-! ### `writeBits`: a run of bits is written (R100) -/
@[simp] theorem writeBits_params (bits : List Bool) (n : Nat) (s : State) : (writeBits bits n s).params = s.params := rfl
@[simp] theorem writeBits_ie (bits : List Bool) (n : Nat) (s : State) : (writeBits bits n s).ie = s.ie := rfl
@[simp] theorem writeBits_busy (bits : List Bool) (n : Nat) (s : State) : (writeBits bits n s).busy = s.busy := rfl
@[simp] theorem writeBits_done (bits : List Bool) (n : Nat) (s : State) : (writeBits bits n s).done = s.done := rfl
@[simp] theorem writeBits_ovr (bits : List Bool) (n : Nat) (s : State) : (writeBits bits n s).ovr = s.ovr := rfl
@[simp] theorem writeBits_trunc (bits : List Bool) (n : Nat) (s : State) : (writeBits bits n s).trunc = s.trunc := rfl
@[simp] theorem writeBits_err (bits : List Bool) (n : Nat) (s : State) : (writeBits bits n s).err = s.err := rfl
@[simp] theorem writeBits_hstate (bits : List Bool) (n : Nat) (s : State) : (writeBits bits n s).hstate = s.hstate := rfl
@[simp] theorem writeBits_cmd (bits : List Bool) (n : Nat) (s : State) : (writeBits bits n s).cmd = s.cmd := rfl
@[simp] theorem writeBits_byteIndex (bits : List Bool) (n : Nat) (s : State) : (writeBits bits n s).byteIndex = BitVec.ofNat 16 ((s.pos + n) / 8) := rfl
@[simp] theorem writeBits_bitOffset (bits : List Bool) (n : Nat) (s : State) : (writeBits bits n s).bitOffset = BitVec.ofNat 3 (7 - (s.pos + n) % 8) := rfl
@[simp] theorem writeBits_data (bits : List Bool) (n : Nat) (s : State) : (writeBits bits n s).data = s.data := rfl
@[simp] theorem writeBits_argLen (bits : List Bool) (n : Nat) (s : State) : (writeBits bits n s).argLen = s.argLen := rfl
@[simp] theorem writeBits_codecParam (bits : List Bool) (n : Nat) (s : State) : (writeBits bits n s).codecParam = s.codecParam := rfl
@[simp] theorem writeBits_resLen (bits : List Bool) (n : Nat) (s : State) : (writeBits bits n s).resLen = s.resLen := rfl
@[simp] theorem writeBits_ntoc (bits : List Bool) (n : Nat) (s : State) : (writeBits bits n s).ntoc = s.ntoc := rfl
@[simp] theorem writeBits_ndec (bits : List Bool) (n : Nat) (s : State) : (writeBits bits n s).ndec = s.ndec := rfl
@[simp] theorem writeBits_resSamples (bits : List Bool) (n : Nat) (s : State) : (writeBits bits n s).resSamples = s.resSamples := rfl
@[simp] theorem writeBits_resPcmBytes (bits : List Bool) (n : Nat) (s : State) : (writeBits bits n s).resPcmBytes = s.resPcmBytes := rfl
@[simp] theorem writeBits_result (bits : List Bool) (n : Nat) (s : State) : (writeBits bits n s).result = s.result := rfl
@[simp] theorem writeBits_cmrOut (bits : List Bool) (n : Nat) (s : State) : (writeBits bits n s).cmrOut = s.cmrOut := rfl
@[simp] theorem writeBits_cmrRaw (bits : List Bool) (n : Nat) (s : State) : (writeBits bits n s).cmrRaw = s.cmrRaw := rfl
@[simp] theorem writeBits_pbuf (bits : List Bool) (n : Nat) (s : State) : (writeBits bits n s).pbuf = s.pbuf.setRun s.pos (bits.take n) := rfl
@[simp] theorem writeBits_pcmIn (bits : List Bool) (n : Nat) (s : State) : (writeBits bits n s).pcmIn = s.pcmIn := rfl
@[simp] theorem writeBits_pcmOut (bits : List Bool) (n : Nat) (s : State) : (writeBits bits n s).pcmOut = s.pcmOut := rfl
@[simp] theorem writeBits_toc (bits : List Bool) (n : Nat) (s : State) : (writeBits bits n s).toc = s.toc := rfl
@[simp] theorem writeBits_staging (bits : List Bool) (n : Nat) (s : State) : (writeBits bits n s).staging = s.staging := rfl
@[simp] theorem writeBits_calls (bits : List Bool) (n : Nat) (s : State) : (writeBits bits n s).calls = s.calls := rfl
@[simp] theorem writeBits_faulted (bits : List Bool) (n : Nat) (s : State) : (writeBits bits n s).faulted = s.faulted := rfl
@[simp] theorem writeBits_draws (bits : List Bool) (n : Nat) (s : State) : (writeBits bits n s).draws = s.draws := rfl
@[simp] theorem writeBits_host (bits : List Bool) (n : Nat) (s : State) : (writeBits bits n s).host = s.host := rfl
@[simp] theorem writeBits_returned (bits : List Bool) (n : Nat) (s : State) : (writeBits bits n s).returned = s.returned := rfl

/-! ### `writePcmOut`: an output slot is written (R167) -/
@[simp] theorem writePcmOut_params (k : Nat) (x : PcmFrame) (s : State) : (writePcmOut k x s).params = s.params := rfl
@[simp] theorem writePcmOut_ie (k : Nat) (x : PcmFrame) (s : State) : (writePcmOut k x s).ie = s.ie := rfl
@[simp] theorem writePcmOut_busy (k : Nat) (x : PcmFrame) (s : State) : (writePcmOut k x s).busy = s.busy := rfl
@[simp] theorem writePcmOut_done (k : Nat) (x : PcmFrame) (s : State) : (writePcmOut k x s).done = s.done := rfl
@[simp] theorem writePcmOut_ovr (k : Nat) (x : PcmFrame) (s : State) : (writePcmOut k x s).ovr = s.ovr := rfl
@[simp] theorem writePcmOut_trunc (k : Nat) (x : PcmFrame) (s : State) : (writePcmOut k x s).trunc = s.trunc := rfl
@[simp] theorem writePcmOut_err (k : Nat) (x : PcmFrame) (s : State) : (writePcmOut k x s).err = s.err := rfl
@[simp] theorem writePcmOut_hstate (k : Nat) (x : PcmFrame) (s : State) : (writePcmOut k x s).hstate = s.hstate := rfl
@[simp] theorem writePcmOut_cmd (k : Nat) (x : PcmFrame) (s : State) : (writePcmOut k x s).cmd = s.cmd := rfl
@[simp] theorem writePcmOut_byteIndex (k : Nat) (x : PcmFrame) (s : State) : (writePcmOut k x s).byteIndex = s.byteIndex := rfl
@[simp] theorem writePcmOut_bitOffset (k : Nat) (x : PcmFrame) (s : State) : (writePcmOut k x s).bitOffset = s.bitOffset := rfl
@[simp] theorem writePcmOut_data (k : Nat) (x : PcmFrame) (s : State) : (writePcmOut k x s).data = s.data := rfl
@[simp] theorem writePcmOut_argLen (k : Nat) (x : PcmFrame) (s : State) : (writePcmOut k x s).argLen = s.argLen := rfl
@[simp] theorem writePcmOut_codecParam (k : Nat) (x : PcmFrame) (s : State) : (writePcmOut k x s).codecParam = s.codecParam := rfl
@[simp] theorem writePcmOut_resLen (k : Nat) (x : PcmFrame) (s : State) : (writePcmOut k x s).resLen = s.resLen := rfl
@[simp] theorem writePcmOut_ntoc (k : Nat) (x : PcmFrame) (s : State) : (writePcmOut k x s).ntoc = s.ntoc := rfl
@[simp] theorem writePcmOut_ndec (k : Nat) (x : PcmFrame) (s : State) : (writePcmOut k x s).ndec = s.ndec := rfl
@[simp] theorem writePcmOut_resSamples (k : Nat) (x : PcmFrame) (s : State) : (writePcmOut k x s).resSamples = s.resSamples := rfl
@[simp] theorem writePcmOut_resPcmBytes (k : Nat) (x : PcmFrame) (s : State) : (writePcmOut k x s).resPcmBytes = s.resPcmBytes := rfl
@[simp] theorem writePcmOut_result (k : Nat) (x : PcmFrame) (s : State) : (writePcmOut k x s).result = s.result := rfl
@[simp] theorem writePcmOut_cmrOut (k : Nat) (x : PcmFrame) (s : State) : (writePcmOut k x s).cmrOut = s.cmrOut := rfl
@[simp] theorem writePcmOut_cmrRaw (k : Nat) (x : PcmFrame) (s : State) : (writePcmOut k x s).cmrRaw = s.cmrRaw := rfl
@[simp] theorem writePcmOut_pbuf (k : Nat) (x : PcmFrame) (s : State) : (writePcmOut k x s).pbuf = s.pbuf := rfl
@[simp] theorem writePcmOut_pcmIn (k : Nat) (x : PcmFrame) (s : State) : (writePcmOut k x s).pcmIn = s.pcmIn := rfl
@[simp] theorem writePcmOut_pcmOut (k : Nat) (x : PcmFrame) (s : State) : (writePcmOut k x s).pcmOut = s.pcmOut.set k (some x) := rfl
@[simp] theorem writePcmOut_toc (k : Nat) (x : PcmFrame) (s : State) : (writePcmOut k x s).toc = s.toc := rfl
@[simp] theorem writePcmOut_staging (k : Nat) (x : PcmFrame) (s : State) : (writePcmOut k x s).staging = s.staging := rfl
@[simp] theorem writePcmOut_calls (k : Nat) (x : PcmFrame) (s : State) : (writePcmOut k x s).calls = s.calls := rfl
@[simp] theorem writePcmOut_faulted (k : Nat) (x : PcmFrame) (s : State) : (writePcmOut k x s).faulted = s.faulted := rfl
@[simp] theorem writePcmOut_draws (k : Nat) (x : PcmFrame) (s : State) : (writePcmOut k x s).draws = s.draws := rfl
@[simp] theorem writePcmOut_host (k : Nat) (x : PcmFrame) (s : State) : (writePcmOut k x s).host = s.host := rfl
@[simp] theorem writePcmOut_returned (k : Nat) (x : PcmFrame) (s : State) : (writePcmOut k x s).returned = s.returned := rfl

/-! ### `recordCall`: a codec call is made (R42) -/
@[simp] theorem recordCall_params (c : CodecCall) (s : State) : (recordCall c s).params = s.params := rfl
@[simp] theorem recordCall_ie (c : CodecCall) (s : State) : (recordCall c s).ie = s.ie := rfl
@[simp] theorem recordCall_busy (c : CodecCall) (s : State) : (recordCall c s).busy = s.busy := rfl
@[simp] theorem recordCall_done (c : CodecCall) (s : State) : (recordCall c s).done = s.done := rfl
@[simp] theorem recordCall_ovr (c : CodecCall) (s : State) : (recordCall c s).ovr = s.ovr := rfl
@[simp] theorem recordCall_trunc (c : CodecCall) (s : State) : (recordCall c s).trunc = s.trunc := rfl
@[simp] theorem recordCall_err (c : CodecCall) (s : State) : (recordCall c s).err = s.err := rfl
@[simp] theorem recordCall_hstate (c : CodecCall) (s : State) : (recordCall c s).hstate = s.hstate := rfl
@[simp] theorem recordCall_cmd (c : CodecCall) (s : State) : (recordCall c s).cmd = s.cmd := rfl
@[simp] theorem recordCall_byteIndex (c : CodecCall) (s : State) : (recordCall c s).byteIndex = s.byteIndex := rfl
@[simp] theorem recordCall_bitOffset (c : CodecCall) (s : State) : (recordCall c s).bitOffset = s.bitOffset := rfl
@[simp] theorem recordCall_data (c : CodecCall) (s : State) : (recordCall c s).data = s.data := rfl
@[simp] theorem recordCall_argLen (c : CodecCall) (s : State) : (recordCall c s).argLen = s.argLen := rfl
@[simp] theorem recordCall_codecParam (c : CodecCall) (s : State) : (recordCall c s).codecParam = s.codecParam := rfl
@[simp] theorem recordCall_resLen (c : CodecCall) (s : State) : (recordCall c s).resLen = s.resLen := rfl
@[simp] theorem recordCall_ntoc (c : CodecCall) (s : State) : (recordCall c s).ntoc = s.ntoc := rfl
@[simp] theorem recordCall_ndec (c : CodecCall) (s : State) : (recordCall c s).ndec = s.ndec := rfl
@[simp] theorem recordCall_resSamples (c : CodecCall) (s : State) : (recordCall c s).resSamples = s.resSamples := rfl
@[simp] theorem recordCall_resPcmBytes (c : CodecCall) (s : State) : (recordCall c s).resPcmBytes = s.resPcmBytes := rfl
@[simp] theorem recordCall_result (c : CodecCall) (s : State) : (recordCall c s).result = s.result := rfl
@[simp] theorem recordCall_cmrOut (c : CodecCall) (s : State) : (recordCall c s).cmrOut = s.cmrOut := rfl
@[simp] theorem recordCall_cmrRaw (c : CodecCall) (s : State) : (recordCall c s).cmrRaw = s.cmrRaw := rfl
@[simp] theorem recordCall_pbuf (c : CodecCall) (s : State) : (recordCall c s).pbuf = s.pbuf := rfl
@[simp] theorem recordCall_pcmIn (c : CodecCall) (s : State) : (recordCall c s).pcmIn = s.pcmIn := rfl
@[simp] theorem recordCall_pcmOut (c : CodecCall) (s : State) : (recordCall c s).pcmOut = s.pcmOut := rfl
@[simp] theorem recordCall_toc (c : CodecCall) (s : State) : (recordCall c s).toc = s.toc := rfl
@[simp] theorem recordCall_staging (c : CodecCall) (s : State) : (recordCall c s).staging = s.staging := rfl
@[simp] theorem recordCall_calls (c : CodecCall) (s : State) : (recordCall c s).calls = s.calls ++ [c] := rfl
@[simp] theorem recordCall_faulted (c : CodecCall) (s : State) : (recordCall c s).faulted = s.faulted := rfl
@[simp] theorem recordCall_draws (c : CodecCall) (s : State) : (recordCall c s).draws = s.draws + 1 := rfl
@[simp] theorem recordCall_host (c : CodecCall) (s : State) : (recordCall c s).host = s.host := rfl
@[simp] theorem recordCall_returned (c : CodecCall) (s : State) : (recordCall c s).returned = s.returned := rfl

/-! ### `stageReply`: a codec result is staged (R143) -/
@[simp] theorem stageReply_params (r : EncodeReply) (s : State) : (stageReply r s).params = s.params := rfl
@[simp] theorem stageReply_ie (r : EncodeReply) (s : State) : (stageReply r s).ie = s.ie := rfl
@[simp] theorem stageReply_busy (r : EncodeReply) (s : State) : (stageReply r s).busy = s.busy := rfl
@[simp] theorem stageReply_done (r : EncodeReply) (s : State) : (stageReply r s).done = s.done := rfl
@[simp] theorem stageReply_ovr (r : EncodeReply) (s : State) : (stageReply r s).ovr = s.ovr := rfl
@[simp] theorem stageReply_trunc (r : EncodeReply) (s : State) : (stageReply r s).trunc = s.trunc := rfl
@[simp] theorem stageReply_err (r : EncodeReply) (s : State) : (stageReply r s).err = s.err := rfl
@[simp] theorem stageReply_hstate (r : EncodeReply) (s : State) : (stageReply r s).hstate = s.hstate := rfl
@[simp] theorem stageReply_cmd (r : EncodeReply) (s : State) : (stageReply r s).cmd = s.cmd := rfl
@[simp] theorem stageReply_byteIndex (r : EncodeReply) (s : State) : (stageReply r s).byteIndex = s.byteIndex := rfl
@[simp] theorem stageReply_bitOffset (r : EncodeReply) (s : State) : (stageReply r s).bitOffset = s.bitOffset := rfl
@[simp] theorem stageReply_data (r : EncodeReply) (s : State) : (stageReply r s).data = s.data := rfl
@[simp] theorem stageReply_argLen (r : EncodeReply) (s : State) : (stageReply r s).argLen = s.argLen := rfl
@[simp] theorem stageReply_codecParam (r : EncodeReply) (s : State) : (stageReply r s).codecParam = s.codecParam := rfl
@[simp] theorem stageReply_resLen (r : EncodeReply) (s : State) : (stageReply r s).resLen = s.resLen := rfl
@[simp] theorem stageReply_ntoc (r : EncodeReply) (s : State) : (stageReply r s).ntoc = s.ntoc := rfl
@[simp] theorem stageReply_ndec (r : EncodeReply) (s : State) : (stageReply r s).ndec = s.ndec := rfl
@[simp] theorem stageReply_resSamples (r : EncodeReply) (s : State) : (stageReply r s).resSamples = s.resSamples := rfl
@[simp] theorem stageReply_resPcmBytes (r : EncodeReply) (s : State) : (stageReply r s).resPcmBytes = s.resPcmBytes := rfl
@[simp] theorem stageReply_result (r : EncodeReply) (s : State) : (stageReply r s).result = s.result := rfl
@[simp] theorem stageReply_cmrOut (r : EncodeReply) (s : State) : (stageReply r s).cmrOut = s.cmrOut := rfl
@[simp] theorem stageReply_cmrRaw (r : EncodeReply) (s : State) : (stageReply r s).cmrRaw = s.cmrRaw := rfl
@[simp] theorem stageReply_pbuf (r : EncodeReply) (s : State) : (stageReply r s).pbuf = s.pbuf := rfl
@[simp] theorem stageReply_pcmIn (r : EncodeReply) (s : State) : (stageReply r s).pcmIn = s.pcmIn := rfl
@[simp] theorem stageReply_pcmOut (r : EncodeReply) (s : State) : (stageReply r s).pcmOut = s.pcmOut := rfl
@[simp] theorem stageReply_toc (r : EncodeReply) (s : State) : (stageReply r s).toc = s.toc := rfl
@[simp] theorem stageReply_staging (r : EncodeReply) (s : State) : (stageReply r s).staging = s.staging ++ [r] := rfl
@[simp] theorem stageReply_calls (r : EncodeReply) (s : State) : (stageReply r s).calls = s.calls := rfl
@[simp] theorem stageReply_faulted (r : EncodeReply) (s : State) : (stageReply r s).faulted = s.faulted := rfl
@[simp] theorem stageReply_draws (r : EncodeReply) (s : State) : (stageReply r s).draws = s.draws := rfl
@[simp] theorem stageReply_host (r : EncodeReply) (s : State) : (stageReply r s).host = s.host := rfl
@[simp] theorem stageReply_returned (r : EncodeReply) (s : State) : (stageReply r s).returned = s.returned := rfl

/-! ### `appendToc`: a TOC entry is parsed (R163) -/
@[simp] theorem appendToc_params (e : TocEntry) (s : State) : (appendToc e s).params = s.params := rfl
@[simp] theorem appendToc_ie (e : TocEntry) (s : State) : (appendToc e s).ie = s.ie := rfl
@[simp] theorem appendToc_busy (e : TocEntry) (s : State) : (appendToc e s).busy = s.busy := rfl
@[simp] theorem appendToc_done (e : TocEntry) (s : State) : (appendToc e s).done = s.done := rfl
@[simp] theorem appendToc_ovr (e : TocEntry) (s : State) : (appendToc e s).ovr = s.ovr := rfl
@[simp] theorem appendToc_trunc (e : TocEntry) (s : State) : (appendToc e s).trunc = s.trunc := rfl
@[simp] theorem appendToc_err (e : TocEntry) (s : State) : (appendToc e s).err = s.err := rfl
@[simp] theorem appendToc_hstate (e : TocEntry) (s : State) : (appendToc e s).hstate = s.hstate := rfl
@[simp] theorem appendToc_cmd (e : TocEntry) (s : State) : (appendToc e s).cmd = s.cmd := rfl
@[simp] theorem appendToc_byteIndex (e : TocEntry) (s : State) : (appendToc e s).byteIndex = s.byteIndex := rfl
@[simp] theorem appendToc_bitOffset (e : TocEntry) (s : State) : (appendToc e s).bitOffset = s.bitOffset := rfl
@[simp] theorem appendToc_data (e : TocEntry) (s : State) : (appendToc e s).data = s.data := rfl
@[simp] theorem appendToc_argLen (e : TocEntry) (s : State) : (appendToc e s).argLen = s.argLen := rfl
@[simp] theorem appendToc_codecParam (e : TocEntry) (s : State) : (appendToc e s).codecParam = s.codecParam := rfl
@[simp] theorem appendToc_resLen (e : TocEntry) (s : State) : (appendToc e s).resLen = s.resLen := rfl
@[simp] theorem appendToc_ntoc (e : TocEntry) (s : State) : (appendToc e s).ntoc = s.ntoc := rfl
@[simp] theorem appendToc_ndec (e : TocEntry) (s : State) : (appendToc e s).ndec = s.ndec := rfl
@[simp] theorem appendToc_resSamples (e : TocEntry) (s : State) : (appendToc e s).resSamples = s.resSamples := rfl
@[simp] theorem appendToc_resPcmBytes (e : TocEntry) (s : State) : (appendToc e s).resPcmBytes = s.resPcmBytes := rfl
@[simp] theorem appendToc_result (e : TocEntry) (s : State) : (appendToc e s).result = s.result := rfl
@[simp] theorem appendToc_cmrOut (e : TocEntry) (s : State) : (appendToc e s).cmrOut = s.cmrOut := rfl
@[simp] theorem appendToc_cmrRaw (e : TocEntry) (s : State) : (appendToc e s).cmrRaw = s.cmrRaw := rfl
@[simp] theorem appendToc_pbuf (e : TocEntry) (s : State) : (appendToc e s).pbuf = s.pbuf := rfl
@[simp] theorem appendToc_pcmIn (e : TocEntry) (s : State) : (appendToc e s).pcmIn = s.pcmIn := rfl
@[simp] theorem appendToc_pcmOut (e : TocEntry) (s : State) : (appendToc e s).pcmOut = s.pcmOut := rfl
@[simp] theorem appendToc_toc (e : TocEntry) (s : State) : (appendToc e s).toc = s.toc ++ [e] := rfl
@[simp] theorem appendToc_staging (e : TocEntry) (s : State) : (appendToc e s).staging = s.staging := rfl
@[simp] theorem appendToc_calls (e : TocEntry) (s : State) : (appendToc e s).calls = s.calls := rfl
@[simp] theorem appendToc_faulted (e : TocEntry) (s : State) : (appendToc e s).faulted = s.faulted := rfl
@[simp] theorem appendToc_draws (e : TocEntry) (s : State) : (appendToc e s).draws = s.draws := rfl
@[simp] theorem appendToc_host (e : TocEntry) (s : State) : (appendToc e s).host = s.host := rfl
@[simp] theorem appendToc_returned (e : TocEntry) (s : State) : (appendToc e s).returned = s.returned := rfl

/-! ### `unpackResults`: UNPACK's results (R169) -/
@[simp] theorem unpackResults_params (nd : Nat) (s : State) : (unpackResults nd s).params = s.params := rfl
@[simp] theorem unpackResults_ie (nd : Nat) (s : State) : (unpackResults nd s).ie = s.ie := rfl
@[simp] theorem unpackResults_busy (nd : Nat) (s : State) : (unpackResults nd s).busy = s.busy := rfl
@[simp] theorem unpackResults_done (nd : Nat) (s : State) : (unpackResults nd s).done = s.done := rfl
@[simp] theorem unpackResults_ovr (nd : Nat) (s : State) : (unpackResults nd s).ovr = s.ovr := rfl
@[simp] theorem unpackResults_trunc (nd : Nat) (s : State) : (unpackResults nd s).trunc = s.trunc := rfl
@[simp] theorem unpackResults_err (nd : Nat) (s : State) : (unpackResults nd s).err = s.err := rfl
@[simp] theorem unpackResults_hstate (nd : Nat) (s : State) : (unpackResults nd s).hstate = s.hstate := rfl
@[simp] theorem unpackResults_cmd (nd : Nat) (s : State) : (unpackResults nd s).cmd = s.cmd := rfl
@[simp] theorem unpackResults_byteIndex (nd : Nat) (s : State) : (unpackResults nd s).byteIndex = s.byteIndex := rfl
@[simp] theorem unpackResults_bitOffset (nd : Nat) (s : State) : (unpackResults nd s).bitOffset = s.bitOffset := rfl
@[simp] theorem unpackResults_data (nd : Nat) (s : State) : (unpackResults nd s).data = s.data := rfl
@[simp] theorem unpackResults_argLen (nd : Nat) (s : State) : (unpackResults nd s).argLen = s.argLen := rfl
@[simp] theorem unpackResults_codecParam (nd : Nat) (s : State) : (unpackResults nd s).codecParam = s.codecParam := rfl
@[simp] theorem unpackResults_resLen (nd : Nat) (s : State) : (unpackResults nd s).resLen = BitVec.ofNat 16 (s.pos / 8) := rfl
@[simp] theorem unpackResults_ntoc (nd : Nat) (s : State) : (unpackResults nd s).ntoc = BitVec.ofNat 16 s.toc.length := rfl
@[simp] theorem unpackResults_ndec (nd : Nat) (s : State) : (unpackResults nd s).ndec = BitVec.ofNat 16 nd := rfl
@[simp] theorem unpackResults_resSamples (nd : Nat) (s : State) : (unpackResults nd s).resSamples = BitVec.ofNat 32 (160 * nd) := rfl
@[simp] theorem unpackResults_resPcmBytes (nd : Nat) (s : State) : (unpackResults nd s).resPcmBytes = BitVec.ofNat 32 (160 * s.params.pcmSampleBytes * nd) := rfl
@[simp] theorem unpackResults_result (nd : Nat) (s : State) : (unpackResults nd s).result = s.result := rfl
@[simp] theorem unpackResults_cmrOut (nd : Nat) (s : State) : (unpackResults nd s).cmrOut = s.cmrOut := rfl
@[simp] theorem unpackResults_cmrRaw (nd : Nat) (s : State) : (unpackResults nd s).cmrRaw = s.cmrRaw := rfl
@[simp] theorem unpackResults_pbuf (nd : Nat) (s : State) : (unpackResults nd s).pbuf = s.pbuf := rfl
@[simp] theorem unpackResults_pcmIn (nd : Nat) (s : State) : (unpackResults nd s).pcmIn = s.pcmIn := rfl
@[simp] theorem unpackResults_pcmOut (nd : Nat) (s : State) : (unpackResults nd s).pcmOut = s.pcmOut := rfl
@[simp] theorem unpackResults_toc (nd : Nat) (s : State) : (unpackResults nd s).toc = s.toc := rfl
@[simp] theorem unpackResults_staging (nd : Nat) (s : State) : (unpackResults nd s).staging = s.staging := rfl
@[simp] theorem unpackResults_calls (nd : Nat) (s : State) : (unpackResults nd s).calls = s.calls := rfl
@[simp] theorem unpackResults_faulted (nd : Nat) (s : State) : (unpackResults nd s).faulted = s.faulted := rfl
@[simp] theorem unpackResults_draws (nd : Nat) (s : State) : (unpackResults nd s).draws = s.draws := rfl
@[simp] theorem unpackResults_host (nd : Nat) (s : State) : (unpackResults nd s).host = s.host := rfl
@[simp] theorem unpackResults_returned (nd : Nat) (s : State) : (unpackResults nd s).returned = s.returned := rfl

/-! ### `zeroResults`: UNPACK's results cleared (R161) -/
@[simp] theorem zeroResults_params (s : State) : (zeroResults s).params = s.params := rfl
@[simp] theorem zeroResults_ie (s : State) : (zeroResults s).ie = s.ie := rfl
@[simp] theorem zeroResults_busy (s : State) : (zeroResults s).busy = s.busy := rfl
@[simp] theorem zeroResults_done (s : State) : (zeroResults s).done = s.done := rfl
@[simp] theorem zeroResults_ovr (s : State) : (zeroResults s).ovr = s.ovr := rfl
@[simp] theorem zeroResults_trunc (s : State) : (zeroResults s).trunc = s.trunc := rfl
@[simp] theorem zeroResults_err (s : State) : (zeroResults s).err = s.err := rfl
@[simp] theorem zeroResults_hstate (s : State) : (zeroResults s).hstate = s.hstate := rfl
@[simp] theorem zeroResults_cmd (s : State) : (zeroResults s).cmd = s.cmd := rfl
@[simp] theorem zeroResults_byteIndex (s : State) : (zeroResults s).byteIndex = s.byteIndex := rfl
@[simp] theorem zeroResults_bitOffset (s : State) : (zeroResults s).bitOffset = s.bitOffset := rfl
@[simp] theorem zeroResults_data (s : State) : (zeroResults s).data = s.data := rfl
@[simp] theorem zeroResults_argLen (s : State) : (zeroResults s).argLen = s.argLen := rfl
@[simp] theorem zeroResults_codecParam (s : State) : (zeroResults s).codecParam = s.codecParam := rfl
@[simp] theorem zeroResults_resLen (s : State) : (zeroResults s).resLen = 0#16 := rfl
@[simp] theorem zeroResults_ntoc (s : State) : (zeroResults s).ntoc = 0#16 := rfl
@[simp] theorem zeroResults_ndec (s : State) : (zeroResults s).ndec = 0#16 := rfl
@[simp] theorem zeroResults_resSamples (s : State) : (zeroResults s).resSamples = 0#32 := rfl
@[simp] theorem zeroResults_resPcmBytes (s : State) : (zeroResults s).resPcmBytes = 0#32 := rfl
@[simp] theorem zeroResults_result (s : State) : (zeroResults s).result = s.result := rfl
@[simp] theorem zeroResults_cmrOut (s : State) : (zeroResults s).cmrOut = s.cmrOut := rfl
@[simp] theorem zeroResults_cmrRaw (s : State) : (zeroResults s).cmrRaw = s.cmrRaw := rfl
@[simp] theorem zeroResults_pbuf (s : State) : (zeroResults s).pbuf = s.pbuf := rfl
@[simp] theorem zeroResults_pcmIn (s : State) : (zeroResults s).pcmIn = s.pcmIn := rfl
@[simp] theorem zeroResults_pcmOut (s : State) : (zeroResults s).pcmOut = s.pcmOut := rfl
@[simp] theorem zeroResults_toc (s : State) : (zeroResults s).toc = s.toc := rfl
@[simp] theorem zeroResults_staging (s : State) : (zeroResults s).staging = s.staging := rfl
@[simp] theorem zeroResults_calls (s : State) : (zeroResults s).calls = s.calls := rfl
@[simp] theorem zeroResults_faulted (s : State) : (zeroResults s).faulted = s.faulted := rfl
@[simp] theorem zeroResults_draws (s : State) : (zeroResults s).draws = s.draws := rfl
@[simp] theorem zeroResults_host (s : State) : (zeroResults s).host = s.host := rfl
@[simp] theorem zeroResults_returned (s : State) : (zeroResults s).returned = s.returned := rfl

/-! ### `recordCmr`: CMR_OUT is written (R162) -/
@[simp] theorem recordCmr_params (b : Byte) (s : State) : (recordCmr b s).params = s.params := rfl
@[simp] theorem recordCmr_ie (b : Byte) (s : State) : (recordCmr b s).ie = s.ie := rfl
@[simp] theorem recordCmr_busy (b : Byte) (s : State) : (recordCmr b s).busy = s.busy := rfl
@[simp] theorem recordCmr_done (b : Byte) (s : State) : (recordCmr b s).done = s.done := rfl
@[simp] theorem recordCmr_ovr (b : Byte) (s : State) : (recordCmr b s).ovr = s.ovr := rfl
@[simp] theorem recordCmr_trunc (b : Byte) (s : State) : (recordCmr b s).trunc = s.trunc := rfl
@[simp] theorem recordCmr_err (b : Byte) (s : State) : (recordCmr b s).err = s.err := rfl
@[simp] theorem recordCmr_hstate (b : Byte) (s : State) : (recordCmr b s).hstate = s.hstate := rfl
@[simp] theorem recordCmr_cmd (b : Byte) (s : State) : (recordCmr b s).cmd = s.cmd := rfl
@[simp] theorem recordCmr_byteIndex (b : Byte) (s : State) : (recordCmr b s).byteIndex = s.byteIndex := rfl
@[simp] theorem recordCmr_bitOffset (b : Byte) (s : State) : (recordCmr b s).bitOffset = s.bitOffset := rfl
@[simp] theorem recordCmr_data (b : Byte) (s : State) : (recordCmr b s).data = s.data := rfl
@[simp] theorem recordCmr_argLen (b : Byte) (s : State) : (recordCmr b s).argLen = s.argLen := rfl
@[simp] theorem recordCmr_codecParam (b : Byte) (s : State) : (recordCmr b s).codecParam = s.codecParam := rfl
@[simp] theorem recordCmr_resLen (b : Byte) (s : State) : (recordCmr b s).resLen = s.resLen := rfl
@[simp] theorem recordCmr_ntoc (b : Byte) (s : State) : (recordCmr b s).ntoc = s.ntoc := rfl
@[simp] theorem recordCmr_ndec (b : Byte) (s : State) : (recordCmr b s).ndec = s.ndec := rfl
@[simp] theorem recordCmr_resSamples (b : Byte) (s : State) : (recordCmr b s).resSamples = s.resSamples := rfl
@[simp] theorem recordCmr_resPcmBytes (b : Byte) (s : State) : (recordCmr b s).resPcmBytes = s.resPcmBytes := rfl
@[simp] theorem recordCmr_result (b : Byte) (s : State) : (recordCmr b s).result = s.result := rfl
@[simp] theorem recordCmr_cmrOut (b : Byte) (s : State) : (recordCmr b s).cmrOut = cmrOf b := rfl
@[simp] theorem recordCmr_cmrRaw (b : Byte) (s : State) : (recordCmr b s).cmrRaw = b := rfl
@[simp] theorem recordCmr_pbuf (b : Byte) (s : State) : (recordCmr b s).pbuf = s.pbuf := rfl
@[simp] theorem recordCmr_pcmIn (b : Byte) (s : State) : (recordCmr b s).pcmIn = s.pcmIn := rfl
@[simp] theorem recordCmr_pcmOut (b : Byte) (s : State) : (recordCmr b s).pcmOut = s.pcmOut := rfl
@[simp] theorem recordCmr_toc (b : Byte) (s : State) : (recordCmr b s).toc = s.toc := rfl
@[simp] theorem recordCmr_staging (b : Byte) (s : State) : (recordCmr b s).staging = s.staging := rfl
@[simp] theorem recordCmr_calls (b : Byte) (s : State) : (recordCmr b s).calls = s.calls := rfl
@[simp] theorem recordCmr_faulted (b : Byte) (s : State) : (recordCmr b s).faulted = s.faulted := rfl
@[simp] theorem recordCmr_draws (b : Byte) (s : State) : (recordCmr b s).draws = s.draws := rfl
@[simp] theorem recordCmr_host (b : Byte) (s : State) : (recordCmr b s).host = s.host := rfl
@[simp] theorem recordCmr_returned (b : Byte) (s : State) : (recordCmr b s).returned = s.returned := rfl

/-! ### `enterFault`: a model fault (R215) -/
@[simp] theorem enterFault_params (f : Fault) (s : State) : (enterFault f s).params = s.params := rfl
@[simp] theorem enterFault_ie (f : Fault) (s : State) : (enterFault f s).ie = s.ie := rfl
@[simp] theorem enterFault_busy (f : Fault) (s : State) : (enterFault f s).busy = s.busy := rfl
@[simp] theorem enterFault_done (f : Fault) (s : State) : (enterFault f s).done = s.done := rfl
@[simp] theorem enterFault_ovr (f : Fault) (s : State) : (enterFault f s).ovr = s.ovr := rfl
@[simp] theorem enterFault_trunc (f : Fault) (s : State) : (enterFault f s).trunc = s.trunc := rfl
@[simp] theorem enterFault_err (f : Fault) (s : State) : (enterFault f s).err = s.err := rfl
@[simp] theorem enterFault_hstate (f : Fault) (s : State) : (enterFault f s).hstate = s.hstate := rfl
@[simp] theorem enterFault_cmd (f : Fault) (s : State) : (enterFault f s).cmd = s.cmd := rfl
@[simp] theorem enterFault_byteIndex (f : Fault) (s : State) : (enterFault f s).byteIndex = s.byteIndex := rfl
@[simp] theorem enterFault_bitOffset (f : Fault) (s : State) : (enterFault f s).bitOffset = s.bitOffset := rfl
@[simp] theorem enterFault_data (f : Fault) (s : State) : (enterFault f s).data = s.data := rfl
@[simp] theorem enterFault_argLen (f : Fault) (s : State) : (enterFault f s).argLen = s.argLen := rfl
@[simp] theorem enterFault_codecParam (f : Fault) (s : State) : (enterFault f s).codecParam = s.codecParam := rfl
@[simp] theorem enterFault_resLen (f : Fault) (s : State) : (enterFault f s).resLen = s.resLen := rfl
@[simp] theorem enterFault_ntoc (f : Fault) (s : State) : (enterFault f s).ntoc = s.ntoc := rfl
@[simp] theorem enterFault_ndec (f : Fault) (s : State) : (enterFault f s).ndec = s.ndec := rfl
@[simp] theorem enterFault_resSamples (f : Fault) (s : State) : (enterFault f s).resSamples = s.resSamples := rfl
@[simp] theorem enterFault_resPcmBytes (f : Fault) (s : State) : (enterFault f s).resPcmBytes = s.resPcmBytes := rfl
@[simp] theorem enterFault_result (f : Fault) (s : State) : (enterFault f s).result = s.result := rfl
@[simp] theorem enterFault_cmrOut (f : Fault) (s : State) : (enterFault f s).cmrOut = s.cmrOut := rfl
@[simp] theorem enterFault_cmrRaw (f : Fault) (s : State) : (enterFault f s).cmrRaw = s.cmrRaw := rfl
@[simp] theorem enterFault_pbuf (f : Fault) (s : State) : (enterFault f s).pbuf = s.pbuf := rfl
@[simp] theorem enterFault_pcmIn (f : Fault) (s : State) : (enterFault f s).pcmIn = s.pcmIn := rfl
@[simp] theorem enterFault_pcmOut (f : Fault) (s : State) : (enterFault f s).pcmOut = s.pcmOut := rfl
@[simp] theorem enterFault_toc (f : Fault) (s : State) : (enterFault f s).toc = s.toc := rfl
@[simp] theorem enterFault_staging (f : Fault) (s : State) : (enterFault f s).staging = s.staging := rfl
@[simp] theorem enterFault_calls (f : Fault) (s : State) : (enterFault f s).calls = s.calls := rfl
@[simp] theorem enterFault_faulted (f : Fault) (s : State) : (enterFault f s).faulted = some f := rfl
@[simp] theorem enterFault_draws (f : Fault) (s : State) : (enterFault f s).draws = s.draws := rfl
@[simp] theorem enterFault_host (f : Fault) (s : State) : (enterFault f s).host = s.host := rfl
@[simp] theorem enterFault_returned (f : Fault) (s : State) : (enterFault f s).returned = s.returned := rfl

/-! ### `giveBack`: data goes back to the host (R70) -/
@[simp] theorem giveBack_params (d : HostData) (s : State) : (giveBack d s).params = s.params := rfl
@[simp] theorem giveBack_ie (d : HostData) (s : State) : (giveBack d s).ie = s.ie := rfl
@[simp] theorem giveBack_busy (d : HostData) (s : State) : (giveBack d s).busy = s.busy := rfl
@[simp] theorem giveBack_done (d : HostData) (s : State) : (giveBack d s).done = s.done := rfl
@[simp] theorem giveBack_ovr (d : HostData) (s : State) : (giveBack d s).ovr = s.ovr := rfl
@[simp] theorem giveBack_trunc (d : HostData) (s : State) : (giveBack d s).trunc = s.trunc := rfl
@[simp] theorem giveBack_err (d : HostData) (s : State) : (giveBack d s).err = s.err := rfl
@[simp] theorem giveBack_hstate (d : HostData) (s : State) : (giveBack d s).hstate = s.hstate := rfl
@[simp] theorem giveBack_cmd (d : HostData) (s : State) : (giveBack d s).cmd = s.cmd := rfl
@[simp] theorem giveBack_byteIndex (d : HostData) (s : State) : (giveBack d s).byteIndex = s.byteIndex := rfl
@[simp] theorem giveBack_bitOffset (d : HostData) (s : State) : (giveBack d s).bitOffset = s.bitOffset := rfl
@[simp] theorem giveBack_data (d : HostData) (s : State) : (giveBack d s).data = s.data := rfl
@[simp] theorem giveBack_argLen (d : HostData) (s : State) : (giveBack d s).argLen = s.argLen := rfl
@[simp] theorem giveBack_codecParam (d : HostData) (s : State) : (giveBack d s).codecParam = s.codecParam := rfl
@[simp] theorem giveBack_resLen (d : HostData) (s : State) : (giveBack d s).resLen = s.resLen := rfl
@[simp] theorem giveBack_ntoc (d : HostData) (s : State) : (giveBack d s).ntoc = s.ntoc := rfl
@[simp] theorem giveBack_ndec (d : HostData) (s : State) : (giveBack d s).ndec = s.ndec := rfl
@[simp] theorem giveBack_resSamples (d : HostData) (s : State) : (giveBack d s).resSamples = s.resSamples := rfl
@[simp] theorem giveBack_resPcmBytes (d : HostData) (s : State) : (giveBack d s).resPcmBytes = s.resPcmBytes := rfl
@[simp] theorem giveBack_result (d : HostData) (s : State) : (giveBack d s).result = s.result := rfl
@[simp] theorem giveBack_cmrOut (d : HostData) (s : State) : (giveBack d s).cmrOut = s.cmrOut := rfl
@[simp] theorem giveBack_cmrRaw (d : HostData) (s : State) : (giveBack d s).cmrRaw = s.cmrRaw := rfl
@[simp] theorem giveBack_pbuf (d : HostData) (s : State) : (giveBack d s).pbuf = s.pbuf := rfl
@[simp] theorem giveBack_pcmIn (d : HostData) (s : State) : (giveBack d s).pcmIn = s.pcmIn := rfl
@[simp] theorem giveBack_pcmOut (d : HostData) (s : State) : (giveBack d s).pcmOut = s.pcmOut := rfl
@[simp] theorem giveBack_toc (d : HostData) (s : State) : (giveBack d s).toc = s.toc := rfl
@[simp] theorem giveBack_staging (d : HostData) (s : State) : (giveBack d s).staging = s.staging := rfl
@[simp] theorem giveBack_calls (d : HostData) (s : State) : (giveBack d s).calls = s.calls := rfl
@[simp] theorem giveBack_faulted (d : HostData) (s : State) : (giveBack d s).faulted = s.faulted := rfl
@[simp] theorem giveBack_draws (d : HostData) (s : State) : (giveBack d s).draws = s.draws := rfl
@[simp] theorem giveBack_host (d : HostData) (s : State) : (giveBack d s).host = s.host := rfl
@[simp] theorem giveBack_returned (d : HostData) (s : State) : (giveBack d s).returned = s.returned ++ [d] := rfl

/-! ### The short names of completion -/
@[simp] theorem finish_eq (s : State) : finish s = completeWith .none s := rfl
@[simp] theorem raiseErr_eq (e : ErrCode) (s : State) : raiseErr e s = completeWith e s := rfl

/-! ### The cursor position depends on CUR alone -/
@[simp] theorem completeWith_pos (e : ErrCode) (s : State) : (completeWith e s).pos = s.pos := rfl
@[simp] theorem acceptCommand_pos (w : Word) (s : State) : (acceptCommand w s).pos = s.pos := rfl
@[simp] theorem recordCall_pos (c : CodecCall) (s : State) : (recordCall c s).pos = s.pos := rfl
@[simp] theorem writePcmOut_pos (k : Nat) (x : PcmFrame) (s : State) : (writePcmOut k x s).pos = s.pos := rfl
@[simp] theorem stageReply_pos (r : EncodeReply) (s : State) : (stageReply r s).pos = s.pos := rfl
@[simp] theorem appendToc_pos (e : TocEntry) (s : State) : (appendToc e s).pos = s.pos := rfl
@[simp] theorem unpackResults_pos (nd : Nat) (s : State) : (unpackResults nd s).pos = s.pos := rfl
@[simp] theorem zeroResults_pos (s : State) : (zeroResults s).pos = s.pos := rfl
@[simp] theorem recordCmr_pos (b : Byte) (s : State) : (recordCmr b s).pos = s.pos := rfl
@[simp] theorem enterFault_pos (f : Fault) (s : State) : (enterFault f s).pos = s.pos := rfl
@[simp] theorem giveBack_pos (d : HostData) (s : State) : (giveBack d s).pos = s.pos := rfl

end Sys2Proof.Laws
end

