-- ==== Sys2Proof/Laws/Ops.lean ====
section
/-! SUPPORT. One lemma per shared operation: what the cursor, the bit runs, the slots and the codec port do. -/

namespace Sys2Proof.Laws

open Sys2Proof.Machine Sys2Proof.Config Sys2Proof.Safety

/-! ### The cursor (R28) -/

/-- `pos()` after `setpos(p)`, for every position whose byte index fits its 16 bits. -/
theorem pos_setPos (p : Nat) (s : State) (h : p / 8 < 65536) : (s.setPos p).pos = p := by
  unfold State.pos
  simp only [setPos_byteIndex, setPos_bitOffset, BitVec.toNat_ofNat]
  omega

/-- `setpos` to the position where the cursor stands changes nothing. -/
theorem setPos_pos (s : State) : s.setPos s.pos = s := by
  have h1 : s.byteIndex.toNat < 65536 := s.byteIndex.isLt
  have h2 : s.bitOffset.toNat < 8 := s.bitOffset.isLt
  have e1 : BitVec.ofNat 16 (s.pos / 8) = s.byteIndex := by
    apply BitVec.eq_of_toNat_eq
    unfold State.pos
    rw [BitVec.toNat_ofNat]
    omega
  have e2 : BitVec.ofNat 3 (7 - s.pos % 8) = s.bitOffset := by
    apply BitVec.eq_of_toNat_eq
    unfold State.pos
    rw [BitVec.toNat_ofNat]
    omega
  unfold State.setPos
  rw [e1, e2]

/-- `setpos` twice is the second alone. -/
@[simp] theorem setPos_setPos (p q : Nat) (s : State) : (s.setPos p).setPos q = s.setPos q := rfl

/-- The position decides CUR. -/
theorem cur_eq_of_pos {s t : State} (h : t.pos = s.pos) : t.byteIndex = s.byteIndex ∧ t.bitOffset = s.bitOffset := by
  have h1 := s.bitOffset.isLt
  have h2 := t.bitOffset.isLt
  unfold State.pos at h
  constructor <;> apply BitVec.eq_of_toNat_eq <;> omega

/-! ### write_bits and read_bits (R100, R101) -/

/-- `write_bits` advances the cursor by n. -/
theorem writeBits_pos (bits : List Bool) (n : Nat) (s : State) (h : (s.pos + n) / 8 < 65536) :
    (writeBits bits n s).pos = s.pos + n := pos_setPos _ _ h

/-- `write_bits` writes exactly its n bits. -/
theorem writeBits_getBit (bits : List Bool) (n : Nat) (s : State) (hw : PbufCanonical s) (hl : n ≤ bits.length) (q : Nat) :
    (writeBits bits n s).pbuf.getBit q =
      if s.pos ≤ q ∧ q < s.pos + n then bits[q - s.pos]? else s.pbuf.getBit q := by
  have hlen : (bits.take n).length = n := by simp [hl]
  rw [writeBits_pbuf, getBit_setRun hw, hlen]
  split
  · rename_i h
    rw [List.getElem?_take, if_pos (by omega)]
  · rfl

/-- `write_bits` leaves every byte outside its span alone (R69, R103). -/
theorem writeBits_byteAt (bits : List Bool) (n : Nat) (s : State) (i : Nat)
    (h : i < s.pos / 8 ∨ s.pos + n ≤ 8 * i) : (writeBits bits n s).pbuf.byteAt i = s.pbuf.byteAt i := by
  rw [writeBits_pbuf]
  apply byteAt_setRun_ne
  have : (bits.take n).length ≤ n := by simp
  omega

theorem writeBits_canonical (bits : List Bool) (n : Nat) (s : State) (hw : PbufCanonical s) :
    PbufCanonical (writeBits bits n s) := setRun_wf hw

/-- `read_bits` gives the n bits at the cursor, changes no bit of PBUF and advances the cursor. -/
theorem readBits_ok (n : Nat) (s : State) (bits : List Bool) (s1 : State) :
    readBits n s = .ok (bits, s1) ↔ s.pbuf.getRun s.pos n = .ok bits ∧ s1 = s.setPos (s.pos + n) := by
  unfold readBits
  split
  · rename_i f hf
    simp [hf]
  · rename_i xs hxs
    rw [hxs]
    simp only [Except.ok.injEq, Prod.mk.injEq]
    constructor
    · rintro ⟨rfl, rfl⟩; exact ⟨rfl, rfl⟩
    · rintro ⟨rfl, rfl⟩; exact ⟨rfl, rfl⟩

/-- `read_bits` fails exactly where the run holds a bit nothing has written. -/
theorem readBits_error (n : Nat) (s : State) (f : Fault) :
    readBits n s = .error f ↔ s.pbuf.getRun s.pos n = .error f := by
  unfold readBits
  split
  · rename_i g hg
    rw [hg]
    simp
  · rename_i xs hxs
    rw [hxs]
    simp

/-! ### The codec port (R41) -/

/-- A codec answer depends only on the codec, the calls made and the draw index. -/
theorem encodeAnswer_congr (x : PcmFrame) {s t : State} (hp : t.params = s.params) (hc : t.calls = s.calls)
    (hd : t.draws = s.draws) : encodeAnswer x t = encodeAnswer x s := by
  unfold encodeAnswer
  rw [hp, hc, hd]

theorem decodeAnswer_congr (m : BitVec 8) (q : BitVec 1) (b : List Byte) {s t : State} (hp : t.params = s.params)
    (hc : t.calls = s.calls) (hd : t.draws = s.draws) : decodeAnswer m q b t = decodeAnswer m q b s := by
  unfold decodeAnswer
  rw [hp, hc, hd]

theorem encodeReplies_congr (xs : List PcmFrame) {s t : State} (hp : t.params = s.params) (hc : t.calls = s.calls)
    (hd : t.draws = s.draws) : encodeReplies xs t = encodeReplies xs s := by
  induction xs generalizing s t with
  | nil => rfl
  | cons x xs ih =>
    simp only [encodeReplies, encodeAnswer_congr x hp hc hd]
    congr 1
    exact ih hp (by simp [hc]) (by simp [hd])

theorem encodeCalls_congr (xs : List PcmFrame) {s t : State} (hp : t.params = s.params) (hc : t.calls = s.calls)
    (hd : t.draws = s.draws) : encodeCalls xs t = encodeCalls xs s := by
  induction xs generalizing s t with
  | nil => rfl
  | cons x xs ih =>
    simp only [encodeCalls, encodeAnswer_congr x hp hc hd]
    congr 1
    exact ih hp (by simp [hc]) (by simp [hd])

theorem decodeReplies_congr (xs : List (TocEntry × List Byte)) {s t : State} (hp : t.params = s.params)
    (hc : t.calls = s.calls) (hd : t.draws = s.draws) : decodeReplies xs t = decodeReplies xs s := by
  induction xs generalizing s t with
  | nil => rfl
  | cons x xs ih =>
    obtain ⟨e, b⟩ := x
    simp only [decodeReplies, decodeAnswer_congr _ _ _ hp hc hd]
    congr 1
    exact ih hp (by simp [hc]) (by simp [hd])

theorem decodeCalls_congr (xs : List (TocEntry × List Byte)) {s t : State} (hp : t.params = s.params)
    (hc : t.calls = s.calls) (hd : t.draws = s.draws) : decodeCalls xs t = decodeCalls xs s := by
  induction xs generalizing s t with
  | nil => rfl
  | cons x xs ih =>
    obtain ⟨e, b⟩ := x
    simp only [decodeCalls, decodeAnswer_congr _ _ _ hp hc hd]
    congr 1
    exact ih hp (by simp [hc]) (by simp [hd])

/-- `CodecEncode`: the answer, one more call in the history, or the contract fault. -/
theorem codecEncode_ok (x : PcmFrame) (s : State) (r : EncodeReply) (s1 : State) :
    codecEncode x s = .ok (r, s1) ↔
      replyKeepsContract r = true ∧ r = encodeAnswer x s ∧ s1 = recordCall (.encode x r) s := by
  unfold codecEncode
  split
  · rename_i h
    simp only [Except.ok.injEq, Prod.mk.injEq]
    constructor
    · rintro ⟨rfl, rfl⟩; exact ⟨h, rfl, rfl⟩
    · rintro ⟨-, rfl, rfl⟩; exact ⟨rfl, rfl⟩
  · rename_i h
    constructor
    · intro h'; cases h'
    · rintro ⟨hr, rfl, -⟩; exact absurd hr h

/-! ### Undefined bits hold no value (R47) -/

/-- Writing bits keeps undefined bits without a value. -/
theorem setBit_undefined {b : Pbuf} (hw : Memory.wf b = true) (p : Nat) (x : Bool)
    (h : ∀ i, (b.byteAt i).1 &&& ~~~(b.byteAt i).2 = 0#8) (i : Nat) :
    ((b.setBit p x).byteAt i).1 &&& ~~~((b.setBit p x).byteAt i).2 = 0#8 := by
  by_cases hi : i = p / 8
  · subst hi
    unfold Pbuf.setBit
    rw [byteAt_setByteAt_self hw]
    apply BitVec.eq_of_getLsbD_eq
    intro j hj
    have hj2 := congrArg (fun v => v.getLsbD j) (h (p / 8))
    simp only [BitVec.getLsbD_and, BitVec.getLsbD_not, hj, decide_true, Bool.true_and, BitVec.getLsbD_zero] at hj2 ⊢
    rw [byteSet_getLsbD _ _ _ _ (by omega), byteSet_getLsbD _ _ _ _ (by omega)]
    by_cases e : j = 7 - p % 8
    · simp [e]
    · simpa [e] using hj2
  · rw [byteAt_setBit_ne hi]
    exact h i

theorem setRun_undefined {b : Pbuf} (hw : Memory.wf b = true) (p : Nat) (xs : List Bool)
    (h : ∀ i, (b.byteAt i).1 &&& ~~~(b.byteAt i).2 = 0#8) (i : Nat) :
    ((b.setRun p xs).byteAt i).1 &&& ~~~((b.setRun p xs).byteAt i).2 = 0#8 := by
  induction xs generalizing p b with
  | nil => exact h i
  | cons x xs ih => exact ih (setBit_wf hw) _ (setBit_undefined hw p x h)

/-- A run that ends inside PBUF keeps PBUF inside its bounds (R60). -/
theorem setRun_inside {s : State} (hw : PbufCanonical s) (h : PbufInside s) (p : Nat) (xs : List Bool)
    (hp : p + xs.length ≤ 8 * s.params.bufCap) : PbufInside { s with pbuf := s.pbuf.setRun p xs } := by
  refine ⟨?_, setRun_undefined hw p xs h.2⟩
  intro i hi
  have : (s.pbuf.setRun p xs).byteAt i = s.pbuf.byteAt i := by
    have h' : s.params.bufCap ≤ i := hi
    exact byteAt_setRun_ne p i xs (by right; omega)
  exact this.trans (h.1 i hi)

/-! ### Runs in a row -/

/-- Two runs one after the other are one run. -/
theorem setRun_append (b : Pbuf) (p : Nat) (xs ys : List Bool) :
    (b.setRun p xs).setRun (p + xs.length) ys = b.setRun p (xs ++ ys) := by
  induction xs generalizing p b with
  | nil => rfl
  | cons x xs ih =>
    simp only [Pbuf.setRun, List.cons_append, List.length_cons]
    rw [← ih, show p + (xs.length + 1) = p + 1 + xs.length by omega]

/-! ### Where reads and codec calls stop -/

/-- `read_bits` stops exactly at the first bit of its run that nothing has written (R47, R101, R215). -/
theorem readBits_stops (n : Nat) (s : State) (f : Fault) :
    readBits n s = .error f ↔ ∃ p, f = .undefinedBit p ∧ FirstUndefined s s.pos p ∧ p < s.pos + n := by
  have h : readBits n s = .error f ↔ s.pbuf.getRun s.pos n = .error f := by
    unfold readBits
    split <;> simp [*]
  rw [h]
  constructor
  · intro hr
    obtain ⟨i, hi, rfl, hn, hd⟩ := getRun_error _ _ _ hr
    refine ⟨s.pos + i, rfl, ⟨by omega, hn, ?_⟩, by omega⟩
    intro q hq1 hq2
    have := hd (q - s.pos) (by omega)
    rwa [show s.pos + (q - s.pos) = q by omega] at this
  · rintro ⟨p, rfl, ⟨hp, hn, hd⟩, hlt⟩
    have := getRun_stops (b := s.pbuf) s.pos n (p - s.pos) (by omega) (by rwa [show s.pos + (p - s.pos) = p by omega])
      (fun j hj => hd _ (by omega) (by omega))
    rwa [show s.pos + (p - s.pos) = p by omega] at this

/-- `CodecEncode` stops exactly at a reply of a mode up to 7 with another length than its mode's (R41, R215). -/
theorem codecEncode_stops (x : PcmFrame) (s : State) (f : Fault) :
    codecEncode x s = .error f ↔ (encodeAnswer x s).mode.toNat ≤ 7 ∧
      (encodeAnswer x s).bytes.length ≠ nbytes (encodeAnswer x s).mode.toNat ∧ f = .codecContract (encodeAnswer x s).mode := by
  unfold codecEncode
  split
  · rename_i h
    simp only [replyKeepsContract, Bool.or_eq_true, decide_eq_true_eq] at h
    constructor
    · intro h'
      cases h'
    · rintro ⟨h1, h2, -⟩
      exact absurd h (by omega)
  · rename_i h
    simp only [replyKeepsContract, Bool.or_eq_true, decide_eq_true_eq, not_or, Nat.not_lt] at h
    constructor
    · intro h'
      exact ⟨h.1, h.2, (Except.error.inj h').symm⟩
    · rintro ⟨-, -, rfl⟩
      rfl

end Sys2Proof.Laws
end

