-- ==== Sys2Proof/Laws/Pack.lean ====
section
/-! SUPPORT. What the phases of PACK do (R142 to R146, R149). -/

namespace Sys2Proof.Laws

open Sys2Proof.Machine Sys2Proof.Config Sys2Proof.Safety

/-! ### Phase 1: the codec calls -/

/-- The state after phase 1: replies staged, calls recorded, nothing else changed. -/
def afterEncode (rs : List EncodeReply) (cs : List CodecCall) (n : Nat) (s : State) : State :=
  { s with staging := s.staging ++ rs, calls := s.calls ++ cs, draws := s.draws + n }

/-- Phase 1 on frames the codec gives valid replies for. -/
theorem encodeFrames_ok (frames : List PcmFrame) (f : Nat) (s : State)
    (hin : ∀ i, i < frames.length → s.pcmIn.getD (f + i) none = frames[i]?)
    (hr : ∀ r ∈ encodeReplies frames s, r.mode.toNat ≤ 7 ∧ r.bytes.length = nbytes r.mode.toNat) :
    encodeFrames frames.length f s =
      .ok (true, afterEncode (encodeReplies frames s) (encodeCalls frames s) frames.length s) := by
  induction frames generalizing f s with
  | nil => simp [encodeFrames, encodeReplies, encodeCalls, afterEncode]
  | cons x xs ih =>
    have h0 : readPcmIn f s = .ok x := by
      have := hin 0 (by simp)
      simp only [Nat.add_zero, List.getElem?_cons_zero] at this
      unfold readPcmIn
      rw [this]
    obtain ⟨hm, hb⟩ := hr (encodeAnswer x s) (by simp [encodeReplies])
    have hc : codecEncode x s = .ok (encodeAnswer x s, recordCall (.encode x (encodeAnswer x s)) s) :=
      (codecEncode_ok x s _ _).mpr ⟨by simp [replyKeepsContract, hb], rfl, rfl⟩
    have hcongr := encodeReplies_congr xs (s := recordCall (.encode x (encodeAnswer x s)) s)
      (t := stageReply (encodeAnswer x s) (recordCall (.encode x (encodeAnswer x s)) s)) rfl rfl rfl
    have hcongr2 := encodeCalls_congr xs (s := recordCall (.encode x (encodeAnswer x s)) s)
      (t := stageReply (encodeAnswer x s) (recordCall (.encode x (encodeAnswer x s)) s)) rfl rfl rfl
    simp only [List.length_cons, encodeFrames, h0, hc, if_neg (show ¬ 7 < (encodeAnswer x s).mode.toNat by omega)]
    rw [ih (f + 1) (stageReply (encodeAnswer x s) (recordCall (.encode x (encodeAnswer x s)) s))]
    · rw [hcongr, hcongr2]
      simp only [encodeReplies, encodeCalls]
      generalize encodeReplies xs _ = rs
      generalize encodeCalls xs _ = cs
      simp [afterEncode, stageReply, recordCall, Nat.add_comm, Nat.add_left_comm]
    · intro i hi
      have := hin (i + 1) (by simpa using hi)
      simp only [stageReply_pcmIn, recordCall_pcmIn]
      rw [show f + 1 + i = f + (i + 1) by omega, this]
      simp
    · intro r hrm
      rw [hcongr] at hrm
      exact hr r (by simp [encodeReplies, hrm])

theorem encodeReplies_length (xs : List PcmFrame) (s : State) : (encodeReplies xs s).length = xs.length := by
  induction xs generalizing s with
  | nil => rfl
  | cons x xs ih => simp [encodeReplies, ih]

/-- One frame more in front of a phase 1. -/
theorem afterEncode_cons (x : PcmFrame) (xs : List PcmFrame) (s : State) :
    afterEncode (encodeReplies (x :: xs) s) (encodeCalls (x :: xs) s) (xs.length + 1) s =
      afterEncode (encodeReplies xs (stageReply (encodeAnswer x s) (recordCall (.encode x (encodeAnswer x s)) s)))
        (encodeCalls xs (stageReply (encodeAnswer x s) (recordCall (.encode x (encodeAnswer x s)) s))) xs.length
        (stageReply (encodeAnswer x s) (recordCall (.encode x (encodeAnswer x s)) s)) := by
  rw [encodeReplies_congr xs (s := recordCall (.encode x (encodeAnswer x s)) s)
      (t := stageReply (encodeAnswer x s) (recordCall (.encode x (encodeAnswer x s)) s)) rfl rfl rfl,
    encodeCalls_congr xs (s := recordCall (.encode x (encodeAnswer x s)) s)
      (t := stageReply (encodeAnswer x s) (recordCall (.encode x (encodeAnswer x s)) s)) rfl rfl rfl]
  simp only [encodeReplies, encodeCalls]
  generalize encodeReplies xs _ = rs
  generalize encodeCalls xs _ = cs
  simp [afterEncode, stageReply, recordCall, Nat.add_comm, Nat.add_left_comm]

/-- Whatever phase 1 answers, it passed the frames of defined slots to the codec in order, staged the replies and changed
nothing else. A success has one valid reply per frame; a failure ends with a reply of mode 8 or more, every reply before it
valid (R143). -/
theorem encodeFrames_inv (k f : Nat) (s : State) (ok : Bool) (s1 : State) (h : encodeFrames k f s = .ok (ok, s1)) :
    ∃ frames, s1 = afterEncode (encodeReplies frames s) (encodeCalls frames s) frames.length s ∧ frames.length ≤ k ∧
      (∀ i, i < frames.length → s.pcmIn.getD (f + i) none = frames[i]?) ∧
      (∀ r ∈ encodeReplies frames s, replyKeepsContract r = true) ∧
      (ok = true → frames.length = k ∧ ∀ r ∈ encodeReplies frames s, r.mode.toNat ≤ 7) ∧
      (ok = false → ∃ rs r, encodeReplies frames s = rs ++ [r] ∧ 7 < r.mode.toNat ∧ ∀ r' ∈ rs, r'.mode.toNat ≤ 7) := by
  induction k generalizing f s with
  | zero =>
    simp only [encodeFrames, Except.ok.injEq, Prod.mk.injEq] at h
    obtain ⟨rfl, rfl⟩ := h
    exact ⟨[], by simp [afterEncode, encodeReplies, encodeCalls], by simp, by simp, by simp [encodeReplies],
      by simp [encodeReplies], by simp⟩
  | succ k ih =>
    simp only [encodeFrames] at h
    split at h
    · cases h
    · rename_i x hx
      have hx0 : s.pcmIn.getD f none = some x := by
        unfold readPcmIn at hx
        split at hx
        · cases hx
        · rename_i y hy
          rw [hy, Except.ok.inj hx]
      split at h
      · cases h
      · rename_i r s2 hc
        obtain ⟨hk, rfl, rfl⟩ := (codecEncode_ok _ _ _ _).mp hc
        split at h
        · rename_i h7
          simp only [Except.ok.injEq, Prod.mk.injEq] at h
          obtain ⟨rfl, rfl⟩ := h
          refine ⟨[x], ?_, by simp, ?_, by simpa [encodeReplies] using hk, by simp, fun _ => ⟨[], encodeAnswer x s, rfl, h7, by simp⟩⟩
          · simp [afterEncode, stageReply, recordCall, encodeReplies, encodeCalls]
          · intro i hi
            obtain rfl : i = 0 := by simpa using hi
            simpa using hx0
        · rename_i h7
          obtain ⟨frames, h1, h2, h3, h4, h5, h6⟩ := ih (f + 1) _ h
          have hcongr := encodeReplies_congr frames (s := recordCall (.encode x (encodeAnswer x s)) s)
            (t := stageReply (encodeAnswer x s) (recordCall (.encode x (encodeAnswer x s)) s)) rfl rfl rfl
          have hcons : encodeReplies (x :: frames) s =
              encodeAnswer x s :: encodeReplies frames (stageReply (encodeAnswer x s) (recordCall (.encode x (encodeAnswer x s)) s)) := by
            rw [hcongr]
            rfl
          refine ⟨x :: frames, by rw [h1, ← afterEncode_cons]; rfl, by simpa using h2, ?_, ?_, ?_, ?_⟩
          · intro i hi
            cases i with
            | zero => simpa using hx0
            | succ i =>
              have := h3 i (by simpa using hi)
              rw [show f + (i + 1) = f + 1 + i by omega]
              simpa using this
          · rw [hcons]
            simpa using ⟨hk, h4⟩
          · intro hok
            obtain ⟨ha, hb⟩ := h5 hok
            rw [hcons]
            exact ⟨by simp [ha], by simpa using ⟨by omega, hb⟩⟩
          · intro hok
            obtain ⟨rs, q, e, hq, hrs⟩ := h6 hok
            rw [hcons]
            exact ⟨encodeAnswer x s :: rs, q, by simp [e], hq, by simpa using ⟨by omega, hrs⟩⟩

/-! ### Phase 3: the writes in a row -/

/-- The state after a run of bits from position 0 on: PBUF and the cursor alone. -/
def wrote (bits : List Bool) (s : State) : State :=
  { s with pbuf := s.pbuf.setRun 0 bits }.setPos bits.length

/-- One more run of bits. -/
theorem writeBits_wrote (bits more : List Bool) (n : Nat) (s : State) (hn : n = more.length)
    (h : bits.length / 8 < 65536) : writeBits more n (wrote bits s) = wrote (bits ++ more) s := by
  have hp : (wrote bits s).pos = bits.length := pos_setPos _ _ h
  unfold writeBits
  rw [hp, hn, List.take_length]
  have e : (wrote bits s).pbuf = s.pbuf.setRun 0 bits := rfl
  rw [e]
  have e2 := setRun_append s.pbuf 0 bits more
  rw [Nat.zero_add] at e2
  rw [e2]
  unfold wrote
  simp [State.setPos]

/-- The number of bits of a mode and of its bytes (R39). -/
theorem nbits_le (m : Nat) : nbits m ≤ 8 * nbytes m := by
  unfold nbytes ceil8
  omega

theorem nbytes_le (m : Nat) : nbytes m ≤ 31 := by
  have h : nbits m ≤ 244 := by
    unfold nbits modeTable
    rcases m with _ | _ | _ | _ | _ | _ | _ | _ | m <;> simp
  unfold nbytes ceil8
  omega

/-- The bits of a frame as the wire holds them (R145). -/
theorem bitsOf_wireFrame (r : EncodeReply) (h : r.bytes.length = nbytes r.mode.toNat) :
    bitsOf (wireFrame r) =
      (bitsOf r.bytes).take (nbits r.mode.toNat) ++ zeros (8 * nbytes r.mode.toNat - nbits r.mode.toNat) := by
  unfold wireFrame
  rw [bitsOf_bytesOf]
  have : ((bitsOf r.bytes).take (nbits r.mode.toNat)).length = nbits r.mode.toNat := by
    have := nbits_le r.mode.toNat
    simp [h]
    omega
  rw [this]
  rfl

theorem wireFrame_length (r : EncodeReply) (h : r.bytes.length = nbytes r.mode.toNat) :
    (wireFrame r).length = nbytes r.mode.toNat := by
  have h1 := congrArg List.length (bitsOf_wireFrame r h)
  have h2 := nbits_le r.mode.toNat
  simp [h] at h1
  omega

theorem writeBits_take (xs : List Bool) (n : Nat) (s : State) : writeBits xs n s = writeBits (xs.take n) n s := by
  unfold writeBits
  rw [List.take_take, Nat.min_self]

theorem writeFrame_wrote (bits : List Bool) (r : EncodeReply) (s : State) (h : r.bytes.length = nbytes r.mode.toNat)
    (hb : (bits.length + 8 * nbytes r.mode.toNat) / 8 < 65536) :
    writeFrame r (wrote bits s) = wrote (bits ++ bitsOf (wireFrame r)) s := by
  have hn := nbits_le r.mode.toNat
  have hl : ((bitsOf r.bytes).take (nbits r.mode.toNat)).length = nbits r.mode.toNat := by
    simp [h]
    omega
  unfold writeFrame
  rw [writeBits_take (bitsOf r.bytes), writeBits_wrote bits _ _ s hl.symm (by omega), writeBits_wrote _ _ _ s (by simp)
    (by rw [List.length_append, hl]; omega), bitsOf_wireFrame r h, List.append_assoc]

theorem writeFrames_wrote (rs : List EncodeReply) (bits : List Bool) (s : State)
    (h : ∀ r ∈ rs, r.bytes.length = nbytes r.mode.toNat)
    (hb : (bits.length + 8 * speechBytes (stagedModes rs)) / 8 < 65536) :
    writeFrames rs (wrote bits s) = wrote (bits ++ bitsOf (rs.flatMap wireFrame)) s := by
  induction rs generalizing bits with
  | nil => simp [writeFrames, bitsOf]
  | cons r rs ih =>
    have hr := h r (by simp)
    have hlen : speechBytes (stagedModes (r :: rs)) = nbytes r.mode.toNat + speechBytes (stagedModes rs) := by
      simp [speechBytes, stagedModes]
    rw [hlen] at hb
    simp only [writeFrames]
    rw [writeFrame_wrote bits r s hr (by omega)]
    rw [ih _ (fun x hx => h x (by simp [hx])) (by simp [wireFrame_length r hr]; omega)]
    rw [List.flatMap_cons, bitsOf_append, List.append_assoc]

theorem writeTocs_wrote (rs : List EncodeReply) (bits : List Bool) (s : State)
    (hb : (bits.length + 8 * rs.length) / 8 < 65536) :
    writeTocs rs (wrote bits s) = wrote (bits ++ bitsOf (wireToc rs)) s := by
  induction rs generalizing bits with
  | nil => simp [writeTocs, wireToc, bitsOf]
  | cons r rs ih =>
    simp only [List.length_cons] at hb
    simp only [writeTocs, wireToc]
    rw [writeBits_wrote bits _ 8 s (by simp) (by omega), ih _ (by simp; omega)]
    rw [bitsOf_cons, List.append_assoc]
    have : tocByteOf rs.isEmpty r = tocByte (if rs = [] then 0#1 else 1#1) (r.mode.setWidth 4) r.q := by
      unfold tocByteOf
      cases rs <;> simp
    rw [this]

theorem wireToc_length (rs : List EncodeReply) : (wireToc rs).length = rs.length := by
  induction rs with
  | nil => rfl
  | cons r rs ih => simp [wireToc, ih]

theorem flatMap_wireFrame_length (rs : List EncodeReply) (h : ∀ r ∈ rs, r.bytes.length = nbytes r.mode.toNat) :
    (rs.flatMap wireFrame).length = speechBytes (stagedModes rs) := by
  induction rs with
  | nil => rfl
  | cons r rs ih =>
    rw [List.flatMap_cons, List.length_append, ih (fun x hx => h x (by simp [hx])), wireFrame_length r (h r (by simp))]
    simp [speechBytes, stagedModes]

/-- The wire form has `payloadLen` bytes (R142). -/
theorem wirePayload_length (cmr : BitVec 4) (rs : List EncodeReply) (h : ∀ r ∈ rs, r.bytes.length = nbytes r.mode.toNat) :
    (wirePayload cmr rs).length = payloadLen (stagedModes rs) := by
  unfold wirePayload payloadLen
  simp only [List.length_cons, List.length_append, wireToc_length, flatMap_wireFrame_length rs h]
  simp [stagedModes]
  omega

/-- The CMR bits are the CMR byte's (R121). -/
theorem cmrBits_eq (cmr : BitVec 4) : cmrBits cmr = bitsN (cmr.zeroExtend 8 <<< 4 : Byte).toNat 8 := by
  revert cmr
  decide

/-- Phase 3 writes exactly the wire form from position 0 on (R145, R149). -/
theorem serialise_wrote (cmr : BitVec 4) (s : State) (h : ∀ r ∈ s.staging, r.bytes.length = nbytes r.mode.toNat)
    (hl : payloadLen (stagedModes s.staging) < 65536) :
    serialise cmr s = wrote (bitsOf (wirePayload cmr s.staging)) s := by
  have hlen : payloadLen (stagedModes s.staging) = 1 + s.staging.length + speechBytes (stagedModes s.staging) := by
    simp [payloadLen, stagedModes]
  have h0 : writeBits (cmrBits cmr) 8 (s.setPos 0) = wrote (cmrBits cmr) s := by
    have e : s.setPos 0 = wrote [] s := rfl
    rw [e, writeBits_wrote [] (cmrBits cmr) 8 s (by rw [cmrBits_eq]; simp) (by simp)]
    rfl
  have hc : (cmrBits cmr).length = 8 := by rw [cmrBits_eq]; simp
  unfold serialise
  rw [h0, writeTocs_wrote _ _ _ (by omega), writeFrames_wrote _ _ _ h (by simp [hc, wireToc_length]; omega)]
  congr 1
  unfold wirePayload
  rw [bitsOf_cons, bitsOf_append, cmrBits_eq, List.append_assoc]

/-! ### Where phase 1 stops -/

/-- One reply more at the end of a run of calls. -/
theorem encodeReplies_cons (x : PcmFrame) (xs : List PcmFrame) (s : State) :
    encodeReplies (x :: xs) s = encodeAnswer x s ::
      encodeReplies xs (stageReply (encodeAnswer x s) (recordCall (.encode x (encodeAnswer x s)) s)) := by
  rw [encodeReplies_congr xs (s := recordCall (.encode x (encodeAnswer x s)) s)
    (t := stageReply (encodeAnswer x s) (recordCall (.encode x (encodeAnswer x s)) s)) rfl rfl rfl]
  rfl

/-- Where phase 1 stops after the frames it got past: at an undefined slot, or at a reply that breaks the length contract. -/
def encodeStop (f : Nat) (frames : List PcmFrame) (s : State) (g : Fault) : Prop :=
  (s.pcmIn.getD (f + frames.length) none = none ∧ g = .undefinedPcmIn (f + frames.length)) ∨
  ∃ x bad, s.pcmIn.getD (f + frames.length) none = some x ∧
    encodeReplies (frames ++ [x]) s = encodeReplies frames s ++ [bad] ∧
    bad.mode.toNat ≤ 7 ∧ bad.bytes.length ≠ nbytes bad.mode.toNat ∧ g = .codecContract bad.mode

/-- One frame more in front of a stop. -/
theorem encodeStop_cons (f : Nat) (x : PcmFrame) (xs : List PcmFrame) (s : State) (g : Fault) :
    encodeStop f (x :: xs) s g ↔
      encodeStop (f + 1) xs (stageReply (encodeAnswer x s) (recordCall (.encode x (encodeAnswer x s)) s)) g := by
  unfold encodeStop
  rw [show f + (x :: xs).length = f + 1 + xs.length by simp; omega]
  simp only [List.cons_append, encodeReplies_cons, List.cons.injEq, true_and, stageReply_pcmIn, recordCall_pcmIn]

/-- Phase 1 stops exactly at an undefined slot or a broken contract, after frames with valid replies (R41, R143, R215). -/
theorem encodeFrames_stops (k f : Nat) (s : State) (g : Fault) :
    encodeFrames k f s = .error g ↔ ∃ frames, frames.length < k ∧
      (∀ i, i < frames.length → s.pcmIn.getD (f + i) none = frames[i]?) ∧
      (∀ r ∈ encodeReplies frames s, r.mode.toNat ≤ 7 ∧ r.bytes.length = nbytes r.mode.toNat) ∧ encodeStop f frames s g := by
  induction k generalizing f s with
  | zero => simp [encodeFrames]
  | succ k ih =>
    have slot : ∀ e, readPcmIn f s = .error e ↔ s.pcmIn.getD f none = none ∧ e = .undefinedPcmIn f := by
      intro e
      unfold readPcmIn
      split
      · rename_i h
        simp only [h, Except.error.injEq, true_and]
        exact eq_comm
      · rename_i y h
        simp only [h, reduceCtorEq, false_and]
    have slotOk : ∀ x, readPcmIn f s = .ok x ↔ s.pcmIn.getD f none = some x := by
      intro x
      unfold readPcmIn
      split
      · rename_i h
        simp only [h, reduceCtorEq]
      · rename_i y h
        simp only [h, Except.ok.injEq, Option.some.injEq]
    constructor
    · intro h
      simp only [encodeFrames] at h
      split at h
      · rename_i e he
        obtain rfl : e = g := Except.error.inj h
        obtain ⟨h1, rfl⟩ := (slot e).mp he
        exact ⟨[], by simp, by simp, by simp [encodeReplies], .inl ⟨by simpa using h1, by simp⟩⟩
      · rename_i x hx
        have hx' := (slotOk x).mp hx
        split at h
        · rename_i e he
          obtain rfl : e = g := Except.error.inj h
          obtain ⟨h1, h2, rfl⟩ := (codecEncode_stops x s e).mp he
          exact ⟨[], by simp, by simp, by simp [encodeReplies],
            .inr ⟨x, encodeAnswer x s, by simpa using hx', rfl, h1, h2, rfl⟩⟩
        · rename_i r s1 hc
          obtain ⟨hk, rfl, rfl⟩ := (codecEncode_ok _ _ _ _).mp hc
          split at h
          · cases h
          · rename_i h7
            obtain ⟨frames, h1, h2, h3, h4⟩ := (ih _ _).mp h
            refine ⟨x :: frames, by simpa using h1, ?_, ?_, (encodeStop_cons f x frames s g).mpr h4⟩
            · intro i hi
              cases i with
              | zero => simpa using hx'
              | succ i =>
                have := h2 i (by simpa using hi)
                rw [show f + (i + 1) = f + 1 + i by omega]
                simpa using this
            · rw [encodeReplies_cons]
              intro r hr
              rcases List.mem_cons.mp hr with rfl | hr
              · refine ⟨by omega, ?_⟩
                simpa [replyKeepsContract, h7] using hk
              · exact h3 r hr
    · rintro ⟨frames, h1, h2, h3, h4⟩
      simp only [encodeFrames]
      cases frames with
      | nil =>
        rcases h4 with ⟨hn, rfl⟩ | ⟨x, bad, hx, hb, hm, hl, rfl⟩
        · rw [(slot _).mpr ⟨by simpa using hn, rfl⟩]
          rfl
        · have hbad : encodeAnswer x s = bad := by simpa [encodeReplies] using hb
          subst hbad
          rw [(slotOk x).mpr (by simpa using hx)]
          simp only [(codecEncode_stops x s _).mpr ⟨hm, hl, rfl⟩]
      | cons x xs =>
        have hx : s.pcmIn.getD f none = some x := by simpa using h2 0 (by simp)
        rw [encodeReplies_cons] at h3
        obtain ⟨hm, hl⟩ := h3 _ (List.mem_cons_self)
        have hc : codecEncode x s = .ok (encodeAnswer x s, recordCall (.encode x (encodeAnswer x s)) s) :=
          (codecEncode_ok x s _ _).mpr ⟨by simp [replyKeepsContract, hl], rfl, rfl⟩
        rw [(slotOk x).mpr hx]
        simp only [hc, if_neg (show ¬ 7 < (encodeAnswer x s).mode.toNat by omega)]
        refine (ih _ _).mpr ⟨xs, by simpa using h1, ?_, fun r hr => h3 r (List.mem_cons_of_mem _ hr),
          (encodeStop_cons f x xs s g).mp h4⟩
        intro i hi
        have := h2 (i + 1) (by simpa using hi)
        rw [show f + (i + 1) = f + 1 + i by omega] at this
        simpa using this

end Sys2Proof.Laws
end

