-- ==== Sys2Proof/Laws/Unpack.lean ====
section
/-! SUPPORT. What the phases of UNPACK do (R162 to R168). -/

namespace Sys2Proof.Laws

open Sys2Proof.Machine Sys2Proof.Config Sys2Proof.Safety

/-! ### Byte-aligned reads -/

/-- n whole bytes are read as their bits. -/
theorem getRun_bytes (b : Pbuf) (i : Nat) (B : List Byte) (h : ∀ k, k < B.length → b.readByte (i + k) = B[k]?) :
    b.getRun (8 * i) (8 * B.length) = .ok (bitsOf B) := by
  rw [getRun_ok]
  refine ⟨by simp, ?_⟩
  intro j hj
  have hk : j / 8 < B.length := by omega
  have hb := h (j / 8) hk
  rw [List.getElem?_eq_getElem hk] at hb
  have := (readByte_iff_bits b (i + j / 8) _).mp hb (j % 8) (by omega)
  rw [show 8 * i + j = 8 * (i + j / 8) + j % 8 by omega, this]
  have e : j = 8 * (j / 8) + j % 8 := by omega
  conv => rhs; rw [e]
  rw [bitsOf_getElem? B (j / 8) (j % 8) (by omega), List.getElem?_eq_getElem hk]
  rfl

/-- A read of n whole bytes gives n defined bytes. -/
theorem getRun_bytes_inv (b : Pbuf) (i n : Nat) (bits : List Bool) (h : b.getRun (8 * i) (8 * n) = .ok bits) :
    ∃ B : List Byte, B.length = n ∧ bits = bitsOf B ∧ ∀ k, k < n → b.readByte (i + k) = B[k]? := by
  obtain ⟨hl, hb⟩ := (getRun_ok _ _ _).mp h
  have hB : (bytesOf bits).length = n := by simp [hl, ceil8]; omega
  have hbits : bits = bitsOf (bytesOf bits) := by
    rw [bitsOf_bytesOf, hl, show 8 * ceil8 (8 * n) - 8 * n = 0 by unfold ceil8; omega]
    simp [zeros]
  refine ⟨bytesOf bits, hB, hbits, ?_⟩
  intro k hk
  rw [List.getElem?_eq_getElem (by omega), readByte_iff_bits]
  intro j hj
  have h1 := hb (8 * k + j) (by omega)
  rw [show 8 * (i + k) + j = 8 * i + (8 * k + j) by omega, h1]
  conv => lhs; rw [hbits]
  rw [bitsOf_getElem? _ k j hj, List.getElem?_eq_getElem (by omega)]
  rfl

/-- One byte read at a byte-aligned cursor. -/
theorem readBits_byte (s : State) (i : Nat) (v : Byte) (hp : s.pos = 8 * i) (h : s.pbuf.readByte i = some v) :
    readBits 8 s = .ok (bitsN v.toNat 8, s.setPos (8 * (i + 1))) := by
  rw [readBits_ok, hp]
  refine ⟨?_, rfl⟩
  have := getRun_bytes s.pbuf i [v] (by
    intro k hk
    have : k = 0 := by simpa using hk
    subst this
    simpa using h)
  simpa [bitsOf] using this

/-- A byte-aligned read of one byte that answers found a defined byte. -/
theorem readBits_byte_inv (s s1 : State) (i : Nat) (bits : List Bool) (hp : s.pos = 8 * i) (h : readBits 8 s = .ok (bits, s1)) :
    ∃ v, s.pbuf.readByte i = some v ∧ bits = bitsN v.toNat 8 ∧ s1 = s.setPos (8 * (i + 1)) := by
  obtain ⟨hr, rfl⟩ := (readBits_ok _ _ _ _).mp h
  rw [hp] at hr
  obtain ⟨B, hl, rfl, hB⟩ := getRun_bytes_inv _ i 1 _ hr
  obtain ⟨v, rfl⟩ := List.length_eq_one_iff.mp hl
  have := hB 0 (by omega)
  exact ⟨v, by simpa using this, by simp [bitsOf], by rw [hp]; rfl⟩

/-! ### The TOC phase -/

/-- The state after TOC bytes from byte i on were parsed. -/
def afterToc (i : Nat) (tocBytes : List Byte) (s : State) : State :=
  { s with toc := s.toc ++ tocBytes.map parseToc }.setPos (8 * (i + tocBytes.length))

theorem afterToc_cons (i : Nat) (v : Byte) (vs : List Byte) (s : State) :
    afterToc i (v :: vs) s = afterToc (i + 1) vs (appendToc (parseToc v) (s.setPos (8 * (i + 1)))) := by
  unfold afterToc State.setPos appendToc
  simp [Nat.add_assoc, Nat.add_comm 1]

theorem parseToc_f_cases (v : Byte) : (parseToc v).f = 0#1 ∨ (parseToc v).f = 1#1 := by
  have : ∀ x : BitVec 1, x = 0#1 ∨ x = 1#1 := by decide
  exact this _

/-- A chain of TOC bytes that ends in the payload is parsed whole (R163). -/
theorem readToc_ok (plen : Nat) (hplen : plen ≤ 65535) (tocBytes : List Byte) (k i : Nat) (s : State) (hk : tocBytes.length ≤ k)
    (hp : s.pos = 8 * i) (hi : i + tocBytes.length ≤ plen) (hc : TocChain tocBytes) (hb : HoldsBytes s i tocBytes) :
    readToc plen k s = .ok (true, afterToc i tocBytes s) := by
  induction tocBytes generalizing k i s with
  | nil => exact absurd hc id
  | cons v vs ih =>
    cases k with
    | zero => simp at hk
    | succ k =>
      simp only [List.length_cons] at hi hk
      have hv : s.pbuf.readByte i = some v := by simpa using hb 0 (by simp)
      have hpd : ¬ plen ≤ s.pos / 8 := by rw [hp]; omega
      have hparse : parseToc (byteOf (bitsN v.toNat 8)) = parseToc v := by
        have := byteOf_bitsN v []
        rw [List.append_nil] at this
        rw [this]
      simp only [readToc, if_neg hpd, readBits_byte s i v hp hv, hparse]
      cases vs with
      | nil =>
        have hf : (parseToc v).f = 0#1 := hc
        rw [if_pos hf]
        simp [afterToc, appendToc, State.setPos]
      | cons w ws =>
        obtain ⟨hf, hc'⟩ := hc
        rw [if_neg (by rw [hf]; decide)]
        rw [ih k (i + 1) (appendToc (parseToc v) (s.setPos (8 * (i + 1)))) (by omega) (pos_setPos _ s (by omega)) (by omega) hc' (by
          intro j hj
          have := hb (j + 1) (by simpa using hj)
          rw [show i + 1 + j = i + (j + 1) by omega]
          simpa using this)]
        rw [afterToc_cons i v (w :: ws) s]

/-- A payload whose TOC never ends is parsed to its end and rejected (R163, R172). -/
theorem readToc_exhausted (plen : Nat) (hplen : plen ≤ 65535) (tocBytes : List Byte) (k i : Nat) (s : State)
    (hk : tocBytes.length ≤ k) (hp : s.pos = 8 * i) (hi : i + tocBytes.length = plen)
    (hc : ∀ v ∈ tocBytes, (parseToc v).f = 1#1) (hb : HoldsBytes s i tocBytes) :
    readToc plen k s = .ok (false, afterToc i tocBytes s) := by
  induction tocBytes generalizing k i s with
  | nil =>
    have e : afterToc i [] s = s := by
      have : afterToc i [] s = s.setPos (8 * i) := by simp [afterToc]
      rw [this, ← hp, setPos_pos]
    cases k with
    | zero => simp [readToc, e]
    | succ k =>
      have hpd : plen ≤ s.pos / 8 := by rw [hp]; simp at hi; omega
      simp [readToc, hpd, e]
  | cons v vs ih =>
    cases k with
    | zero => simp at hk
    | succ k =>
      simp only [List.length_cons] at hi hk
      have hv : s.pbuf.readByte i = some v := by simpa using hb 0 (by simp)
      have hpd : ¬ plen ≤ s.pos / 8 := by rw [hp]; omega
      have hparse : parseToc (byteOf (bitsN v.toNat 8)) = parseToc v := by
        have := byteOf_bitsN v []
        rw [List.append_nil] at this
        rw [this]
      simp only [readToc, if_neg hpd, readBits_byte s i v hp hv, hparse]
      rw [if_neg (by rw [hc v (by simp)]; decide)]
      rw [ih k (i + 1) (appendToc (parseToc v) (s.setPos (8 * (i + 1)))) (by omega) (pos_setPos _ s (by omega)) (by omega) (fun x hx => hc x (by simp [hx])) (by
        intro j hj
        have := hb (j + 1) (by simpa using hj)
        rw [show i + 1 + j = i + (j + 1) by omega]
        simpa using this)]
      rw [afterToc_cons i v vs s]

/-- Whatever the TOC phase answers, it parsed defined bytes inside the payload and moved only the cursor and the scratch. -/
theorem readToc_inv (plen : Nat) (hplen : plen ≤ 65535) (k i : Nat) (s : State) (ok : Bool) (s1 : State)
    (hp : s.pos = 8 * i) (hi : i ≤ plen) (h : readToc plen k s = .ok (ok, s1)) :
    ∃ tocBytes, s1 = afterToc i tocBytes s ∧ i + tocBytes.length ≤ plen ∧ HoldsBytes s i tocBytes ∧
      (ok = true → TocChain tocBytes) ∧ (ok = false → ∀ v ∈ tocBytes, (parseToc v).f = 1#1) := by
  induction k generalizing i s with
  | zero =>
    simp only [readToc, Except.ok.injEq, Prod.mk.injEq] at h
    obtain ⟨rfl, rfl⟩ := h
    refine ⟨[], ?_, by simpa using hi, by intro k hk; simp at hk, by simp, by simp⟩
    have : afterToc i [] s = s.setPos (8 * i) := by simp [afterToc]
    rw [this, ← hp, setPos_pos]
  | succ k ih =>
    simp only [readToc] at h
    split at h
    · simp only [Except.ok.injEq, Prod.mk.injEq] at h
      obtain ⟨rfl, rfl⟩ := h
      refine ⟨[], ?_, by simpa using hi, by intro k hk; simp at hk, by simp, by simp⟩
      have : afterToc i [] s = s.setPos (8 * i) := by simp [afterToc]
      rw [this, ← hp, setPos_pos]
    · rename_i hpd
      rw [hp] at hpd
      split at h
      · cases h
      · rename_i bits s2 hr
        obtain ⟨v, hv, rfl, rfl⟩ := readBits_byte_inv s s2 i bits hp hr
        have hparse : parseToc (byteOf (bitsN v.toNat 8)) = parseToc v := by
          have := byteOf_bitsN v []
          rw [List.append_nil] at this
          rw [this]
        rw [hparse] at h
        split at h
        · rename_i hf
          simp only [Except.ok.injEq, Prod.mk.injEq] at h
          obtain ⟨rfl, rfl⟩ := h
          refine ⟨[v], by simp [afterToc, appendToc, State.setPos], by simp; omega, ?_, fun _ => hf, by simp⟩
          intro j hj
          have : j = 0 := by simpa using hj
          subst this
          simpa using hv
        · rename_i hf
          obtain ⟨vs, h1, h2, h3, h4, h5⟩ := ih (i + 1) (appendToc (parseToc v) (s.setPos (8 * (i + 1)))) (pos_setPos _ s (by omega)) (by omega) h
          have hf1 : (parseToc v).f = 1#1 := (parseToc_f_cases v).resolve_left hf
          refine ⟨v :: vs, by rw [h1, afterToc_cons], by simp; omega, ?_, ?_, ?_⟩
          · intro j hj
            cases j with
            | zero => simpa using hv
            | succ j =>
              have := h3 j (by simpa using hj)
              rw [show i + (j + 1) = i + 1 + j by omega]
              simpa using this
          · intro hok
            cases vs with
            | nil => exact absurd (h4 hok) id
            | cons w ws => exact ⟨hf1, h4 hok⟩
          · intro hok x hx
            rcases List.mem_cons.mp hx with rfl | hx
            · exact hf1
            · exact h5 hok x hx

/-! ### The speech phase -/

/-- Output slots from k on take these frames. -/
def setSlots : Nat → List PcmFrame → List (Option PcmFrame) → List (Option PcmFrame)
  | _, [], l      => l
  | k, x :: xs, l => setSlots (k + 1) xs (l.set k (some x))

@[simp] theorem setSlots_length (k : Nat) (xs : List PcmFrame) (l : List (Option PcmFrame)) :
    (setSlots k xs l).length = l.length := by
  induction xs generalizing k l with
  | nil => rfl
  | cons x xs ih => simp [setSlots, ih]

/-- A slot after the frames were stored (R46): the frames in order, every other slot as before. -/
theorem setSlots_getElem? (k : Nat) (xs : List PcmFrame) (l : List (Option PcmFrame)) (j : Nat) (hl : k + xs.length ≤ l.length) :
    (setSlots k xs l)[j]? = if k ≤ j ∧ j < k + xs.length then some xs[j - k]? else l[j]? := by
  induction xs generalizing k l with
  | nil =>
    have : ¬ (k ≤ j ∧ j < k + ([] : List PcmFrame).length) := by simp only [List.length_nil]; omega
    rw [if_neg this]
    rfl
  | cons x xs ih =>
    simp only [List.length_cons] at hl
    simp only [setSlots]
    rw [ih (k + 1) _ (by simp; omega)]
    by_cases h1 : j = k
    · subst h1
      have : ¬ (j + 1 ≤ j ∧ j < j + 1 + xs.length) := by omega
      rw [if_neg this, if_pos ⟨Nat.le_refl j, by simp⟩, List.getElem?_set_self (by omega)]
      simp
    · rw [List.getElem?_set_ne (by omega)]
      by_cases h2 : k + 1 ≤ j ∧ j < k + 1 + xs.length
      · rw [if_pos h2, if_pos (by simp only [List.length_cons]; omega), show j - k = (j - (k + 1)) + 1 by omega]
        rfl
      · rw [if_neg h2, if_neg (by simp only [List.length_cons]; omega)]

/-- The bytes of the frames, one after another. -/
def frameBytes (frames : List (TocEntry × List Byte)) : List Byte := frames.flatMap (fun x => x.2)

/-- The state after these frames were decoded, from byte i on, into the slots from nd on. -/
def afterDecode (i nd : Nat) (frames : List (TocEntry × List Byte)) (s : State) : State :=
  { s with pcmOut := setSlots nd (decodeReplies frames s) s.pcmOut, calls := s.calls ++ decodeCalls frames s,
           draws := s.draws + frames.length }.setPos (8 * (i + (frameBytes frames).length))

theorem afterDecode_nil (i nd : Nat) (s : State) (hp : s.pos = 8 * i) : afterDecode i nd [] s = s := by
  have : afterDecode i nd [] s = s.setPos (8 * i) := by
    simp [afterDecode, frameBytes, setSlots, decodeReplies, decodeCalls]
  rw [this, ← hp, setPos_pos]

/-- One decode call and its slot. -/
def oneDecode (i nd : Nat) (e : TocEntry) (b : List Byte) (s : State) : State :=
  writePcmOut nd (codecDecode (e.ft.zeroExtend 8) e.q b (s.setPos (8 * (i + b.length)))).1
    (codecDecode (e.ft.zeroExtend 8) e.q b (s.setPos (8 * (i + b.length)))).2

theorem afterDecode_cons (i nd : Nat) (e : TocEntry) (b : List Byte) (frames : List (TocEntry × List Byte)) (s : State) :
    afterDecode i nd ((e, b) :: frames) s = afterDecode (i + b.length) (nd + 1) frames (oneDecode i nd e b s) := by
  have ha : decodeAnswer (e.ft.zeroExtend 8) e.q b (s.setPos (8 * (i + b.length))) = decodeAnswer (e.ft.zeroExtend 8) e.q b s :=
    decodeAnswer_congr _ _ _ rfl rfl rfl
  have h1 := decodeReplies_congr frames (t := oneDecode i nd e b s)
    (s := recordCall (.decode (e.ft.zeroExtend 8) e.q b (decodeAnswer (e.ft.zeroExtend 8) e.q b s)) s)
    rfl (by unfold oneDecode codecDecode; rw [ha]; rfl) rfl
  have h2 := decodeCalls_congr frames (t := oneDecode i nd e b s)
    (s := recordCall (.decode (e.ft.zeroExtend 8) e.q b (decodeAnswer (e.ft.zeroExtend 8) e.q b s)) s)
    rfl (by unfold oneDecode codecDecode; rw [ha]; rfl) rfl
  conv => rhs; unfold afterDecode
  rw [h1, h2]
  conv => lhs; unfold afterDecode
  simp only [decodeReplies, decodeCalls]
  generalize decodeReplies frames _ = rs
  generalize decodeCalls frames _ = cs
  unfold oneDecode codecDecode
  rw [ha]
  simp [writePcmOut, recordCall, State.setPos, setSlots, frameBytes, Nat.add_assoc, Nat.add_comm]

/-- Entries whose speech frames lie in the payload are decoded, markers skipped (R165 to R168). -/
theorem decodeFrames_append (plen : Nat) (hplen : plen ≤ 65535) (es rest : List TocEntry) (frames : List (TocEntry × List Byte))
    (i nd : Nat) (s : State) (hes : es.filter isSpeech = frames.map (fun x => x.1)) (hf : FramesFit frames)
    (hp : s.pos = 8 * i) (hi : i + (frameBytes frames).length ≤ plen) (hb : HoldsBytes s i (frameBytes frames)) :
    decodeFrames plen (es ++ rest) nd s =
      decodeFrames plen rest (nd + frames.length) (afterDecode i nd frames s) := by
  induction es generalizing frames i nd s with
  | nil =>
    have : frames = [] := by simpa using hes.symm
    subst this
    simp [afterDecode_nil i nd s hp]
  | cons e es ih =>
    by_cases he : isSpeech e = true
    · cases frames with
      | nil => simp [he] at hes
      | cons fr frames =>
        obtain ⟨e', b⟩ := fr
        simp only [List.filter_cons, he, if_true, List.map_cons, List.cons.injEq] at hes
        obtain ⟨rfl, hes⟩ := hes
        have hlen : b.length = nbytes e.ft.toNat := hf (e, b) (by simp)
        have hbytes : frameBytes ((e, b) :: frames) = b ++ frameBytes frames := by simp [frameBytes]
        rw [hbytes] at hi hb
        simp only [List.length_append] at hi
        have h7 : ¬ 7 < e.ft.toNat := by
          have : e.ft.toNat ≤ 7 := by simpa [isSpeech] using he
          omega
        have hin : ¬ plen < s.pos / 8 + nbytes e.ft.toNat := by rw [hp, ← hlen]; omega
        have hrun : s.pbuf.getRun (8 * i) (8 * b.length) = .ok (bitsOf b) := by
          apply getRun_bytes
          intro k hk
          have := hb k (by simp; omega)
          rw [this, List.getElem?_append_left hk]
        have hread : readBits (8 * nbytes e.ft.toNat) s = .ok (bitsOf b, s.setPos (8 * (i + b.length))) := by
          rw [readBits_ok, hp, ← hlen]
          exact ⟨hrun, by rw [Nat.mul_add]⟩
        simp only [List.cons_append, decodeFrames, if_neg h7, if_neg hin, hread, bytesOf_bitsOf]
        have := ih frames (i + b.length) (nd + 1) (oneDecode i nd e b s) hes (fun x hx => hf x (by simp [hx]))
          (pos_setPos _ s (by omega)) (by omega) (by
            intro k hk
            have := hb (b.length + k) (by simp; omega)
            rw [show i + b.length + k = i + (b.length + k) by omega]
            have hpb : (oneDecode i nd e b s).pbuf = s.pbuf := rfl
            rw [hpb, this, List.getElem?_append_right (by omega), Nat.add_sub_cancel_left])
        rw [afterDecode_cons, List.length_cons, show nd + (frames.length + 1) = nd + 1 + frames.length by omega, ← this]
        rfl
    · have h7 : 7 < e.ft.toNat := by
        have : ¬ e.ft.toNat ≤ 7 := by simpa [isSpeech] using he
        omega
      simp only [List.cons_append, decodeFrames, if_pos h7]
      exact ih frames i nd s (by simpa [List.filter_cons, he] using hes) hf hp hi hb

/-- Whatever the speech phase answers, it decoded frames that lie in the payload, in TOC order, and stored them. -/
theorem decodeFrames_inv (plen : Nat) (hplen : plen ≤ 65535) (es : List TocEntry) (i nd : Nat) (s : State)
    (tr : Bool) (nd' : Nat) (s1 : State) (hp : s.pos = 8 * i) (hi : i ≤ plen) (h : decodeFrames plen es nd s = .ok (tr, nd', s1)) :
    ∃ frames, s1 = afterDecode i nd frames s ∧ nd' = nd + frames.length ∧ FramesFit frames ∧
      i + (frameBytes frames).length ≤ plen ∧ HoldsBytes s i (frameBytes frames) ∧
      frames.length ≤ (es.filter isSpeech).length ∧
      (tr = false → es.filter isSpeech = frames.map (fun x => x.1)) := by
  induction es generalizing i nd s with
  | nil =>
    simp only [decodeFrames, Except.ok.injEq, Prod.mk.injEq] at h
    obtain ⟨rfl, rfl, rfl⟩ := h
    exact ⟨[], (afterDecode_nil i nd s hp).symm, rfl, by intro x hx; simp at hx, by simpa [frameBytes] using hi,
      by intro k hk; simp [frameBytes] at hk, by simp, by simp⟩
  | cons e es ih =>
    simp only [decodeFrames] at h
    split at h
    · rename_i h7
      have he : isSpeech e = false := by simp [isSpeech]; omega
      obtain ⟨frames, h1, h2, h3, h4, h5, h6, h8⟩ := ih i nd s hp hi h
      exact ⟨frames, h1, h2, h3, h4, h5, by simpa [List.filter_cons, he] using h6, by simpa [List.filter_cons, he] using h8⟩
    · rename_i h7
      have he : isSpeech e = true := by simp [isSpeech]; omega
      split at h
      · simp only [Except.ok.injEq, Prod.mk.injEq] at h
        obtain ⟨rfl, rfl, rfl⟩ := h
        exact ⟨[], (afterDecode_nil i nd s hp).symm, rfl, by intro x hx; simp at hx, by simpa [frameBytes] using hi,
          by intro k hk; simp [frameBytes] at hk, by simp, by simp⟩
      · rename_i hin
        rw [hp] at hin
        split at h
        · cases h
        · rename_i bits s2 hr
          obtain ⟨hrun, rfl⟩ := (readBits_ok _ _ _ _).mp hr
          rw [hp] at hrun
          obtain ⟨B, hl, rfl, hB⟩ := getRun_bytes_inv _ i (nbytes e.ft.toNat) _ hrun
          rw [bytesOf_bitsOf, hp, ← hl, ← Nat.mul_add] at h
          obtain ⟨frames, h1, h2, h3, h4, h5, h6, h8⟩ :=
            ih (i + B.length) (nd + 1) (oneDecode i nd e B s) (pos_setPos _ s (by omega)) (by omega) h
          have hbytes : frameBytes ((e, B) :: frames) = B ++ frameBytes frames := by simp [frameBytes]
          refine ⟨(e, B) :: frames, by rw [h1, afterDecode_cons], by simp [h2]; omega, ?_, ?_, ?_, ?_, ?_⟩
          · intro x hx
            rcases List.mem_cons.mp hx with rfl | hx
            · exact hl
            · exact h3 x hx
          · rw [hbytes, List.length_append]
            omega
          · rw [hbytes]
            intro k hk
            by_cases hkB : k < B.length
            · rw [hB k (by omega), List.getElem?_append_left hkB]
            · have := h5 (k - B.length) (by simp at hk; omega)
              rw [show i + B.length + (k - B.length) = i + k by omega] at this
              have hpb : (oneDecode i nd e B s).pbuf = s.pbuf := rfl
              rw [hpb] at this
              rw [this, List.getElem?_append_right (by omega)]
          · simp [he, h6]
          · intro htr
            simp [he, h8 htr]

/-! ### Where the phases stop -/

/-- The TOC phase stops exactly at the first undefined bit of a TOC byte in the payload that follows entries with F = 1
(R163, R215). -/
theorem readToc_stops (plen : Nat) (hplen : plen ≤ 65535) (k i : Nat) (s : State) (g : Fault) (hp : s.pos = 8 * i)
    (hk : plen ≤ i + k) :
    readToc plen k s = .error g ↔ ∃ tocBytes p, (∀ v ∈ tocBytes, (parseToc v).f = 1#1) ∧ HoldsBytes s i tocBytes ∧
      i + tocBytes.length < plen ∧ g = .undefinedBit p ∧ FirstUndefined s (8 * (i + tocBytes.length)) p ∧
      p < 8 * (i + tocBytes.length + 1) := by
  induction k generalizing i s with
  | zero =>
    constructor
    · intro h
      cases h
    · rintro ⟨l, p, -, -, h, -⟩
      omega
  | succ k ih =>
    have hparse : ∀ v : Byte, parseToc (byteOf (bitsN v.toNat 8)) = parseToc v := by
      intro v
      have := byteOf_bitsN v []
      rw [List.append_nil] at this
      rw [this]
    constructor
    · intro h
      simp only [readToc] at h
      split at h
      · cases h
      · rename_i hpd
        rw [hp] at hpd
        split at h
        · rename_i f hr
          cases h
          obtain ⟨p, rfl, hu, hlt⟩ := (readBits_stops _ _ _).mp hr
          rw [hp] at hu hlt
          exact ⟨[], p, by simp, by intro k hk; simp at hk, by simp; omega, rfl, by simpa using hu, by simp; omega⟩
        · rename_i bits s2 hr
          obtain ⟨v, hv, rfl, rfl⟩ := readBits_byte_inv s s2 i bits hp hr
          rw [hparse] at h
          split at h
          · cases h
          · rename_i hf
            have hf1 : (parseToc v).f = 1#1 := (parseToc_f_cases v).resolve_left hf
            obtain ⟨l, p, h1, h2, h3, h4, h5, h6⟩ := (ih (i + 1) (appendToc (parseToc v) (s.setPos (8 * (i + 1))))
              (pos_setPos _ s (by omega)) (by omega)).mp h
            have e : i + (v :: l).length = i + 1 + l.length := by simp; omega
            refine ⟨v :: l, p, ?_, ?_, by omega, h4, by rw [e]; exact h5, by rw [e]; exact h6⟩
            · intro x hx
              rcases List.mem_cons.mp hx with rfl | hx
              · exact hf1
              · exact h1 x hx
            · intro j hj
              cases j with
              | zero => simpa using hv
              | succ j =>
                have := h2 j (by simpa using hj)
                rw [show i + (j + 1) = i + 1 + j by omega]
                simpa using this
    · rintro ⟨l, p, h1, h2, h3, rfl, h5, h6⟩
      have hpd : ¬ plen ≤ s.pos / 8 := by rw [hp]; omega
      simp only [readToc, if_neg hpd]
      cases l with
      | nil =>
        simp only [List.length_nil, Nat.add_zero] at h3 h5 h6
        have hr : readBits 8 s = .error (.undefinedBit p) :=
          (readBits_stops 8 s _).mpr ⟨p, rfl, by rw [hp]; exact h5, by rw [hp]; omega⟩
        simp only [hr]
      | cons v l =>
        have e : i + (v :: l).length = i + 1 + l.length := by simp; omega
        have hv : s.pbuf.readByte i = some v := by simpa using h2 0 (by simp)
        simp only [readBits_byte s i v hp hv, hparse]
        rw [if_neg (by rw [h1 v (by simp)]; decide)]
        rw [e] at h3 h5 h6
        refine (ih (i + 1) (appendToc (parseToc v) (s.setPos (8 * (i + 1)))) (pos_setPos _ s (by omega)) (by omega)).mpr
          ⟨l, p, fun x hx => h1 x (by simp [hx]), ?_, by omega, rfl, h5, h6⟩
        intro j hj
        have := h2 (j + 1) (by simpa using hj)
        rw [show i + 1 + j = i + (j + 1) by omega]
        simpa using this

/-- The speech phase stops exactly at the first undefined bit of a speech frame in the payload, after the frames before it
(R165 to R168, R215). -/
theorem decodeFrames_stops (plen : Nat) (hplen : plen ≤ 65535) (es : List TocEntry) (i nd : Nat) (s : State) (g : Fault)
    (hp : s.pos = 8 * i) (hi : i ≤ plen) :
    decodeFrames plen es nd s = .error g ↔ ∃ before e after frames p, es = before ++ e :: after ∧ e.ft.toNat ≤ 7 ∧
      frames.map (fun x => x.1) = before.filter isSpeech ∧ FramesFit frames ∧ HoldsBytes s i (frameBytes frames) ∧
      i + (frameBytes frames).length + nbytes e.ft.toNat ≤ plen ∧ g = .undefinedBit p ∧
      FirstUndefined s (8 * (i + (frameBytes frames).length)) p ∧
      p < 8 * (i + (frameBytes frames).length + nbytes e.ft.toNat) := by
  constructor
  · intro h
    induction es generalizing i nd s with
    | nil => cases h
    | cons e es ih =>
      simp only [decodeFrames] at h
      split at h
      · rename_i h7
        have he : isSpeech e = false := by simp [isSpeech]; omega
        obtain ⟨before, e', after, frames, p, rfl, h2, h3, h4⟩ := ih i nd s hp hi h
        exact ⟨e :: before, e', after, frames, p, rfl, h2, by simpa [List.filter_cons, he] using h3, h4⟩
      · rename_i h7
        have he : isSpeech e = true := by simp [isSpeech]; omega
        split at h
        · cases h
        · rename_i hin
          rw [hp] at hin
          split at h
          · rename_i f hr
            cases h
            obtain ⟨p, rfl, hu, hlt⟩ := (readBits_stops _ _ _).mp hr
            rw [hp] at hu hlt
            exact ⟨[], e, es, [], p, rfl, by omega, by simp, by intro x hx; simp at hx, by intro k hk; simp [frameBytes] at hk,
              by simp [frameBytes]; omega, rfl, by simpa [frameBytes] using hu, by simp [frameBytes]; omega⟩
          · rename_i bits s2 hr
            obtain ⟨hrun, rfl⟩ := (readBits_ok _ _ _ _).mp hr
            rw [hp] at hrun
            obtain ⟨B, hl, rfl, hB⟩ := getRun_bytes_inv _ i (nbytes e.ft.toNat) _ hrun
            rw [bytesOf_bitsOf, hp, ← hl, ← Nat.mul_add] at h
            obtain ⟨before, e', after, frames, p, rfl, h2, h3, h4, h5, h6, h7', h8, h9⟩ :=
              ih (i + B.length) (nd + 1) (oneDecode i nd e B s) (pos_setPos _ s (by omega)) (by omega) h
            have hbytes : frameBytes ((e, B) :: frames) = B ++ frameBytes frames := by simp [frameBytes]
            have hlen : i + (frameBytes ((e, B) :: frames)).length = i + B.length + (frameBytes frames).length := by
              rw [hbytes, List.length_append]
              omega
            refine ⟨e :: before, e', after, (e, B) :: frames, p, rfl, h2, by simp [he, h3], ?_, ?_, by rw [hlen]; exact h6, h7',
              by rw [hlen]; exact h8, by rw [hlen]; exact h9⟩
            · intro x hx
              rcases List.mem_cons.mp hx with rfl | hx
              · exact hl
              · exact h4 x hx
            · rw [hbytes]
              intro k hk
              by_cases hkB : k < B.length
              · rw [hB k (by omega), List.getElem?_append_left hkB]
              · have := h5 (k - B.length) (by simp at hk; omega)
                rw [show i + B.length + (k - B.length) = i + k by omega] at this
                have hpb : (oneDecode i nd e B s).pbuf = s.pbuf := rfl
                rw [hpb] at this
                rw [this, List.getElem?_append_right (by omega)]
  · rintro ⟨before, e, after, frames, p, rfl, h2, h3, h4, h5, h6, rfl, h8, h9⟩
    rw [decodeFrames_append plen hplen before (e :: after) frames i nd s h3.symm h4 hp (by omega) h5]
    have hpos : (afterDecode i nd frames s).pos = 8 * (i + (frameBytes frames).length) := pos_setPos _ _ (by omega)
    have hr : readBits (8 * nbytes e.ft.toNat) (afterDecode i nd frames s) = .error (.undefinedBit p) := by
      rw [readBits_stops, hpos]
      exact ⟨p, rfl, h8, by omega⟩
    simp only [decodeFrames, if_neg (show ¬ 7 < e.ft.toNat by omega), hpos,
      if_neg (show ¬ plen < 8 * (i + (frameBytes frames).length) / 8 + nbytes e.ft.toNat by omega), hr]

end Sys2Proof.Laws
end

