-- ==== Sys2Proof/Laws/Exec.lean ====
section
/-! SUPPORT. Inversions: everything PACK, UNPACK, any command and any step can do when it answers a next state. -/

namespace Sys2Proof.Laws

open Sys2Proof.Machine Sys2Proof.Config Sys2Proof.Safety

/-! ### PACK (R140 to R147) -/

/-- PACK after phase 1, from the state `s` before it. -/
def packAfter (frames : List PcmFrame) (s : State) : State :=
  afterEncode (encodeReplies frames s) (encodeCalls frames s) frames.length { s with staging := [] }

/-- PACK after phase 3: the wire form in PBUF, the cursor behind it, the results (R145, R146, R149). -/
def packDone (cmr : BitVec 4) (nfr : BitVec 8) (frames : List PcmFrame) (s : State) : State :=
  { wrote (bitsOf (wirePayload cmr (encodeReplies frames s))) (packAfter frames s) with
    resLen := BitVec.ofNat 16 (wirePayload cmr (encodeReplies frames s)).length, ntoc := nfr.zeroExtend 16, ndec := 0#16 }

/-- Phases 2 and 3 of PACK on replies that keep the length contract: the capacity check, then the wire form (R144 to R146). -/
theorem packStaged_eq (cmr : BitVec 4) (nfr : BitVec 8) (frames : List PcmFrame) (s : State)
    (h : ∀ r ∈ encodeReplies frames s, r.bytes.length = nbytes r.mode.toNat) :
    packStaged cmr nfr (packAfter frames s) =
      if s.argLen.toNat < payloadLen (stagedModes (encodeReplies frames s)) then packFail .bufferTooSmall (packAfter frames s)
      else finish (packDone cmr nfr frames s) := by
  have hst : (packAfter frames s).staging = encodeReplies frames s := by simp [packAfter, afterEncode]
  have harg : (packAfter frames s).argLen = s.argLen := rfl
  have hlt := s.argLen.isLt
  unfold packStaged
  rw [hst, harg]
  by_cases hc : s.argLen.toNat < payloadLen (stagedModes (encodeReplies frames s))
  · rw [if_pos hc, if_pos hc]
  · rw [if_neg hc, if_neg hc]
    have hw := serialise_wrote cmr (packAfter frames s) (by rw [hst]; exact h) (by rw [hst]; omega)
    rw [hst] at hw
    have hlen := wirePayload_length cmr (encodeReplies frames s) h
    have hp : (serialise cmr (packAfter frames s)).pos = 8 * (wirePayload cmr (encodeReplies frames s)).length := by
      rw [hw]
      unfold wrote
      rw [pos_setPos _ _ (by simp; omega)]
      simp
    unfold packResults
    rw [hp, if_neg (by omega), hw, show 8 * (wirePayload cmr (encodeReplies frames s)).length / 8 =
      (wirePayload cmr (encodeReplies frames s)).length by omega]
    rfl

/-- Every way PACK answers a next state, in the order of its checks (R140, R141, R143, R144, R146). -/
theorem execPack_cases (cmr : BitVec 4) (nfr : BitVec 8) (s t : State) (h : execPack cmr nfr s = .next t) :
    (packIllegal nfr s = true ∧ t = raiseErr .illegalCommand s) ∨
    (packIllegal nfr s = false ∧ s.hstate ≠ .live ∧ t = packFail .uninitializedCodec s) ∨
    (packIllegal nfr s = false ∧ s.hstate = .live ∧ ∃ frames, frames.length ≤ nfr.toNat ∧
      (∀ i, i < frames.length → s.pcmIn.getD i none = frames[i]?) ∧
      (∀ r ∈ encodeReplies frames s, replyKeepsContract r = true) ∧
      ((∃ rs r, encodeReplies frames s = rs ++ [r] ∧ 7 < r.mode.toNat ∧ (∀ r' ∈ rs, r'.mode.toNat ≤ 7) ∧
          t = packFail .invalidModeIndex (packAfter frames s)) ∨
       (frames.length = nfr.toNat ∧
         (∀ r ∈ encodeReplies frames s, r.mode.toNat ≤ 7 ∧ r.bytes.length = nbytes r.mode.toNat) ∧
         ((s.argLen.toNat < payloadLen (stagedModes (encodeReplies frames s)) ∧
             t = packFail .bufferTooSmall (packAfter frames s)) ∨
          (payloadLen (stagedModes (encodeReplies frames s)) ≤ s.argLen.toNat ∧
             t = finish (packDone cmr nfr frames s)))))) := by
  unfold execPack at h
  split at h
  · rename_i hi
    exact .inl ⟨hi, (Host.Outcome.next.inj h).symm⟩
  · rename_i hi
    have hi' : packIllegal nfr s = false := by simpa using hi
    split at h
    · rename_i hs
      exact .inr (.inl ⟨hi', hs, (Host.Outcome.next.inj h).symm⟩)
    · rename_i hs
      have hs' : s.hstate = .live := by simpa using hs
      refine .inr (.inr ⟨hi', hs', ?_⟩)
      have key : ∀ ok s1, encodeFrames nfr.toNat 0 { s with staging := [] } = .ok (ok, s1) →
          ∃ frames, s1 = packAfter frames s ∧ frames.length ≤ nfr.toNat ∧
            (∀ i, i < frames.length → s.pcmIn.getD i none = frames[i]?) ∧
            (∀ r ∈ encodeReplies frames s, replyKeepsContract r = true) ∧
            (ok = true → frames.length = nfr.toNat ∧ ∀ r ∈ encodeReplies frames s, r.mode.toNat ≤ 7) ∧
            (ok = false → ∃ rs r, encodeReplies frames s = rs ++ [r] ∧ 7 < r.mode.toNat ∧ ∀ r' ∈ rs, r'.mode.toNat ≤ 7) := by
        intro ok s1 he
        obtain ⟨frames, h1, h2, h3, h4, h5, h6⟩ := encodeFrames_inv _ _ _ _ _ he
        have hcongr := encodeReplies_congr frames (s := s) (t := { s with staging := [] }) rfl rfl rfl
        have hcongr2 := encodeCalls_congr frames (s := s) (t := { s with staging := [] }) rfl rfl rfl
        rw [hcongr, hcongr2] at h1
        rw [hcongr] at h4 h5 h6
        exact ⟨frames, h1, h2, by simpa using h3, h4, h5, h6⟩
      split at h
      · cases h
      · rename_i s1 he
        obtain ⟨frames, rfl, h2, h3, h4, -, h6⟩ := key _ _ he
        obtain ⟨rs, r, h7, h8, h9⟩ := h6 rfl
        exact ⟨frames, h2, h3, h4, .inl ⟨rs, r, h7, h8, h9, (Host.Outcome.next.inj h).symm⟩⟩
      · rename_i s1 he
        obtain ⟨frames, rfl, h2, h3, h4, h5, -⟩ := key _ _ he
        obtain ⟨h7, h8⟩ := h5 rfl
        have h9 : ∀ r ∈ encodeReplies frames s, r.mode.toNat ≤ 7 ∧ r.bytes.length = nbytes r.mode.toNat := by
          intro r hr
          have hm := h8 r hr
          have hk := h4 r hr
          unfold replyKeepsContract at hk
          have : ¬ 7 < r.mode.toNat := by omega
          simpa [this, hm] using hk
        refine ⟨frames, h2, h3, h4, .inr ⟨h7, h9, ?_⟩⟩
        rw [packStaged_eq cmr nfr frames s (fun r hr => (h9 r hr).2)] at h
        split at h
        · rename_i hc
          exact .inl ⟨hc, (Host.Outcome.next.inj h).symm⟩
        · rename_i hc
          exact .inr ⟨by omega, (Host.Outcome.next.inj h).symm⟩

/-- PACK on defined slots and valid replies, phase 1 passed (R143). -/
theorem execPack_staged (cmr : BitVec 4) (nfr : BitVec 8) (s : State) (frames : List PcmFrame)
    (hi : packIllegal nfr s = false) (hs : s.hstate = .live) (hl : frames.length = nfr.toNat)
    (hin : ∀ k, k < nfr.toNat → s.pcmIn[k]? = some frames[k]?)
    (hr : ∀ r ∈ encodeReplies frames s, r.mode.toNat ≤ 7 ∧ r.bytes.length = nbytes r.mode.toNat) :
    execPack cmr nfr s = .next (packStaged cmr nfr (packAfter frames s)) := by
  have hcongr := encodeReplies_congr frames (s := s) (t := { s with staging := [] }) rfl rfl rfl
  have hcongr2 := encodeCalls_congr frames (s := s) (t := { s with staging := [] }) rfl rfl rfl
  have he := encodeFrames_ok frames 0 { s with staging := [] } (by
    intro i hi2
    have := hin i (by omega)
    simp [List.getD, this]) (by rw [hcongr]; exact hr)
  rw [hcongr, hcongr2, hl] at he
  unfold execPack
  rw [if_neg (by simp [hi]), if_neg (by simp [hs]), he]
  simp only [packAfter, hl]

/-! ### UNPACK (R160 to R173) -/

/-- UNPACK after the CMR byte and the TOC phase. -/
def unpackRead (cmrByte : Byte) (tocBytes : List Byte) (s : State) : State :=
  afterToc 1 tocBytes (recordCmr cmrByte (unpackStart s))

@[simp] theorem unpackStart_pbuf (s : State) : (unpackStart s).pbuf = s.pbuf := rfl

theorem unpackStart_pos (s : State) : (unpackStart s).pos = 0 := pos_setPos 0 _ (by omega)

/-- Every way UNPACK answers a next state, in the order of its checks (R160 to R173). -/
theorem execUnpack_cases (outcap : BitVec 8) (s t : State) (h : execUnpack outcap s = .next t) :
    (unpackIllegal outcap s = true ∧ t = raiseErr .illegalCommand s) ∨
    (unpackIllegal outcap s = false ∧ s.hstate ≠ .live ∧ t = raiseErr .uninitializedCodec (zeroResults s)) ∨
    (unpackIllegal outcap s = false ∧ s.hstate = .live ∧
      ((s.argLen.toNat = 0 ∧ t = raiseErr .malformedPayload (unpackResults 0 (unpackStart s))) ∨
       (∃ cmrByte tocBytes, HoldsBytes s 0 (cmrByte :: tocBytes) ∧ 1 + tocBytes.length ≤ s.argLen.toNat ∧
         (((∀ v ∈ tocBytes, (parseToc v).f = 1#1) ∧
             t = raiseErr .malformedPayload (unpackResults 0 (unpackRead cmrByte tocBytes s))) ∨
          (TocChain tocBytes ∧ outcap.toNat < (speechEntries tocBytes).length ∧
             t = raiseErr .bufferTooSmall (unpackResults 0 (unpackRead cmrByte tocBytes s))) ∨
          (TocChain tocBytes ∧ (speechEntries tocBytes).length ≤ outcap.toNat ∧ ∃ tr frames, FramesFit frames ∧
             1 + tocBytes.length + (frameBytes frames).length ≤ s.argLen.toNat ∧
             HoldsBytes s (1 + tocBytes.length) (frameBytes frames) ∧ frames.length ≤ (speechEntries tocBytes).length ∧
             (tr = false → speechEntries tocBytes = frames.map (fun x => x.1)) ∧
             t = unpackEnd (tr, frames.length,
               afterDecode (1 + tocBytes.length) 0 frames (unpackRead cmrByte tocBytes s))))))) := by
  have hplen : s.argLen.toNat ≤ 65535 := by have := s.argLen.isLt; omega
  unfold execUnpack at h
  split at h
  · rename_i hi
    exact .inl ⟨hi, (Host.Outcome.next.inj h).symm⟩
  · rename_i hi
    have hi' : unpackIllegal outcap s = false := by simpa using hi
    split at h
    · rename_i hs
      exact .inr (.inl ⟨hi', hs, (Host.Outcome.next.inj h).symm⟩)
    · rename_i hs
      have hs' : s.hstate = .live := by simpa using hs
      refine .inr (.inr ⟨hi', hs', ?_⟩)
      unfold unpackPayload at h
      split at h
      · rename_i hz
        exact .inl ⟨by omega, (Host.Outcome.next.inj h).symm⟩
      · rename_i hz
        split at h
        · cases h
        · rename_i bits s1 hr
          obtain ⟨v, hv, rfl, rfl⟩ := readBits_byte_inv _ s1 0 bits (by rw [unpackStart_pos]) hr
          have hbyte : byteOf (bitsN v.toNat 8) = v := by
            have := byteOf_bitsN v []
            rwa [List.append_nil] at this
          rw [hbyte] at h
          have hv' : s.pbuf.readByte 0 = some v := hv
          have e0 : recordCmr v ((unpackStart s).setPos (8 * (0 + 1))) = (recordCmr v (unpackStart s)).setPos 8 := rfl
          rw [e0] at h
          have hp1 : ((recordCmr v (unpackStart s)).setPos 8).pos = 8 * 1 := pos_setPos 8 _ (by omega)
          have hread : ∀ l, afterToc 1 l ((recordCmr v (unpackStart s)).setPos 8) = unpackRead v l s := fun _ => rfl
          unfold unpackToc at h
          split at h
          · cases h
          · rename_i s2 ht
            obtain ⟨l, rfl, h2, h3, -, h5⟩ := readToc_inv _ hplen _ 1 _ _ _ hp1 (by omega) ht
            refine .inr ⟨v, l, ?_, h2, .inl ⟨h5 rfl, (Host.Outcome.next.inj h).symm⟩⟩
            intro k hk
            cases k with
            | zero => simpa using hv'
            | succ k =>
              have := h3 k (by simpa using hk)
              rw [show 0 + (k + 1) = 1 + k by omega]
              simpa using this
          · rename_i s2 ht
            obtain ⟨l, rfl, h2, h3, h4, -⟩ := readToc_inv _ hplen _ 1 _ _ _ hp1 (by omega) ht
            have hb : HoldsBytes s 0 (v :: l) := by
              intro k hk
              cases k with
              | zero => simpa using hv'
              | succ k =>
                have := h3 k (by simpa using hk)
                rw [show 0 + (k + 1) = 1 + k by omega]
                simpa using this
            have htoc : (unpackRead v l s).toc = l.map parseToc := rfl
            refine .inr ⟨v, l, hb, h2, .inr ?_⟩
            rw [hread] at h
            unfold unpackSpeech at h
            rw [htoc] at h
            split at h
            · rename_i hc
              exact .inl ⟨h4 rfl, hc, (Host.Outcome.next.inj h).symm⟩
            · rename_i hc
              split at h
              · cases h
              · rename_i e he
                obtain ⟨tr, nd, s3⟩ := e
                obtain ⟨frames, g1, g2, g3, g4, g5, g6, g7⟩ :=
                  decodeFrames_inv _ hplen _ (1 + l.length) 0 _ tr nd s3 (pos_setPos _ _ (by omega)) h2 he
                obtain rfl : nd = frames.length := by omega
                subst g1
                refine .inr ⟨h4 rfl, by unfold speechEntries; omega, tr, frames, g3, g4, g5, g6, g7,
                  (Host.Outcome.next.inj h).symm⟩

/-- UNPACK of a payload whose CMR byte and TOC chain are defined and end in the payload (R162, R163). -/
theorem execUnpack_chain (outcap : BitVec 8) (s : State) (cmrByte : Byte) (tocBytes : List Byte)
    (hi : unpackIllegal outcap s = false) (hs : s.hstate = .live) (hl : 1 + tocBytes.length ≤ s.argLen.toNat)
    (hb : HoldsBytes s 0 (cmrByte :: tocBytes)) (hc : TocChain tocBytes) :
    execUnpack outcap s = unpackSpeech outcap s.argLen.toNat (unpackRead cmrByte tocBytes s) := by
  have hplen : s.argLen.toNat ≤ 65535 := by have := s.argLen.isLt; omega
  have hv : s.pbuf.readByte 0 = some cmrByte := by simpa using hb 0 (by simp)
  have hr : readBits 8 (unpackStart s) = .ok (bitsN cmrByte.toNat 8, (unpackStart s).setPos (8 * (0 + 1))) :=
    readBits_byte _ 0 cmrByte (by rw [unpackStart_pos]) hv
  have hbyte : byteOf (bitsN cmrByte.toNat 8) = cmrByte := by
    have := byteOf_bitsN cmrByte []
    rwa [List.append_nil] at this
  have ht := readToc_ok s.argLen.toNat hplen tocBytes s.argLen.toNat 1 ((recordCmr cmrByte (unpackStart s)).setPos 8)
    (by omega) (pos_setPos 8 _ (by omega)) hl hc (by
      intro k hk
      have := hb (k + 1) (by simpa using hk)
      rw [show 0 + (k + 1) = 1 + k by omega] at this
      simpa using this)
  unfold execUnpack
  rw [if_neg (by simp [hi]), if_neg (by simp [hs])]
  unfold unpackPayload
  rw [if_neg (by omega), hr]
  simp only [hbyte]
  rw [show recordCmr cmrByte ((unpackStart s).setPos (8 * (0 + 1))) = (recordCmr cmrByte (unpackStart s)).setPos 8 from rfl]
  unfold unpackToc
  rw [ht]
  rfl

/-! ### Scratch and call history -/

/-- Completion leaves the scratch areas within their capacities (R43, R44). -/
theorem completeWith_scratchSized (e : ErrCode) (s : State) : ScratchSized (completeWith e s) := by
  refine ⟨?_, ?_, ?_⟩
  · show (unspecifiedToc s).length ≤ s.params.bufCap
    simp [unspecifiedToc]
  · show (unspecifiedStaging s).length ≤ s.params.maxFrames
    simp [unspecifiedStaging]
  · intro r hr
    have hr' : r ∈ unspecifiedStaging s := hr
    unfold unspecifiedStaging at hr'
    obtain ⟨a, -, rfl⟩ := List.mem_map.mp hr'
    simp

/-- More calls after a legal history. -/
theorem handleAfter_append {a : List CodecCall} {h : HState} (ha : handleAfter a = some h) (b : List CodecCall) :
    handleAfter (a ++ b) = b.foldl handleStep (some h) := by
  unfold handleAfter at *
  rw [List.foldl_append, ha]

/-- Encode calls on a live handle leave it live. -/
theorem encodeCalls_live (xs : List PcmFrame) (s : State) :
    (encodeCalls xs s).foldl handleStep (some .live) = some .live := by
  induction xs generalizing s with
  | nil => simp only [encodeCalls, List.foldl_nil]
  | cons x xs ih => exact ih (recordCall (.encode x (encodeAnswer x s)) s)

/-- Decode calls on a live handle leave it live. -/
theorem decodeCalls_live (xs : List (TocEntry × List Byte)) (s : State) :
    (decodeCalls xs s).foldl handleStep (some .live) = some .live := by
  induction xs generalizing s with
  | nil => simp only [decodeCalls, List.foldl_nil]
  | cons x xs ih =>
    obtain ⟨e, b⟩ := x
    exact ih (recordCall (.decode (e.ft.zeroExtend 8) e.q b (decodeAnswer (e.ft.zeroExtend 8) e.q b s)) s)

/-! ### Any command, any step -/

/-- What no command touches before its completion. -/
structure Untouched (s u : State) : Prop where
  params     : u.params = s.params
  ie         : u.ie = s.ie
  ovr        : u.ovr = s.ovr
  cmd        : u.cmd = s.cmd
  argLen     : u.argLen = s.argLen
  codecParam : u.codecParam = s.codecParam
  pcmIn      : u.pcmIn = s.pcmIn
  host       : u.host = s.host
  returned   : u.returned = s.returned
  faulted    : u.faulted = s.faulted

theorem Untouched.refl (s : State) : Untouched s s := ⟨rfl, rfl, rfl, rfl, rfl, rfl, rfl, rfl, rfl, rfl⟩

theorem untouched_packFail (e : ErrCode) (frames : List PcmFrame) (s : State) :
    ∃ e' u, packFail e (packAfter frames s) = completeWith e' u ∧ Untouched s u :=
  ⟨e, { packAfter frames s with resLen := 0#16, ntoc := 0#16, ndec := 0#16 }, rfl,
    ⟨rfl, rfl, rfl, rfl, rfl, rfl, rfl, rfl, rfl, rfl⟩⟩

theorem untouched_packDone (cmr : BitVec 4) (nfr : BitVec 8) (frames : List PcmFrame) (s : State) :
    Untouched s (packDone cmr nfr frames s) := by
  unfold packDone wrote
  generalize bitsOf (wirePayload cmr (encodeReplies frames s)) = bits
  generalize (wirePayload cmr (encodeReplies frames s)).length = n
  exact ⟨rfl, rfl, rfl, rfl, rfl, rfl, rfl, rfl, rfl, rfl⟩

theorem Untouched.unpackResults {s u : State} (h : Untouched s u) (nd : Nat) : Untouched s (unpackResults nd u) :=
  ⟨h.params, h.ie, h.ovr, h.cmd, h.argLen, h.codecParam, h.pcmIn, h.host, h.returned, h.faulted⟩

theorem untouched_unpackRead (cmrByte : Byte) (tocBytes : List Byte) (s : State) :
    Untouched s (unpackRead cmrByte tocBytes s) := ⟨rfl, rfl, rfl, rfl, rfl, rfl, rfl, rfl, rfl, rfl⟩

theorem Untouched.afterDecode {s u : State} (h : Untouched s u) (i nd : Nat) (frames : List (TocEntry × List Byte)) :
    Untouched s (afterDecode i nd frames u) :=
  ⟨h.params, h.ie, h.ovr, h.cmd, h.argLen, h.codecParam, h.pcmIn, h.host, h.returned, h.faulted⟩

theorem unpackEnd_completes {s u : State} (h : Untouched s u) (tr : Bool) (nd : Nat) :
    ∃ e u', unpackEnd (tr, nd, u) = completeWith e u' ∧ Untouched s u' := by
  cases tr
  · exact ⟨_, _, rfl, h.unpackResults nd⟩
  · have h' : Untouched s { u with trunc := true } :=
      ⟨h.params, h.ie, h.ovr, h.cmd, h.argLen, h.codecParam, h.pcmIn, h.host, h.returned, h.faulted⟩
    exact ⟨_, _, rfl, h'.unpackResults nd⟩

/-- Every command that answers ends in `completeWith`, its own effect before it (R206). -/
theorem exec_completes (i : Instr) (s t : State) (h : exec i s = .next t) :
    ∃ e u, t = completeWith e u ∧ Untouched s u := by
  cases i with
  | nop => exact ⟨_, _, (Host.Outcome.next.inj h).symm, .refl s⟩
  | curSet off idx =>
    simp only [exec, execCurSet] at h
    split at h
    · exact ⟨_, _, (Host.Outcome.next.inj h).symm, .refl s⟩
    · exact ⟨_, _, (Host.Outcome.next.inj h).symm, ⟨rfl, rfl, rfl, rfl, rfl, rfl, rfl, rfl, rfl, rfl⟩⟩
  | wrbits count =>
    simp only [exec, execWrbits] at h
    split at h
    · exact ⟨_, _, (Host.Outcome.next.inj h).symm, .refl s⟩
    · split at h
      · exact ⟨_, _, (Host.Outcome.next.inj h).symm, .refl s⟩
      · exact ⟨_, _, (Host.Outcome.next.inj h).symm, ⟨rfl, rfl, rfl, rfl, rfl, rfl, rfl, rfl, rfl, rfl⟩⟩
  | rdbits count =>
    simp only [exec, execRdbits] at h
    split at h
    · exact ⟨_, _, (Host.Outcome.next.inj h).symm, .refl s⟩
    · split at h
      · exact ⟨_, _, (Host.Outcome.next.inj h).symm, .refl s⟩
      · split at h
        · cases h
        · rename_i bits s1 hr
          obtain ⟨-, rfl⟩ := (readBits_ok _ _ _ _).mp hr
          exact ⟨_, _, (Host.Outcome.next.inj h).symm, ⟨rfl, rfl, rfl, rfl, rfl, rfl, rfl, rfl, rfl, rfl⟩⟩
  | pack cmr nfr =>
    rcases execPack_cases cmr nfr s t h with ⟨-, rfl⟩ | ⟨-, -, rfl⟩ | ⟨-, -, frames, -, -, -, hh⟩
    · exact ⟨_, _, rfl, .refl s⟩
    · exact ⟨_, _, rfl, ⟨rfl, rfl, rfl, rfl, rfl, rfl, rfl, rfl, rfl, rfl⟩⟩
    · rcases hh with ⟨-, -, -, -, -, rfl⟩ | ⟨-, -, ⟨-, rfl⟩ | ⟨-, rfl⟩⟩
      · exact untouched_packFail _ _ _
      · exact untouched_packFail _ _ _
      · exact ⟨_, _, rfl, untouched_packDone cmr nfr frames s⟩
  | unpack outcap =>
    rcases execUnpack_cases outcap s t h with ⟨-, rfl⟩ | ⟨-, -, rfl⟩ | ⟨-, -, ⟨-, rfl⟩ | ⟨c, l, -, -, hh⟩⟩
    · exact ⟨_, _, rfl, .refl s⟩
    · exact ⟨_, _, rfl, ⟨rfl, rfl, rfl, rfl, rfl, rfl, rfl, rfl, rfl, rfl⟩⟩
    · exact ⟨_, _, rfl, ⟨rfl, rfl, rfl, rfl, rfl, rfl, rfl, rfl, rfl, rfl⟩⟩
    · rcases hh with ⟨-, rfl⟩ | ⟨-, -, rfl⟩ | ⟨-, -, tr, frames, -, -, -, -, -, rfl⟩
      · exact ⟨_, _, rfl, (untouched_unpackRead c l s).unpackResults 0⟩
      · exact ⟨_, _, rfl, (untouched_unpackRead c l s).unpackResults 0⟩
      · exact unpackEnd_completes ((untouched_unpackRead c l s).afterDecode _ _ _) _ _
  | modebits mode =>
    simp only [exec, execModebits] at h
    split at h <;> exact ⟨_, _, (Host.Outcome.next.inj h).symm, ⟨rfl, rfl, rfl, rfl, rfl, rfl, rfl, rfl, rfl, rfl⟩⟩
  | b2s n => exact ⟨_, _, (Host.Outcome.next.inj h).symm, ⟨rfl, rfl, rfl, rfl, rfl, rfl, rfl, rfl, rfl, rfl⟩⟩
  | s2b n => exact ⟨_, _, (Host.Outcome.next.inj h).symm, ⟨rfl, rfl, rfl, rfl, rfl, rfl, rfl, rfl, rfl, rfl⟩⟩
  | tocenc f q ft =>
    simp only [exec, execTocenc] at h
    split at h <;> exact ⟨_, _, (Host.Outcome.next.inj h).symm, ⟨rfl, rfl, rfl, rfl, rfl, rfl, rfl, rfl, rfl, rfl⟩⟩
  | tocdec byte => exact ⟨_, _, (Host.Outcome.next.inj h).symm, ⟨rfl, rfl, rfl, rfl, rfl, rfl, rfl, rfl, rfl, rfl⟩⟩
  | codecCreate =>
    simp only [exec, execCodecCreate] at h
    split at h
    · exact ⟨_, _, (Host.Outcome.next.inj h).symm, .refl s⟩
    · unfold createDone at h
      split at h <;> exact ⟨_, _, (Host.Outcome.next.inj h).symm, ⟨rfl, rfl, rfl, rfl, rfl, rfl, rfl, rfl, rfl, rfl⟩⟩
  | codecDestroy =>
    simp only [exec, execCodecDestroy] at h
    split at h
    · exact ⟨_, _, (Host.Outcome.next.inj h).symm, .refl s⟩
    · exact ⟨_, _, (Host.Outcome.next.inj h).symm, ⟨rfl, rfl, rfl, rfl, rfl, rfl, rfl, rfl, rfl, rfl⟩⟩

/-- A step of an unfaulted block takes the host's next access; a model fault there makes it faulted (R215). -/
theorem step_access (s : State) (op : HostOp) (rest : List HostOp) (hf : s.faulted = none) (hh : s.host = op :: rest) :
    step s = recordFault (access op { s with host := rest }) { s with host := rest } := by
  unfold step
  split
  · rename_i f h
    rw [hf] at h
    cases h
  · split
    · rename_i h
      rw [hh] at h
      cases h
    · rename_i op' rest' h
      rw [hh] at h
      cases h
      rfl

/-- With nothing for the host to do an unfaulted block holds its state (R219). -/
theorem step_idle (s : State) (hf : s.faulted = none) (hh : s.host = []) : step s = .next s := by
  unfold step
  split
  · rename_i f h
    rw [hf] at h
    cases h
  · split
    · rfl
    · rename_i op rest h
      rw [hh] at h
      cases h

/-- A step of a faulted block is the platform's reset or stays at the fault (R215, R230). -/
theorem step_of_faulted (s : State) (f : Fault) (hf : s.faulted = some f) : step s = faultedStep f s := by
  unfold step
  split
  · rename_i g h
    rw [hf] at h
    cases h
    rfl
  · rename_i h
    rw [hf] at h
    cases h

/-- The platform's reset is taken from every state, faulted or not, BUSY or not (R230). -/
theorem step_platformReset (s : State) (rest : List HostOp) (hh : s.host = .platformReset :: rest) :
    step s = .next (platformReset { s with host := rest }) := by
  rcases Option.eq_none_or_eq_some s.faulted with hf | ⟨f, hf⟩
  · rw [step_access s _ rest hf hh]
    simp [access, acceptedWord, hostAccess, busyAllows, recordFault]
  · rw [step_of_faulted s f hf]
    simp [faultedStep, hh]

/-- A step that answers a next state from an unfaulted block: nothing to do, or one access, which may make it faulted. -/
theorem step_unfaulted (s t : State) (hf : s.faulted = none) (h : step s = .next t) :
    (s.host = [] ∧ t = s) ∨
    ∃ op rest, s.host = op :: rest ∧ (access op { s with host := rest } = .next t ∨
      ∃ f, access op { s with host := rest } = .fault f ∧ t = enterFault f { s with host := rest }) := by
  cases hh : s.host with
  | nil =>
    rw [step_idle s hf hh] at h
    exact .inl ⟨rfl, (Host.Outcome.next.inj h).symm⟩
  | cons op rest =>
    refine .inr ⟨op, rest, rfl, ?_⟩
    rw [step_access s op rest hf hh] at h
    unfold recordFault at h
    split at h
    · rename_i u ha
      exact .inl (ha.trans h)
    · rename_i f ha
      exact .inr ⟨f, ha, (Host.Outcome.next.inj h).symm⟩
    · cases h

/-- A step from a faulted block answers a next state only by the platform's reset (R230). -/
theorem step_faulted (s t : State) (f : Fault) (hf : s.faulted = some f) (h : step s = .next t) :
    ∃ rest, s.host = .platformReset :: rest ∧ t = platformReset { s with host := rest } := by
  rw [step_of_faulted s f hf] at h
  unfold faultedStep at h
  split at h
  · cases h
  · rename_i op rest hh
    split at h
    · rename_i hop
      exact ⟨rest, by rw [hh, hop], (Host.Outcome.next.inj h).symm⟩
    · cases h

/-- Every way an access answers a next state (R64, R67, R70, R84, R86, R90, R204, R230). -/
theorem access_cases (op : HostOp) (s t : State) (h : access op s = .next t) :
    (∃ w i, op = .write 0x010 32 w ∧ s.busy = false ∧ decode w = .ok i ∧ exec i (acceptCommand w s) = .next t) ∨
    (∃ w e, op = .write 0x010 32 w ∧ s.busy = false ∧ decode w = .error e ∧
      t = raiseErr .illegalCommand (acceptCommand w s)) ∨
    (∃ d, t = giveBack d s) ∨
    (∃ r v, (r = .cmd → s.busy = true) ∧ t = writeReg r v s) ∨
    (∃ i v, i < s.params.bufCap ∧ t = { s with pbuf := s.pbuf.writeByte i v }) ∨
    (∃ f x, f < s.params.maxFrames ∧ t = { s with pcmIn := s.pcmIn.set f (some x) }) ∨
    (op = .wait ∧ t = hostWait s) ∨
    (op = .platformReset ∧ t = platformReset s) := by
  unfold access at h
  split at h
  · rename_i w hw
    have hop : op = .write 0x010 32 w ∧ s.busy = false := by
      cases op with
      | write o n v =>
        simp only [acceptedWord, Option.ite_none_right_eq_some, Option.some.injEq] at hw
        obtain ⟨⟨h1, h2, h3⟩, h4⟩ := hw
        exact ⟨by rw [h1, h2, h4]; rfl, h3⟩
      | read _ _ => cases hw
      | pcmInWrite _ _ => cases hw
      | pcmOutRead _ => cases hw
      | wait => cases hw
      | platformReset => cases hw
    unfold runWord at h
    split at h
    · rename_i i hd
      exact .inl ⟨w, i, hop.1, hop.2, hd, h⟩
    · rename_i e hd
      exact .inr (.inl ⟨w, e, hop.1, hop.2, hd, (Host.Outcome.next.inj h).symm⟩)
  · rename_i hnone
    refine .inr (.inr ?_)
    unfold hostAccess at h
    split at h
    · cases h
    · rename_i hbusy
      have target : ∀ o n x, busTarget s.params.bufCap o n = .ok x →
          (∃ r, x = .reg r ∧ regAt o = some r ∧ n = 32) ∨ ∃ i, x = .byte i ∧ i < s.params.bufCap := by
        intro o n x hx
        unfold busTarget at hx
        split at hx
        · split at hx
          · cases hx
          · split at hx
            · cases hx
            · rename_i hn
              split at hx
              · cases hx
              · rename_i r hr
                exact .inl ⟨r, (Except.ok.inj hx).symm, hr, by simpa using hn⟩
        · split at hx
          · cases hx
          · split at hx
            · cases hx
            · exact .inr ⟨_, (Except.ok.inj hx).symm, by omega⟩
      cases op with
      | read o n =>
        simp only [busRead] at h
        split at h
        · cases h
        · exact .inl ⟨_, (Host.Outcome.next.inj h).symm⟩
        · unfold memRead at h
          split at h
          · cases h
          · exact .inl ⟨_, (Host.Outcome.next.inj h).symm⟩
      | write o n v =>
        simp only [busWrite] at h
        split at h
        · cases h
        · rename_i r hx
          refine .inr (.inl ⟨r, v, ?_, (Host.Outcome.next.inj h).symm⟩)
          rintro rfl
          rcases target _ _ _ hx with ⟨r, hr, hr2, hn⟩ | ⟨i, hr, -⟩
          · obtain rfl : Reg.cmd = r := by simpa using hr
            have ho := List.find?_some hr2
            have ho' : 0x010 = o := by simpa [regOffset] using ho
            by_contra hb
            have : acceptedWord (.write o n v) s = some v := by simp [acceptedWord, regOffset, ← ho', hn, hb]
            rw [this] at hnone
            cases hnone
          · cases hr
        · rename_i i hx
          rcases target _ _ _ hx with ⟨r, hr, -⟩ | ⟨j, hr, hj⟩
          · cases hr
          · obtain rfl : i = j := by simpa using hr
            exact .inr (.inr (.inl ⟨i, _, hj, (Host.Outcome.next.inj h).symm⟩))
      | pcmInWrite f x =>
        simp only [pcmInWrite] at h
        split at h
        · cases h
        · exact .inr (.inr (.inr (.inl ⟨f, x, by omega, (Host.Outcome.next.inj h).symm⟩)))
      | pcmOutRead k =>
        simp only [pcmOutRead] at h
        split at h
        · cases h
        · split at h
          · cases h
          · exact .inl ⟨_, (Host.Outcome.next.inj h).symm⟩
      | wait => exact .inr (.inr (.inr (.inr (.inl ⟨rfl, (Host.Outcome.next.inj h).symm⟩))))
      | platformReset => exact .inr (.inr (.inr (.inr (.inr ⟨rfl, (Host.Outcome.next.inj h).symm⟩))))

/-- Every way a step answers a next state, `r` being the state with the host's access taken from its queue: nothing to do, a
command run, an illegal word, one host access, a model fault, or the platform's reset, which alone leads out of a faulted
state (R64, R67, R70, R84, R86, R90, R204, R215, R219, R230). -/
theorem step_cases (s t : State) (h : step s = .next t) :
    (s.host = [] ∧ s.faulted = none ∧ t = s) ∨
    ∃ op rest, s.host = op :: rest ∧ (s.faulted = none ∨ op = .platformReset) ∧
      ((∃ w i, op = .write 0x010 32 w ∧ s.busy = false ∧ decode w = .ok i ∧
          exec i (acceptCommand w { s with host := rest }) = .next t) ∨
       (∃ w e, op = .write 0x010 32 w ∧ s.busy = false ∧ decode w = .error e ∧
          t = raiseErr .illegalCommand (acceptCommand w { s with host := rest })) ∨
       (∃ d, t = giveBack d { s with host := rest }) ∨
       (∃ r v, (r = .cmd → s.busy = true) ∧ t = writeReg r v { s with host := rest }) ∨
       (∃ i v, i < s.params.bufCap ∧ t = { s with host := rest, pbuf := s.pbuf.writeByte i v }) ∨
       (∃ f x, f < s.params.maxFrames ∧ t = { s with host := rest, pcmIn := s.pcmIn.set f (some x) }) ∨
       (op = .wait ∧ t = hostWait { s with host := rest }) ∨
       (op = .platformReset ∧ t = platformReset { s with host := rest }) ∨
       (∃ f, t = enterFault f { s with host := rest })) := by
  rcases Option.eq_none_or_eq_some s.faulted with hf | ⟨f, hf⟩
  · rcases step_unfaulted s t hf h with ⟨hh, rfl⟩ | ⟨op, rest, hh, ha | ⟨f, -, rfl⟩⟩
    · exact .inl ⟨hh, hf, rfl⟩
    · refine .inr ⟨op, rest, hh, .inl hf, ?_⟩
      rcases access_cases op _ t ha with h | h | h | h | h | h | h | h
      · exact .inl h
      · exact .inr (.inl h)
      · exact .inr (.inr (.inl h))
      · exact .inr (.inr (.inr (.inl h)))
      · exact .inr (.inr (.inr (.inr (.inl h))))
      · exact .inr (.inr (.inr (.inr (.inr (.inl h)))))
      · exact .inr (.inr (.inr (.inr (.inr (.inr (.inl h))))))
      · exact .inr (.inr (.inr (.inr (.inr (.inr (.inr (.inl h)))))))
    · exact .inr ⟨op, rest, hh, .inl hf, .inr (.inr (.inr (.inr (.inr (.inr (.inr (.inr ⟨f, rfl⟩)))))))⟩
  · obtain ⟨rest, hh, rfl⟩ := step_faulted s t f hf h
    exact .inr ⟨_, rest, hh, .inr rfl, .inr (.inr (.inr (.inr (.inr (.inr (.inr (.inl ⟨rfl, rfl⟩)))))))⟩

end Sys2Proof.Laws
end

