-- ==== Sys2Proof/Laws/Fields.lean ====
section
/-! SUPPORT. What each field holds in the states PACK and UNPACK pass through, and where the cursor stands there. -/

namespace Sys2Proof.Laws

open Sys2Proof.Machine Sys2Proof.Config Sys2Proof.Safety

/-! ### `packFail`: PACK fails (R147) -/
@[simp] theorem packFail_params (e : ErrCode) (s : State) : (packFail e s).params = s.params := rfl
@[simp] theorem packFail_ie (e : ErrCode) (s : State) : (packFail e s).ie = s.ie := rfl
@[simp] theorem packFail_busy (e : ErrCode) (s : State) : (packFail e s).busy = false := rfl
@[simp] theorem packFail_done (e : ErrCode) (s : State) : (packFail e s).done = true := rfl
@[simp] theorem packFail_ovr (e : ErrCode) (s : State) : (packFail e s).ovr = s.ovr := rfl
@[simp] theorem packFail_trunc (e : ErrCode) (s : State) : (packFail e s).trunc = s.trunc := rfl
@[simp] theorem packFail_err (e : ErrCode) (s : State) : (packFail e s).err = e := rfl
@[simp] theorem packFail_hstate (e : ErrCode) (s : State) : (packFail e s).hstate = s.hstate := rfl
@[simp] theorem packFail_cmd (e : ErrCode) (s : State) : (packFail e s).cmd = s.cmd := rfl
@[simp] theorem packFail_byteIndex (e : ErrCode) (s : State) : (packFail e s).byteIndex = s.byteIndex := rfl
@[simp] theorem packFail_bitOffset (e : ErrCode) (s : State) : (packFail e s).bitOffset = s.bitOffset := rfl
@[simp] theorem packFail_data (e : ErrCode) (s : State) : (packFail e s).data = s.data := rfl
@[simp] theorem packFail_argLen (e : ErrCode) (s : State) : (packFail e s).argLen = s.argLen := rfl
@[simp] theorem packFail_codecParam (e : ErrCode) (s : State) : (packFail e s).codecParam = s.codecParam := rfl
@[simp] theorem packFail_resLen (e : ErrCode) (s : State) : (packFail e s).resLen = 0#16 := rfl
@[simp] theorem packFail_ntoc (e : ErrCode) (s : State) : (packFail e s).ntoc = 0#16 := rfl
@[simp] theorem packFail_ndec (e : ErrCode) (s : State) : (packFail e s).ndec = 0#16 := rfl
@[simp] theorem packFail_resSamples (e : ErrCode) (s : State) : (packFail e s).resSamples = s.resSamples := rfl
@[simp] theorem packFail_resPcmBytes (e : ErrCode) (s : State) : (packFail e s).resPcmBytes = s.resPcmBytes := rfl
@[simp] theorem packFail_result (e : ErrCode) (s : State) : (packFail e s).result = s.result := rfl
@[simp] theorem packFail_cmrOut (e : ErrCode) (s : State) : (packFail e s).cmrOut = s.cmrOut := rfl
@[simp] theorem packFail_cmrRaw (e : ErrCode) (s : State) : (packFail e s).cmrRaw = s.cmrRaw := rfl
@[simp] theorem packFail_pbuf (e : ErrCode) (s : State) : (packFail e s).pbuf = s.pbuf := rfl
@[simp] theorem packFail_pcmIn (e : ErrCode) (s : State) : (packFail e s).pcmIn = s.pcmIn := rfl
@[simp] theorem packFail_pcmOut (e : ErrCode) (s : State) : (packFail e s).pcmOut = s.pcmOut := rfl
@[simp] theorem packFail_calls (e : ErrCode) (s : State) : (packFail e s).calls = s.calls := rfl
@[simp] theorem packFail_faulted (e : ErrCode) (s : State) : (packFail e s).faulted = s.faulted := rfl
@[simp] theorem packFail_draws (e : ErrCode) (s : State) : (packFail e s).draws = s.draws + 1 := rfl
@[simp] theorem packFail_host (e : ErrCode) (s : State) : (packFail e s).host = s.host := rfl
@[simp] theorem packFail_returned (e : ErrCode) (s : State) : (packFail e s).returned = s.returned := rfl

/-! ### `packAfter`: PACK's codec calls (R143) -/
theorem packAfter_eq (frames : List PcmFrame) (s : State) : packAfter frames s =
    { s with staging := encodeReplies frames s, calls := s.calls ++ encodeCalls frames s, draws := s.draws + frames.length } := by
  simp [packAfter, afterEncode]
@[simp] theorem packAfter_params (frames : List PcmFrame) (s : State) : (packAfter frames s).params = s.params := rfl
@[simp] theorem packAfter_ie (frames : List PcmFrame) (s : State) : (packAfter frames s).ie = s.ie := rfl
@[simp] theorem packAfter_busy (frames : List PcmFrame) (s : State) : (packAfter frames s).busy = s.busy := rfl
@[simp] theorem packAfter_done (frames : List PcmFrame) (s : State) : (packAfter frames s).done = s.done := rfl
@[simp] theorem packAfter_ovr (frames : List PcmFrame) (s : State) : (packAfter frames s).ovr = s.ovr := rfl
@[simp] theorem packAfter_trunc (frames : List PcmFrame) (s : State) : (packAfter frames s).trunc = s.trunc := rfl
@[simp] theorem packAfter_err (frames : List PcmFrame) (s : State) : (packAfter frames s).err = s.err := rfl
@[simp] theorem packAfter_hstate (frames : List PcmFrame) (s : State) : (packAfter frames s).hstate = s.hstate := rfl
@[simp] theorem packAfter_cmd (frames : List PcmFrame) (s : State) : (packAfter frames s).cmd = s.cmd := rfl
@[simp] theorem packAfter_byteIndex (frames : List PcmFrame) (s : State) :
    (packAfter frames s).byteIndex = s.byteIndex := rfl
@[simp] theorem packAfter_bitOffset (frames : List PcmFrame) (s : State) :
    (packAfter frames s).bitOffset = s.bitOffset := rfl
@[simp] theorem packAfter_data (frames : List PcmFrame) (s : State) : (packAfter frames s).data = s.data := rfl
@[simp] theorem packAfter_argLen (frames : List PcmFrame) (s : State) : (packAfter frames s).argLen = s.argLen := rfl
@[simp] theorem packAfter_codecParam (frames : List PcmFrame) (s : State) :
    (packAfter frames s).codecParam = s.codecParam := rfl
@[simp] theorem packAfter_resLen (frames : List PcmFrame) (s : State) : (packAfter frames s).resLen = s.resLen := rfl
@[simp] theorem packAfter_ntoc (frames : List PcmFrame) (s : State) : (packAfter frames s).ntoc = s.ntoc := rfl
@[simp] theorem packAfter_ndec (frames : List PcmFrame) (s : State) : (packAfter frames s).ndec = s.ndec := rfl
@[simp] theorem packAfter_resSamples (frames : List PcmFrame) (s : State) :
    (packAfter frames s).resSamples = s.resSamples := rfl
@[simp] theorem packAfter_resPcmBytes (frames : List PcmFrame) (s : State) :
    (packAfter frames s).resPcmBytes = s.resPcmBytes := rfl
@[simp] theorem packAfter_result (frames : List PcmFrame) (s : State) : (packAfter frames s).result = s.result := rfl
@[simp] theorem packAfter_cmrOut (frames : List PcmFrame) (s : State) : (packAfter frames s).cmrOut = s.cmrOut := rfl
@[simp] theorem packAfter_cmrRaw (frames : List PcmFrame) (s : State) : (packAfter frames s).cmrRaw = s.cmrRaw := rfl
@[simp] theorem packAfter_pbuf (frames : List PcmFrame) (s : State) : (packAfter frames s).pbuf = s.pbuf := rfl
@[simp] theorem packAfter_pcmIn (frames : List PcmFrame) (s : State) : (packAfter frames s).pcmIn = s.pcmIn := rfl
@[simp] theorem packAfter_pcmOut (frames : List PcmFrame) (s : State) : (packAfter frames s).pcmOut = s.pcmOut := rfl
@[simp] theorem packAfter_toc (frames : List PcmFrame) (s : State) : (packAfter frames s).toc = s.toc := rfl
@[simp] theorem packAfter_staging (frames : List PcmFrame) (s : State) : (packAfter frames s).staging = encodeReplies frames s := by
  rw [packAfter_eq]
@[simp] theorem packAfter_calls (frames : List PcmFrame) (s : State) :
    (packAfter frames s).calls = s.calls ++ encodeCalls frames s := rfl
@[simp] theorem packAfter_faulted (frames : List PcmFrame) (s : State) : (packAfter frames s).faulted = s.faulted := rfl
@[simp] theorem packAfter_draws (frames : List PcmFrame) (s : State) :
    (packAfter frames s).draws = s.draws + frames.length := rfl
@[simp] theorem packAfter_host (frames : List PcmFrame) (s : State) : (packAfter frames s).host = s.host := rfl
@[simp] theorem packAfter_returned (frames : List PcmFrame) (s : State) :
    (packAfter frames s).returned = s.returned := rfl

/-! ### `packDone`: PACK's payload is written (R145, R146) -/
@[simp] theorem packDone_params (cmr : BitVec 4) (nfr : BitVec 8) (frames : List PcmFrame) (s : State) :
    (packDone cmr nfr frames s).params = s.params := rfl
@[simp] theorem packDone_ie (cmr : BitVec 4) (nfr : BitVec 8) (frames : List PcmFrame) (s : State) :
    (packDone cmr nfr frames s).ie = s.ie := rfl
@[simp] theorem packDone_busy (cmr : BitVec 4) (nfr : BitVec 8) (frames : List PcmFrame) (s : State) :
    (packDone cmr nfr frames s).busy = s.busy := rfl
@[simp] theorem packDone_done (cmr : BitVec 4) (nfr : BitVec 8) (frames : List PcmFrame) (s : State) :
    (packDone cmr nfr frames s).done = s.done := rfl
@[simp] theorem packDone_ovr (cmr : BitVec 4) (nfr : BitVec 8) (frames : List PcmFrame) (s : State) :
    (packDone cmr nfr frames s).ovr = s.ovr := rfl
@[simp] theorem packDone_trunc (cmr : BitVec 4) (nfr : BitVec 8) (frames : List PcmFrame) (s : State) :
    (packDone cmr nfr frames s).trunc = s.trunc := rfl
@[simp] theorem packDone_err (cmr : BitVec 4) (nfr : BitVec 8) (frames : List PcmFrame) (s : State) :
    (packDone cmr nfr frames s).err = s.err := rfl
@[simp] theorem packDone_hstate (cmr : BitVec 4) (nfr : BitVec 8) (frames : List PcmFrame) (s : State) :
    (packDone cmr nfr frames s).hstate = s.hstate := rfl
@[simp] theorem packDone_cmd (cmr : BitVec 4) (nfr : BitVec 8) (frames : List PcmFrame) (s : State) :
    (packDone cmr nfr frames s).cmd = s.cmd := rfl
@[simp] theorem packDone_data (cmr : BitVec 4) (nfr : BitVec 8) (frames : List PcmFrame) (s : State) :
    (packDone cmr nfr frames s).data = s.data := rfl
@[simp] theorem packDone_argLen (cmr : BitVec 4) (nfr : BitVec 8) (frames : List PcmFrame) (s : State) :
    (packDone cmr nfr frames s).argLen = s.argLen := rfl
@[simp] theorem packDone_codecParam (cmr : BitVec 4) (nfr : BitVec 8) (frames : List PcmFrame) (s : State) :
    (packDone cmr nfr frames s).codecParam = s.codecParam := rfl
@[simp] theorem packDone_resLen (cmr : BitVec 4) (nfr : BitVec 8) (frames : List PcmFrame) (s : State) :
    (packDone cmr nfr frames s).resLen = BitVec.ofNat 16 (wirePayload cmr (encodeReplies frames s)).length := rfl
@[simp] theorem packDone_ntoc (cmr : BitVec 4) (nfr : BitVec 8) (frames : List PcmFrame) (s : State) :
    (packDone cmr nfr frames s).ntoc = nfr.zeroExtend 16 := rfl
@[simp] theorem packDone_ndec (cmr : BitVec 4) (nfr : BitVec 8) (frames : List PcmFrame) (s : State) :
    (packDone cmr nfr frames s).ndec = 0#16 := rfl
@[simp] theorem packDone_resSamples (cmr : BitVec 4) (nfr : BitVec 8) (frames : List PcmFrame) (s : State) :
    (packDone cmr nfr frames s).resSamples = s.resSamples := rfl
@[simp] theorem packDone_resPcmBytes (cmr : BitVec 4) (nfr : BitVec 8) (frames : List PcmFrame) (s : State) :
    (packDone cmr nfr frames s).resPcmBytes = s.resPcmBytes := rfl
@[simp] theorem packDone_result (cmr : BitVec 4) (nfr : BitVec 8) (frames : List PcmFrame) (s : State) :
    (packDone cmr nfr frames s).result = s.result := rfl
@[simp] theorem packDone_cmrOut (cmr : BitVec 4) (nfr : BitVec 8) (frames : List PcmFrame) (s : State) :
    (packDone cmr nfr frames s).cmrOut = s.cmrOut := rfl
@[simp] theorem packDone_cmrRaw (cmr : BitVec 4) (nfr : BitVec 8) (frames : List PcmFrame) (s : State) :
    (packDone cmr nfr frames s).cmrRaw = s.cmrRaw := rfl
@[simp] theorem packDone_pbuf (cmr : BitVec 4) (nfr : BitVec 8) (frames : List PcmFrame) (s : State) :
    (packDone cmr nfr frames s).pbuf = s.pbuf.setRun 0 (bitsOf (wirePayload cmr (encodeReplies frames s))) := rfl
@[simp] theorem packDone_pcmIn (cmr : BitVec 4) (nfr : BitVec 8) (frames : List PcmFrame) (s : State) :
    (packDone cmr nfr frames s).pcmIn = s.pcmIn := rfl
@[simp] theorem packDone_pcmOut (cmr : BitVec 4) (nfr : BitVec 8) (frames : List PcmFrame) (s : State) :
    (packDone cmr nfr frames s).pcmOut = s.pcmOut := rfl
@[simp] theorem packDone_toc (cmr : BitVec 4) (nfr : BitVec 8) (frames : List PcmFrame) (s : State) :
    (packDone cmr nfr frames s).toc = s.toc := rfl
@[simp] theorem packDone_calls (cmr : BitVec 4) (nfr : BitVec 8) (frames : List PcmFrame) (s : State) :
    (packDone cmr nfr frames s).calls = s.calls ++ encodeCalls frames s := rfl
@[simp] theorem packDone_faulted (cmr : BitVec 4) (nfr : BitVec 8) (frames : List PcmFrame) (s : State) :
    (packDone cmr nfr frames s).faulted = s.faulted := rfl
@[simp] theorem packDone_host (cmr : BitVec 4) (nfr : BitVec 8) (frames : List PcmFrame) (s : State) :
    (packDone cmr nfr frames s).host = s.host := rfl
@[simp] theorem packDone_returned (cmr : BitVec 4) (nfr : BitVec 8) (frames : List PcmFrame) (s : State) :
    (packDone cmr nfr frames s).returned = s.returned := rfl

/-! ### `unpackStart`: UNPACK starts (R162) -/
@[simp] theorem unpackStart_params (s : State) : (unpackStart s).params = s.params := rfl
@[simp] theorem unpackStart_ie (s : State) : (unpackStart s).ie = s.ie := rfl
@[simp] theorem unpackStart_busy (s : State) : (unpackStart s).busy = s.busy := rfl
@[simp] theorem unpackStart_done (s : State) : (unpackStart s).done = s.done := rfl
@[simp] theorem unpackStart_ovr (s : State) : (unpackStart s).ovr = s.ovr := rfl
@[simp] theorem unpackStart_trunc (s : State) : (unpackStart s).trunc = s.trunc := rfl
@[simp] theorem unpackStart_err (s : State) : (unpackStart s).err = s.err := rfl
@[simp] theorem unpackStart_hstate (s : State) : (unpackStart s).hstate = s.hstate := rfl
@[simp] theorem unpackStart_cmd (s : State) : (unpackStart s).cmd = s.cmd := rfl
@[simp] theorem unpackStart_byteIndex (s : State) : (unpackStart s).byteIndex = 0#16 := rfl
@[simp] theorem unpackStart_bitOffset (s : State) : (unpackStart s).bitOffset = 7#3 := rfl
@[simp] theorem unpackStart_data (s : State) : (unpackStart s).data = s.data := rfl
@[simp] theorem unpackStart_argLen (s : State) : (unpackStart s).argLen = s.argLen := rfl
@[simp] theorem unpackStart_codecParam (s : State) : (unpackStart s).codecParam = s.codecParam := rfl
@[simp] theorem unpackStart_resLen (s : State) : (unpackStart s).resLen = s.resLen := rfl
@[simp] theorem unpackStart_ntoc (s : State) : (unpackStart s).ntoc = s.ntoc := rfl
@[simp] theorem unpackStart_ndec (s : State) : (unpackStart s).ndec = s.ndec := rfl
@[simp] theorem unpackStart_resSamples (s : State) : (unpackStart s).resSamples = s.resSamples := rfl
@[simp] theorem unpackStart_resPcmBytes (s : State) : (unpackStart s).resPcmBytes = s.resPcmBytes := rfl
@[simp] theorem unpackStart_result (s : State) : (unpackStart s).result = s.result := rfl
@[simp] theorem unpackStart_cmrOut (s : State) : (unpackStart s).cmrOut = 0#4 := rfl
@[simp] theorem unpackStart_cmrRaw (s : State) : (unpackStart s).cmrRaw = 0#8 := rfl
@[simp] theorem unpackStart_pcmIn (s : State) : (unpackStart s).pcmIn = s.pcmIn := rfl
@[simp] theorem unpackStart_pcmOut (s : State) : (unpackStart s).pcmOut = s.pcmOut := rfl
@[simp] theorem unpackStart_toc (s : State) : (unpackStart s).toc = [] := rfl
@[simp] theorem unpackStart_staging (s : State) : (unpackStart s).staging = s.staging := rfl
@[simp] theorem unpackStart_calls (s : State) : (unpackStart s).calls = s.calls := rfl
@[simp] theorem unpackStart_faulted (s : State) : (unpackStart s).faulted = s.faulted := rfl
@[simp] theorem unpackStart_draws (s : State) : (unpackStart s).draws = s.draws := rfl
@[simp] theorem unpackStart_host (s : State) : (unpackStart s).host = s.host := rfl
@[simp] theorem unpackStart_returned (s : State) : (unpackStart s).returned = s.returned := rfl

/-! ### `unpackRead`: UNPACK has read CMR and TOC (R162, R163) -/
@[simp] theorem unpackRead_params (cmrByte : Byte) (tocBytes : List Byte) (s : State) :
    (unpackRead cmrByte tocBytes s).params = s.params := rfl
@[simp] theorem unpackRead_ie (cmrByte : Byte) (tocBytes : List Byte) (s : State) :
    (unpackRead cmrByte tocBytes s).ie = s.ie := rfl
@[simp] theorem unpackRead_busy (cmrByte : Byte) (tocBytes : List Byte) (s : State) :
    (unpackRead cmrByte tocBytes s).busy = s.busy := rfl
@[simp] theorem unpackRead_done (cmrByte : Byte) (tocBytes : List Byte) (s : State) :
    (unpackRead cmrByte tocBytes s).done = s.done := rfl
@[simp] theorem unpackRead_ovr (cmrByte : Byte) (tocBytes : List Byte) (s : State) :
    (unpackRead cmrByte tocBytes s).ovr = s.ovr := rfl
@[simp] theorem unpackRead_trunc (cmrByte : Byte) (tocBytes : List Byte) (s : State) :
    (unpackRead cmrByte tocBytes s).trunc = s.trunc := rfl
@[simp] theorem unpackRead_err (cmrByte : Byte) (tocBytes : List Byte) (s : State) :
    (unpackRead cmrByte tocBytes s).err = s.err := rfl
@[simp] theorem unpackRead_hstate (cmrByte : Byte) (tocBytes : List Byte) (s : State) :
    (unpackRead cmrByte tocBytes s).hstate = s.hstate := rfl
@[simp] theorem unpackRead_cmd (cmrByte : Byte) (tocBytes : List Byte) (s : State) :
    (unpackRead cmrByte tocBytes s).cmd = s.cmd := rfl
@[simp] theorem unpackRead_data (cmrByte : Byte) (tocBytes : List Byte) (s : State) :
    (unpackRead cmrByte tocBytes s).data = s.data := rfl
@[simp] theorem unpackRead_argLen (cmrByte : Byte) (tocBytes : List Byte) (s : State) :
    (unpackRead cmrByte tocBytes s).argLen = s.argLen := rfl
@[simp] theorem unpackRead_codecParam (cmrByte : Byte) (tocBytes : List Byte) (s : State) :
    (unpackRead cmrByte tocBytes s).codecParam = s.codecParam := rfl
@[simp] theorem unpackRead_resLen (cmrByte : Byte) (tocBytes : List Byte) (s : State) :
    (unpackRead cmrByte tocBytes s).resLen = s.resLen := rfl
@[simp] theorem unpackRead_ntoc (cmrByte : Byte) (tocBytes : List Byte) (s : State) :
    (unpackRead cmrByte tocBytes s).ntoc = s.ntoc := rfl
@[simp] theorem unpackRead_ndec (cmrByte : Byte) (tocBytes : List Byte) (s : State) :
    (unpackRead cmrByte tocBytes s).ndec = s.ndec := rfl
@[simp] theorem unpackRead_resSamples (cmrByte : Byte) (tocBytes : List Byte) (s : State) :
    (unpackRead cmrByte tocBytes s).resSamples = s.resSamples := rfl
@[simp] theorem unpackRead_resPcmBytes (cmrByte : Byte) (tocBytes : List Byte) (s : State) :
    (unpackRead cmrByte tocBytes s).resPcmBytes = s.resPcmBytes := rfl
@[simp] theorem unpackRead_result (cmrByte : Byte) (tocBytes : List Byte) (s : State) :
    (unpackRead cmrByte tocBytes s).result = s.result := rfl
@[simp] theorem unpackRead_cmrOut (cmrByte : Byte) (tocBytes : List Byte) (s : State) :
    (unpackRead cmrByte tocBytes s).cmrOut = cmrOf cmrByte := rfl
@[simp] theorem unpackRead_cmrRaw (cmrByte : Byte) (tocBytes : List Byte) (s : State) :
    (unpackRead cmrByte tocBytes s).cmrRaw = cmrByte := rfl
@[simp] theorem unpackRead_pbuf (cmrByte : Byte) (tocBytes : List Byte) (s : State) :
    (unpackRead cmrByte tocBytes s).pbuf = s.pbuf := rfl
@[simp] theorem unpackRead_pcmIn (cmrByte : Byte) (tocBytes : List Byte) (s : State) :
    (unpackRead cmrByte tocBytes s).pcmIn = s.pcmIn := rfl
@[simp] theorem unpackRead_pcmOut (cmrByte : Byte) (tocBytes : List Byte) (s : State) :
    (unpackRead cmrByte tocBytes s).pcmOut = s.pcmOut := rfl
@[simp] theorem unpackRead_toc (cmrByte : Byte) (tocBytes : List Byte) (s : State) :
    (unpackRead cmrByte tocBytes s).toc = tocBytes.map parseToc := rfl
@[simp] theorem unpackRead_staging (cmrByte : Byte) (tocBytes : List Byte) (s : State) :
    (unpackRead cmrByte tocBytes s).staging = s.staging := rfl
@[simp] theorem unpackRead_calls (cmrByte : Byte) (tocBytes : List Byte) (s : State) :
    (unpackRead cmrByte tocBytes s).calls = s.calls := rfl
@[simp] theorem unpackRead_faulted (cmrByte : Byte) (tocBytes : List Byte) (s : State) :
    (unpackRead cmrByte tocBytes s).faulted = s.faulted := rfl
@[simp] theorem unpackRead_draws (cmrByte : Byte) (tocBytes : List Byte) (s : State) :
    (unpackRead cmrByte tocBytes s).draws = s.draws := rfl
@[simp] theorem unpackRead_host (cmrByte : Byte) (tocBytes : List Byte) (s : State) :
    (unpackRead cmrByte tocBytes s).host = s.host := rfl
@[simp] theorem unpackRead_returned (cmrByte : Byte) (tocBytes : List Byte) (s : State) :
    (unpackRead cmrByte tocBytes s).returned = s.returned := rfl

/-! ### `afterDecode`: UNPACK has decoded frames (R167, R168) -/
@[simp] theorem afterDecode_params (i nd : Nat) (frames : List (TocEntry × List Byte)) (s : State) :
    (afterDecode i nd frames s).params = s.params := rfl
@[simp] theorem afterDecode_ie (i nd : Nat) (frames : List (TocEntry × List Byte)) (s : State) :
    (afterDecode i nd frames s).ie = s.ie := rfl
@[simp] theorem afterDecode_busy (i nd : Nat) (frames : List (TocEntry × List Byte)) (s : State) :
    (afterDecode i nd frames s).busy = s.busy := rfl
@[simp] theorem afterDecode_done (i nd : Nat) (frames : List (TocEntry × List Byte)) (s : State) :
    (afterDecode i nd frames s).done = s.done := rfl
@[simp] theorem afterDecode_ovr (i nd : Nat) (frames : List (TocEntry × List Byte)) (s : State) :
    (afterDecode i nd frames s).ovr = s.ovr := rfl
@[simp] theorem afterDecode_trunc (i nd : Nat) (frames : List (TocEntry × List Byte)) (s : State) :
    (afterDecode i nd frames s).trunc = s.trunc := rfl
@[simp] theorem afterDecode_err (i nd : Nat) (frames : List (TocEntry × List Byte)) (s : State) :
    (afterDecode i nd frames s).err = s.err := rfl
@[simp] theorem afterDecode_hstate (i nd : Nat) (frames : List (TocEntry × List Byte)) (s : State) :
    (afterDecode i nd frames s).hstate = s.hstate := rfl
@[simp] theorem afterDecode_cmd (i nd : Nat) (frames : List (TocEntry × List Byte)) (s : State) :
    (afterDecode i nd frames s).cmd = s.cmd := rfl
@[simp] theorem afterDecode_data (i nd : Nat) (frames : List (TocEntry × List Byte)) (s : State) :
    (afterDecode i nd frames s).data = s.data := rfl
@[simp] theorem afterDecode_argLen (i nd : Nat) (frames : List (TocEntry × List Byte)) (s : State) :
    (afterDecode i nd frames s).argLen = s.argLen := rfl
@[simp] theorem afterDecode_codecParam (i nd : Nat) (frames : List (TocEntry × List Byte)) (s : State) :
    (afterDecode i nd frames s).codecParam = s.codecParam := rfl
@[simp] theorem afterDecode_resLen (i nd : Nat) (frames : List (TocEntry × List Byte)) (s : State) :
    (afterDecode i nd frames s).resLen = s.resLen := rfl
@[simp] theorem afterDecode_ntoc (i nd : Nat) (frames : List (TocEntry × List Byte)) (s : State) :
    (afterDecode i nd frames s).ntoc = s.ntoc := rfl
@[simp] theorem afterDecode_ndec (i nd : Nat) (frames : List (TocEntry × List Byte)) (s : State) :
    (afterDecode i nd frames s).ndec = s.ndec := rfl
@[simp] theorem afterDecode_resSamples (i nd : Nat) (frames : List (TocEntry × List Byte)) (s : State) :
    (afterDecode i nd frames s).resSamples = s.resSamples := rfl
@[simp] theorem afterDecode_resPcmBytes (i nd : Nat) (frames : List (TocEntry × List Byte)) (s : State) :
    (afterDecode i nd frames s).resPcmBytes = s.resPcmBytes := rfl
@[simp] theorem afterDecode_result (i nd : Nat) (frames : List (TocEntry × List Byte)) (s : State) :
    (afterDecode i nd frames s).result = s.result := rfl
@[simp] theorem afterDecode_cmrOut (i nd : Nat) (frames : List (TocEntry × List Byte)) (s : State) :
    (afterDecode i nd frames s).cmrOut = s.cmrOut := rfl
@[simp] theorem afterDecode_cmrRaw (i nd : Nat) (frames : List (TocEntry × List Byte)) (s : State) :
    (afterDecode i nd frames s).cmrRaw = s.cmrRaw := rfl
@[simp] theorem afterDecode_pbuf (i nd : Nat) (frames : List (TocEntry × List Byte)) (s : State) :
    (afterDecode i nd frames s).pbuf = s.pbuf := rfl
@[simp] theorem afterDecode_pcmIn (i nd : Nat) (frames : List (TocEntry × List Byte)) (s : State) :
    (afterDecode i nd frames s).pcmIn = s.pcmIn := rfl
@[simp] theorem afterDecode_pcmOut (i nd : Nat) (frames : List (TocEntry × List Byte)) (s : State) :
    (afterDecode i nd frames s).pcmOut = setSlots nd (decodeReplies frames s) s.pcmOut := rfl
@[simp] theorem afterDecode_toc (i nd : Nat) (frames : List (TocEntry × List Byte)) (s : State) :
    (afterDecode i nd frames s).toc = s.toc := rfl
@[simp] theorem afterDecode_staging (i nd : Nat) (frames : List (TocEntry × List Byte)) (s : State) :
    (afterDecode i nd frames s).staging = s.staging := rfl
@[simp] theorem afterDecode_calls (i nd : Nat) (frames : List (TocEntry × List Byte)) (s : State) :
    (afterDecode i nd frames s).calls = s.calls ++ decodeCalls frames s := rfl
@[simp] theorem afterDecode_faulted (i nd : Nat) (frames : List (TocEntry × List Byte)) (s : State) :
    (afterDecode i nd frames s).faulted = s.faulted := rfl
@[simp] theorem afterDecode_draws (i nd : Nat) (frames : List (TocEntry × List Byte)) (s : State) :
    (afterDecode i nd frames s).draws = s.draws + frames.length := rfl
@[simp] theorem afterDecode_host (i nd : Nat) (frames : List (TocEntry × List Byte)) (s : State) :
    (afterDecode i nd frames s).host = s.host := rfl
@[simp] theorem afterDecode_returned (i nd : Nat) (frames : List (TocEntry × List Byte)) (s : State) :
    (afterDecode i nd frames s).returned = s.returned := rfl

/-! ### The cursor -/

@[simp] theorem packFail_pos (e : ErrCode) (s : State) : (packFail e s).pos = s.pos := rfl

@[simp] theorem packAfter_pos (frames : List PcmFrame) (s : State) : (packAfter frames s).pos = s.pos := rfl

theorem packDone_pos (cmr : BitVec 4) (nfr : BitVec 8) (frames : List PcmFrame) (s : State)
    (h : (wirePayload cmr (encodeReplies frames s)).length < 65536) :
    (packDone cmr nfr frames s).pos = 8 * (wirePayload cmr (encodeReplies frames s)).length := by
  show (State.setPos (bitsOf (wirePayload cmr (encodeReplies frames s))).length (packAfter frames s)).pos = _
  rw [pos_setPos _ _ (by simp; omega)]
  simp

theorem unpackRead_pos (cmrByte : Byte) (tocBytes : List Byte) (s : State) (h : tocBytes.length < 65535) :
    (unpackRead cmrByte tocBytes s).pos = 8 * (1 + tocBytes.length) := pos_setPos _ _ (by omega)

theorem afterDecode_pos (i nd : Nat) (frames : List (TocEntry × List Byte)) (s : State)
    (h : i + (frameBytes frames).length < 65536) :
    (afterDecode i nd frames s).pos = 8 * (i + (frameBytes frames).length) := pos_setPos _ _ (by omega)

end Sys2Proof.Laws
end

