-- ==== Sys2Proof/Laws/PerInstr.lean ====
section
/-! SUPPORT. The family `Encoding`: of every instruction, that its word carries the opcode of its row in bits 31:24 and 0 in
every reserved bit of its format (spec 30_encoding.md R80, R81, R83, R84). -/

namespace Sys2Proof.Laws.Encoding

/-- The word of `i` carries its row's OPC and no reserved bit. -/
def Statement (i : Instr) : Prop :=
  opcOf (encode i) = opcodeByte (opcodeOfInstr i) ∧
  operandOf (encode i) &&& reservedMask (opcodeFormat (opcodeOfInstr i)) = 0#24

/-- A bit above the top of a small number is 0. -/
theorem high_bit (n i : Nat) {w : Nat} (x : BitVec w) (h : x.toNat < 2 ^ n) (hi : n ≤ i) : x.getLsbD i = false := by
  rw [← BitVec.testBit_toNat]
  exact Nat.testBit_lt_two_pow (Nat.lt_of_lt_of_le h (Nat.pow_le_pow_right (by omega) hi))

/-- A word of an OPC over a small operand: its two parts. -/
theorem parts (b : Byte) (x : Word) (h : x.toNat < 2 ^ 24) :
    opcOf (b.zeroExtend 32 <<< 24 ||| x) = b ∧ operandOf (b.zeroExtend 32 <<< 24 ||| x) = x.setWidth 24 := by
  constructor
  · apply BitVec.eq_of_getLsbD_eq
    intro i hi
    have hx := high_bit 24 (24 + i) x h (by omega)
    rw [BitVec.getLsbD_eq_getElem (by omega)] at hx
    simp [opcOf, hi, hx, show 24 + i < 32 by omega]
  · apply BitVec.eq_of_getLsbD_eq
    intro i hi
    simp [operandOf, hi]

/-- A row whose operand is small and clear of its reserved bits. -/
theorem of_operand (i : Instr) (h : (encodeOperand i).toNat < 2 ^ 24)
    (hr : (encodeOperand i).setWidth 24 &&& reservedMask (opcodeFormat (opcodeOfInstr i)) = 0#24) : Statement i := by
  obtain ⟨h1, h2⟩ := parts (opcodeByte (opcodeOfInstr i)) (encodeOperand i) h
  exact ⟨h1, by rw [show operandOf (encode i) = (encodeOperand i).setWidth 24 from h2]; exact hr⟩

/-- An operand below `2 ^ n` under a mask whose low `n` bits are 0. -/
theorem low_and_mask (x m : BitVec 24) (n : Nat) (hx : x.toNat < 2 ^ n) (hm : ∀ i, i < n → m.getLsbD i = false) :
    x &&& m = 0#24 := by
  apply BitVec.eq_of_getLsbD_eq
  intro i _
  rw [BitVec.getLsbD_and]
  by_cases h : i < n
  · simp [hm i h]
  · simp [high_bit n i x hx (by omega)]

/-- A row with one field, of `n` bits at bit 0. -/
theorem of_field (i : Instr) (n : Nat) (v : BitVec n) (m : BitVec 24) (hn : n ≤ 24) (he : encodeOperand i = v.zeroExtend 32)
    (hf : reservedMask (opcodeFormat (opcodeOfInstr i)) = m) (hm : ∀ j, j < n → m.getLsbD j = false) : Statement i := by
  have hv : v.toNat < 2 ^ 24 := Nat.lt_of_lt_of_le v.isLt (Nat.pow_le_pow_right (by omega) hn)
  have h24 : v.toNat % 2 ^ 32 = v.toNat := Nat.mod_eq_of_lt (by omega)
  apply of_operand
  · rw [he, BitVec.toNat_setWidth, h24]
    exact hv
  · rw [hf]
    apply low_and_mask _ _ n _ hm
    rw [he, BitVec.toNat_setWidth, BitVec.toNat_setWidth, h24, Nat.mod_eq_of_lt hv]
    exact v.isLt

theorem nop : Statement .nop := ⟨by decide, by decide⟩

theorem curSet (off : BitVec 3) (idx : BitVec 16) : Statement (.curSet off idx) := by
  have h1 : (encodeOperand (.curSet off idx)).toNat < 2 ^ 19 := by
    show (off.zeroExtend 32 <<< 16 ||| idx.zeroExtend 32 : Word).toNat < 2 ^ 19
    have := off.isLt
    have := idx.isLt
    rw [BitVec.toNat_or]
    apply Nat.or_lt_two_pow
    · simp [Nat.shiftLeft_eq]; omega
    · simp; omega
  apply of_operand _ (by omega)
  apply low_and_mask _ _ 19
  · rw [BitVec.toNat_setWidth, Nat.mod_eq_of_lt (by omega)]
    exact h1
  · show ∀ i, i < 19 → (0xF80000#24).getLsbD i = false
    decide

theorem wrbits (count : BitVec 7) : Statement (.wrbits count) := of_field _ 7 count 0xFFFF80#24 (by omega) rfl rfl (by decide)

theorem rdbits (count : BitVec 7) : Statement (.rdbits count) := of_field _ 7 count 0xFFFF80#24 (by omega) rfl rfl (by decide)

theorem pack (cmr : BitVec 4) (nfr : BitVec 8) : Statement (.pack cmr nfr) := by
  have h1 : (encodeOperand (.pack cmr nfr)).toNat < 2 ^ 12 := by
    show (cmr.zeroExtend 32 <<< 8 ||| nfr.zeroExtend 32 : Word).toNat < 2 ^ 12
    have := cmr.isLt
    have := nfr.isLt
    rw [BitVec.toNat_or]
    apply Nat.or_lt_two_pow
    · simp [Nat.shiftLeft_eq]; omega
    · simp; omega
  apply of_operand _ (by omega)
  apply low_and_mask _ _ 12
  · rw [BitVec.toNat_setWidth, Nat.mod_eq_of_lt (by omega)]
    exact h1
  · show ∀ i, i < 12 → (0xFFF000#24).getLsbD i = false
    decide

theorem unpack (outcap : BitVec 8) : Statement (.unpack outcap) := of_field _ 8 outcap 0xFFFF00#24 (by omega) rfl rfl (by decide)

theorem modebits (mode : BitVec 4) : Statement (.modebits mode) := of_field _ 4 mode 0xFFFFF0#24 (by omega) rfl rfl (by decide)

theorem b2s (n : BitVec 16) : Statement (.b2s n) := of_field _ 16 n 0xFF0000#24 (by omega) rfl rfl (by decide)

theorem s2b (n : BitVec 16) : Statement (.s2b n) := of_field _ 16 n 0xFF0000#24 (by omega) rfl rfl (by decide)

theorem tocenc (f q : BitVec 1) (ft : BitVec 4) : Statement (.tocenc f q ft) := by
  unfold Statement
  revert f q ft
  decide

theorem tocdec (byte : BitVec 8) : Statement (.tocdec byte) := of_field _ 8 byte 0xFFFF00#24 (by omega) rfl rfl (by decide)

theorem codecCreate : Statement .codecCreate := ⟨by decide, by decide⟩

theorem codecDestroy : Statement .codecDestroy := ⟨by decide, by decide⟩

end Sys2Proof.Laws.Encoding
end

