-- ==== Sys2Proof/Machine/HostProgram.lean ====
section
/-! DEFINITION. The host's program lines and pseudo-instructions as host accesses (spec 30_encoding.md R89 to R91). -/

namespace Sys2Proof.Machine

open Sys2Proof.Config

/-- `wr REG, v` (R90). -/
def lineWr (r : Reg) (v : Word) : List HostOp := [.write (regOffset r) 32 v]

/-- `rd REG` (R90). -/
def lineRd (r : Reg) : List HostOp := [.read (regOffset r) 32]

/-- `mw i, b` (R90). -/
def lineMw (i : Nat) (b : Byte) : List HostOp := [.write (pbufBase + i) 8 (b.zeroExtend 32)]

/-- `mr i` (R90). -/
def lineMr (i : Nat) : List HostOp := [.read (pbufBase + i) 8]

/-- `pcmin f, X` (R90). -/
def linePcmin (f : Nat) (frame : PcmFrame) : List HostOp := [.pcmInWrite f frame]

/-- `pcmout k` (R90). -/
def linePcmout (k : Nat) : List HostOp := [.pcmOutRead k]

/-- A command line: `wr CMD, encode(command)` followed by `wait` (R90). -/
def lineCommand (i : Instr) : List HostOp := [issueOp (encode i), .wait]

/-- `LDATA v` (R91). -/
def lineLdata (v : BitVec 64) : List HostOp :=
  lineWr .dataHi (v.extractLsb' 32 32) ++ lineWr .dataLo (v.extractLsb' 0 32)

/-- `SETLEN n` (R91). -/
def lineSetlen (n : Word) : List HostOp := lineWr .argLen n

/-- `PUTBYTES i, b0 b1 ... bk` (R91). -/
def linePutbytes : Nat → List Byte → List HostOp
  | _, []      => []
  | i, b :: bs => lineMw i b ++ linePutbytes (i + 1) bs

/-- `FILL i, n, b` (R91). -/
def lineFill (i n : Nat) (b : Byte) : List HostOp := linePutbytes i (List.replicate n b)

/-- `SEEK p` (R91). -/
def lineSeek (p : Nat) : List HostOp :=
  lineCommand (.curSet (BitVec.ofNat 3 (7 - p % 8)) (BitVec.ofNat 16 (p / 8)))

/-- `PUTBITS v, n` (R91). -/
def linePutbits (v : BitVec 64) (n : Nat) : List HostOp :=
  lineLdata (v <<< (64 - n)) ++ lineCommand (.wrbits (BitVec.ofNat 7 n))

/-- `GETBITS n` (R91). -/
def lineGetbits (n : Nat) : List HostOp := lineCommand (.rdbits (BitVec.ofNat 7 n))

end Sys2Proof.Machine
end

