-- ==== Sys2Proof/WellFormed.lean ====
section
/-! DEFINITION. The operand ranges of the command word (spec 30_encoding.md R87). A word whose operands are out of range
still decodes (R88: "Range checks come after decoding"); the command then raises IllegalCommand (60_exceptions.md R201). -/

namespace Sys2Proof

/-- The operand values of `i` lie in the ranges of R87, as far as the command word alone decides them
(ARG_LEN and HSTATE are checked when the command runs). -/
def Instr.wellFormed (p : Config.Params) : Instr → Bool
  | .curSet off idx =>
    idx.toNat < p.bufCap || (idx.toNat == p.bufCap && off == 7#3)
  | .wrbits count   => count.toNat ≤ 64
  | .rdbits count   => count.toNat ≤ 64
  | .pack _ nfr     => 1 ≤ nfr.toNat && nfr.toNat ≤ p.maxFrames
  | .unpack outcap  => outcap.toNat ≤ p.pcmOutFrames
  | .nop            => true
  | .modebits _     => true
  | .b2s _          => true
  | .s2b _          => true
  | .tocenc _ _ _   => true
  | .tocdec _       => true
  | .codecCreate    => true
  | .codecDestroy   => true

end Sys2Proof
end

