-- ==== Sys2Proof/Tests/Slice0.lean ====
section
/-! SUPPORT. Checks of the model against 95_test_vectors.md (the vector's name stands in each docstring), and for every
obligation with hypotheses a state and operands that meet them. -/

namespace Sys2Proof.Tests

open Sys2Proof.Machine Sys2Proof.Config Sys2Proof.Safety

/-! ### Ill-formed operands (R87) -/

theorem test_wf_curSet : (Instr.curSet 6#3 256#16).wellFormed referenceParams = false := by decide
theorem test_wf_wrbits : (Instr.wrbits 65#7).wellFormed referenceParams = false := by decide
theorem test_wf_rdbits : (Instr.rdbits 127#7).wellFormed referenceParams = false := by decide
theorem test_wf_pack_none : (Instr.pack 15#4 0#8).wellFormed referenceParams = false := by decide
theorem test_wf_pack_many : (Instr.pack 15#4 5#8).wellFormed referenceParams = false := by decide
theorem test_wf_unpack : (Instr.unpack 9#8).wellFormed referenceParams = false := by decide
theorem test_wf_end : (Instr.curSet 7#3 256#16).wellFormed referenceParams = true := by decide

/-! ### Words written out from the bit pictures of R81: OPC, then the operand's fields -/

theorem test_decode_nop : decode 0b00000000_00000000_00000000_00000000#32 = .ok .nop := by decide
/-- off = 2, idx = 0x0103. -/
theorem test_decode_curSet : decode 0b00000001_00000010_00000001_00000011#32 = .ok (.curSet 2#3 0x0103#16) := by decide
theorem test_decode_wrbits : decode 0b00000010_00000000_00000000_01000000#32 = .ok (.wrbits 64#7) := by decide
theorem test_decode_rdbits : decode 0b00000011_00000000_00000000_00000101#32 = .ok (.rdbits 5#7) := by decide
/-- cmr = 7, nfr = 2 (P2). -/
theorem test_decode_pack : decode 0b00010000_00000000_00000111_00000010#32 = .ok (.pack 7#4 2#8) := by decide
theorem test_decode_unpack : decode 0b00010001_00000000_00000000_00001000#32 = .ok (.unpack 8#8) := by decide
theorem test_decode_modebits : decode 0b00100000_00000000_00000000_00000111#32 = .ok (.modebits 7#4) := by decide
theorem test_decode_b2s : decode 0b00100001_00000000_00000000_00001010#32 = .ok (.b2s 10#16) := by decide
theorem test_decode_s2b : decode 0b00100010_00000000_00000000_10100000#32 = .ok (.s2b 160#16) := by decide
/-- f = 1, q = 0, ft = 5. -/
theorem test_decode_tocenc : decode 0b00100011_00000000_00000001_00000101#32 = .ok (.tocenc 1#1 0#1 5#4) := by decide
theorem test_decode_tocdec : decode 0b00100100_00000000_00000000_10000100#32 = .ok (.tocdec 0x84#8) := by decide
theorem test_decode_codecCreate : decode 0b00110000_00000000_00000000_00000000#32 = .ok .codecCreate := by decide
theorem test_decode_codecDestroy : decode 0b00110001_00000000_00000000_00000000#32 = .ok .codecDestroy := by decide

/-- B18, B22, T8, T13, M9, H4, P8, U20, K8: reserved bits. -/
theorem test_decode_reserved :
    [0x01080000#32, 0x02000080#32, 0x23000020#32, 0x24000100#32, 0x20000010#32, 0x21010000#32, 0x10001001#32, 0x11000100#32,
      0x00000001#32].all (fun w => (decode w).toOption.isNone) = true := by decide

/-- K9: undefined opcodes. -/
theorem test_decode_undefined :
    [0x04000000#32, 0x0F000000#32, 0x12000000#32, 0x1F000000#32, 0x25000000#32, 0x2F000000#32, 0x32000000#32,
      0xFF000000#32].all (fun w => (decode w).toOption.isNone) = true := by decide

theorem test_decodeTableWord : decodeTableWord 32 0x10000F01 = some (.pack 15#4 1#8) := by decide

/-- R89: the assembler's form. -/
theorem test_assembly : assembly (.pack 15#4 1#8) = ("PACK", [("cmr", 15), ("nfr", 1)]) := by decide

/-! ### States -/

/-- The reference configuration with the stub codec (section 2). -/
def stubParams : Params := { referenceParams with codec := .stub }

def stubReset : State := State.resetFor stubParams

/-- A block with a live handle, one create call made. -/
def live : State := { stubReset with hstate := .live, calls := [.create 0#32 true] }

def released : State := { live with hstate := .released, calls := [.create 0#32 true, .destroy] }

/-- Bytes in PBUF from byte `i` on. -/
def poke : Nat → List Byte → State → State
  | _, [], s      => s
  | i, b :: bs, s => poke (i + 1) bs { s with pbuf := s.pbuf.writeByte i b }

/-- Byte `i` of PBUF. -/
def peek (i : Nat) (s : State) : Option Byte := s.pbuf.readByte i

/-- An outcome is a next state with this property. -/
def nextHas (o : Host.Outcome State Fault Refusal) (p : State → Bool) : Bool :=
  match o with
  | .next t    => p t
  | .fault _   => false
  | .refused _ => false

/-- An outcome is this fault. -/
def faultIs (o : Host.Outcome State Fault Refusal) (f : Fault) : Bool :=
  match o with
  | .next _    => false
  | .fault g   => g == f
  | .refused _ => false

/-- An outcome is a state faulted by this fault, which has taken every access. -/
def faultedBy (o : Host.Outcome State Fault Refusal) (f : Fault) : Bool := nextHas o (fun t => t.faulted == some f && t.host == [])

/-- The state after, the state before where there is none. -/
def after (i : Instr) (s : State) : State :=
  match exec i s with
  | .next t    => t
  | .fault _   => s
  | .refused _ => s

/-- An outcome is a next state. -/
theorem next_of {o : Host.Outcome State Fault Refusal} (h : nextHas o (fun _ => true) = true) : ∃ t, o = .next t := by
  cases o with
  | next t => exact ⟨t, rfl⟩
  | fault f => cases h
  | refused r => cases h

def host (op : HostOp) (s : State) : State := { s with host := [op] }

/-- A CMD write to come. -/
def cmdWrite (w : Word) (s : State) : State := host (.write 0x010 32 w) s

def ff (n : Nat) : List Byte := List.replicate n 0xFF#8

/-- The stub's frames of section 2. -/
def frameX0 : PcmFrame := stubFrame 0#8 1#1 (ff 11 ++ [0xFE#8])
def frameX1 : PcmFrame := stubFrame 2#8 1#1 (ff 14 ++ [0xFC#8])
def frameY : PcmFrame := stubFrame 7#8 1#1 (ff 30 ++ [0xF0#8])
def frameXB : PcmFrame := stubFrame 8#8 0#1 []

/-- The payload of P2. -/
def payload30 : List Byte := [0x70#8, 0x84#8, 0x14#8] ++ ff 11 ++ [0xFE#8] ++ ff 14 ++ [0xFC#8]

/-- A live block about to pack these frames into `cap` bytes. -/
def toPack (frames : List PcmFrame) (cap : BitVec 16) : State :=
  { live with pcmIn := frames.map some ++ List.replicate (4 - frames.length) none, argLen := cap }

/-- A live block about to unpack this payload. -/
def toUnpack (payload : List Byte) (plen : BitVec 16) : State := { poke 0 payload live with argLen := plen }

/-! ### One step of each command -/

/-- B1. -/
theorem test_curSet_moves : readReg .cur (after (.curSet 5#3 0#16) stubReset) = 0x00050000#32 := by decide
/-- B16. -/
theorem test_curSet_beyond :
    (after (.curSet 6#3 256#16) stubReset).err = .illegalCommand ∧
      readReg .cur (after (.curSet 6#3 256#16) stubReset) = 0x00070000#32 := by decide

/-- B5: a run across a byte boundary from byte 0, offset 2. -/
theorem test_wrbits_crosses :
    (let t := after (.wrbits 6#7) { poke 0 [0x00#8, 0x00#8] stubReset with bitOffset := 2#3, data := 0xCC00000000000000#64 }
     peek 0 t = some 0x06#8 ∧ peek 1 t = some 0x60#8 ∧ readReg .cur t = 0x00040001#32) := by decide
/-- B24: the untouched bits of a touched byte stay undefined. -/
theorem test_wrbits_undefined :
    (let t := after (.wrbits 1#7) { stubReset with data := 0x8000000000000000#64 }
     t.err = .none ∧ t.pbuf.getBit 0 = some true ∧ t.pbuf.getBit 1 = none ∧ peek 0 t = none) := by decide

/-- B7. -/
theorem test_rdbits_crosses :
    (let t := after (.rdbits 6#7) { poke 0 [0x06#8, 0x60#8] stubReset with bitOffset := 2#3 }
     t.data = 0xCC00000000000000#64 ∧ readReg .cur t = 0x00040001#32) := by decide +kernel
/-- B11: a read of no bits clears DATA. -/
theorem test_rdbits_none :
    (let t := after (.rdbits 0#7) { poke 0 [0x5A#8] stubReset with bitOffset := 4#3, data := 0x123456789ABCDEF0#64 }
     t.err = .none ∧ t.data = 0#64 ∧ readReg .cur t = 0x00040000#32) := by decide

/-- P2: the whole payload, the pad bits 0 though X0 and X1 are read as they are. -/
theorem test_pack_two :
    (let t := after (.pack 7#4 2#8) (toPack [frameX0, frameX1] 30#16)
     t.err = .none ∧ (List.range 30).map (fun i => peek i t) = payload30.map some ∧ peek 30 t = none ∧
       readReg .resLen t = 0x1E#32 ∧ readReg .resFrames t = 2#32 ∧ readReg .cur t = 0x0007001E#32) := by decide +kernel
/-- P10: an invalid mode stops the calls. -/
theorem test_pack_invalid :
    (let t := after (.pack 0#4 3#8) (toPack [frameX0, frameXB, frameX1] 256#16)
     t.err = .invalidModeIndex ∧ t.calls.length = 3 ∧ t.pbuf = live.pbuf ∧ t.resLen = 0#16) := by decide

/-- U1. -/
theorem test_unpack_two :
    (let t := after (.unpack 8#8) (toUnpack payload30 30#16)
     t.err = .none ∧ t.pcmOut.take 3 = [some frameX0, some frameX1, none] ∧ readReg .resLen t = 30#32 ∧
       readReg .resFrames t = 0x00020002#32 ∧ readReg .resSamples t = 320#32 ∧ readReg .resPcmBytes t = 640#32 ∧
       readReg .cmrOut t = 0x00007007#32 ∧ readReg .cur t = 0x0007001E#32) := by decide +kernel
/-- U9: the second frame truncated. -/
theorem test_unpack_truncated :
    (let t := after (.unpack 8#8) (toUnpack payload30 29#16)
     t.err = .truncatedPayload ∧ t.trunc = true ∧ t.pcmOut.take 2 = [some frameX0, none] ∧ readReg .resLen t = 15#32 ∧
       readReg .resFrames t = 0x00010002#32 ∧ readReg .resPcmBytes t = 320#32 ∧ readReg .cur t = 0x0007000F#32) := by decide +kernel

/-- M7. -/
theorem test_modebits_seven : readReg .result (after (.modebits 7#4) stubReset) = 0x001F00F4#32 := by decide
/-- M8. -/
theorem test_modebits_eight :
    (let t := after (.modebits 8#4) { stubReset with result := 1#32 }
     t.err = .invalidModeIndex ∧ t.result = 0#32) := by decide

/-- H1, H2. -/
theorem test_b2s_ten : readReg .result (after (.b2s 10#16) stubReset) = 160#32 := by decide
theorem test_b2s_top : readReg .result (after (.b2s 65535#16) stubReset) = 0x000FFFF0#32 := by decide

/-- H6, H7. -/
theorem test_s2b_truncates : readReg .result (after (.s2b 159#16) stubReset) = 9#32 := by decide
theorem test_s2b_top : readReg .result (after (.s2b 65535#16) stubReset) = 4095#32 := by decide

/-- T4. -/
theorem test_tocenc_top : readReg .result (after (.tocenc 1#1 1#1 7#4) stubReset) = 0xBC#32 := by decide
/-- T6. -/
theorem test_tocenc_marker :
    (let t := after (.tocenc 0#1 0#1 8#4) { stubReset with result := 1#32 }
     t.err = .invalidModeIndex ∧ t.result = 0#32) := by decide

/-- T10. -/
theorem test_tocdec_marker : readReg .result (after (.tocdec 0x7F#8) stubReset) = 0x0003001F#32 := by decide
/-- T9. -/
theorem test_tocdec_speech : readReg .result (after (.tocdec 0x84#8) stubReset) = 0x01000110#32 := by decide

/-- K10, K11: TRUNC and ERR cleared, irq raised. -/
theorem test_nop_clears :
    nextHas (step (cmdWrite 0#32 { stubReset with trunc := true, err := .truncatedPayload, ie := true }))
      (fun t => !t.trunc && t.err == .none && t.done && t.irq) = true := by decide

/-- K2. -/
theorem test_codecCreate_ok :
    readReg .status (after .codecCreate stubReset) = 0x00000102#32 ∧
      (after .codecCreate stubReset).calls = [.create 0#32 true] := by decide
/-- K6. -/
theorem test_codecCreate_fails :
    readReg .status (after .codecCreate (State.resetFor { stubParams with codec := .failingStub })) = 0x00000072#32 := by decide

/-- K4. -/
theorem test_codecDestroy_ok : readReg .status (after .codecDestroy live) = 0x00000202#32 := by decide
/-- K5. -/
theorem test_codecDestroy_twice : readReg .status (after .codecDestroy released) = 0x00000212#32 := by decide

/-! ### The host's side -/

/-- R5: the reserved bits of ARG_LEN. -/
theorem test_argLen_bits :
    nextHas (step (host (.write 0x020 32 0xFFFFFFFF#32) stubReset)) (fun t => readReg .argLen t == 0x0000FFFF#32) = true := by decide
/-- R2: an undefined byte. -/
theorem test_mr_undefined : faultedBy (step (host (.read 0x1000 8) stubReset)) (.undefinedBit 0) = true := by decide
/-- R7: refused accesses. -/
theorem test_refused_width : faultedBy (step (host (.read 0x00C 16) stubReset)) (.accessWidth 0x00C 16) = true := by decide
theorem test_refused_offset : faultedBy (step (host (.read 0x040 32) stubReset)) (.accessOffset 0x040) = true := by decide
/-- B23: the command stops, and its step makes the block faulted. -/
theorem test_rdbits_undefined :
    faultIs (exec (.rdbits 1#7) stubReset) (.undefinedBit 0) = true ∧
      faultedBy (step (cmdWrite 0x03000001#32 stubReset)) (.undefinedBit 0) = true := by decide
/-- R230: the reset takes a faulted block to its reset state; without a reset next the model stops. -/
theorem test_reset_after_fault :
    nextHas (step (host .platformReset { live with faulted := some (.undefinedBit 0) }))
        (fun t => t.faulted == none && t.hstate == .none && t.calls == []) = true ∧
      faultIs (step (host (.read 0x00C 32) { live with faulted := some (.undefinedBit 0) })) (.undefinedBit 0) = true := by decide
/-- K11, R90: `wait` acknowledges DONE. -/
theorem test_wait :
    nextHas (step (host .wait { stubReset with done := true, ie := true })) (fun t => !t.done && !t.irq) = true := by decide
/-- Program 1, `SEEK 5`. -/
theorem test_seek : lineSeek 5 = [.write 0x010 32 0x01020000#32, .wait] := by decide
/-- Program 1, `PUTBITS 0x33, 6`. -/
theorem test_putbits :
    linePutbits 0x33#64 6 = [.write 0x018 32 0xCC000000#32, .write 0x01C 32 0#32, .write 0x010 32 0x02000006#32, .wait] := by decide
/-- withFetchWord: the next step runs the word. -/
theorem test_withFetchWord :
    nextHas (step (State.reset.withFetchWord 32 0x2100000A)) (fun t => readReg .result t == 160#32) = true := by decide

/-! ### Every obligation's hypotheses are met: encoding and steps -/

theorem wit_EncodeOfDecode : decode 0x23000110#32 = .ok (.tocenc 1#1 1#1 0#4) := by decide

theorem wit_StepRunsTheDecodedCommand :
    (cmdWrite 0x01050000#32 stubReset).host = [.write 0x010 32 0x01050000#32] ∧
      (cmdWrite 0x01050000#32 stubReset).busy = false ∧ (cmdWrite 0x01050000#32 stubReset).faulted = none ∧
      decode 0x01050000#32 = .ok (.curSet 5#3 0#16) ∧ decode 0x03000001#32 = .ok (.rdbits 1#7) ∧
      stubReset.host = [] ∧ stubReset.faulted = none := by
  decide

theorem wit_IllegalWordOnlyReports :
    (cmdWrite 0xFF000000#32 stubReset).host = [.write 0x010 32 0xFF000000#32] ∧
      (cmdWrite 0xFF000000#32 stubReset).busy = false ∧ (cmdWrite 0xFF000000#32 stubReset).faulted = none ∧ decode 0xFF000000#32 = .error (.undefinedOpcode 0xFF#8) ∧
      decode 0x00000001#32 = .error (.reservedBits 1#24) := by decide

/-- Only a host that breaks R236 meets BUSY = 1; the obligation holds of every state. OVR falls by a write of 1 to it and by
a reset. -/
theorem wit_CmdWriteWhileBusySetsOvr :
    (cmdWrite 0#32 { stubReset with busy := true }).host = [.write 0x010 32 0#32] ∧
      (cmdWrite 0#32 { stubReset with busy := true }).busy = true ∧ stubReset.faulted = none ∧
      nextHas (step (host (.write 0x00C 32 4#32) { stubReset with ovr := true })) (fun t => !t.ovr) = true ∧
      nextHas (step (host .platformReset { stubReset with ovr := true })) (fun t => !t.ovr) = true ∧
      nextHas (exec .nop stubReset) (fun _ => true) = true := by decide

theorem wit_EveryCompletionIsTheSame :
    (∃ t, exec .nop stubReset = .next t) ∧ (∃ t, exec (.modebits 8#4) stubReset = .next t) :=
  ⟨next_of (by decide), next_of (by decide)⟩

/-- The values that move, each under a command that may move it. -/
theorem wit_OnlyTheNamedCommandsWrite_small :
    (after (.rdbits 0#7) { stubReset with data := 1#64 }).data ≠ 1#64 ∧
    (after (.modebits 0#4) stubReset).result ≠ 0#32 ∧ (after (.b2s 1#16) stubReset).result ≠ 0#32 ∧
    (after (.s2b 16#16) stubReset).result ≠ 0#32 ∧ (after (.tocenc 1#1 0#1 0#4) stubReset).result ≠ 0#32 ∧
    (after (.tocdec 0#8) stubReset).result ≠ 0#32 ∧ (after .codecCreate stubReset).hstate ≠ .none ∧
    (after .codecDestroy live).hstate ≠ .live ∧ (after .codecCreate stubReset).calls ≠ [] ∧
    (after .codecDestroy live).calls ≠ live.calls ∧ (after (.curSet 6#3 0#16) stubReset).pos ≠ 0 ∧
    (after (.wrbits 1#7) stubReset).pos ≠ 0 ∧ (after (.wrbits 1#7) stubReset).pbuf ≠ stubReset.pbuf ∧
    (after (.rdbits 1#7) (poke 0 [0#8] stubReset)).pos ≠ 0 := by decide

/-- The same of PACK (P11's frame with room) and UNPACK (U9). -/
theorem wit_OnlyTheNamedCommandsWrite_payload :
    (let s := toPack [frameY] 33#16
     let t := after (.pack 15#4 1#8) s
     let u := after (.unpack 8#8) (toUnpack payload30 29#16)
     t.resLen ≠ 0#16 ∧ t.ntoc ≠ 0#16 ∧ t.pos ≠ 0 ∧ t.pbuf ≠ s.pbuf ∧ t.calls ≠ s.calls ∧
       u.cmrOut ≠ 0#4 ∧ u.cmrRaw ≠ 0#8 ∧ u.trunc ≠ false ∧ u.resSamples ≠ 0#32 ∧ u.resPcmBytes ≠ 0#32 ∧ u.resLen ≠ 0#16 ∧
       u.ntoc ≠ 0#16 ∧ u.ndec ≠ 0#16 ∧ u.pos ≠ 0 ∧ u.pcmOut ≠ live.pcmOut ∧ u.calls ≠ live.calls) := by decide +kernel

/-- A command that completes and, B23, one that makes the block faulted. -/
theorem wit_FlagsAreNeverOperands :
    (cmdWrite 0x11000008#32 live).host = [.write 0x010 32 0x11000008#32] ∧ (cmdWrite 0x11000008#32 live).busy = false ∧
      (cmdWrite 0x11000008#32 live).faulted = none ∧
      nextHas (step (cmdWrite 0x11000008#32 live)) (fun t => t.faulted == none) = true ∧
      nextHas (step (cmdWrite 0x03000001#32 live)) (fun t => t.faulted == some (.undefinedBit 0)) = true := by
  decide

/-- A frame the stub answers with mode 0 and one byte short of it. -/
def frameShort : PcmFrame := stubFrame 0#8 0#1 (ff 11)

/-- Where commands stop: RDBITS (B23), PACK at a slot never written (P13) and at a reply that breaks the contract, UNPACK at a
bit of the CMR byte, of a TOC byte (U19's byte 2 in a chain that goes on) and of a speech frame. -/
theorem wit_CommandsStopOnlyAtModelFaults :
    faultIs (exec (.rdbits 1#7) stubReset) (.undefinedBit 0) = true ∧
    faultIs (exec (.pack 0#4 2#8) (toPack [frameX0] 256#16)) (.undefinedPcmIn 1) = true ∧
    faultIs (exec (.pack 0#4 2#8) (toPack [frameX0, frameShort] 256#16)) (.codecContract 0#8) = true ∧
    faultIs (exec (.unpack 8#8) (toUnpack [] 1#16)) (.undefinedBit 0) = true ∧
    faultIs (exec (.unpack 8#8) (toUnpack [0x70#8, 0x84#8] 3#16)) (.undefinedBit 16) = true ∧
    faultIs (exec (.unpack 8#8) (toUnpack [0x70#8, 0x04#8, 0xFF#8] 14#16)) (.undefinedBit 24) = true ∧
    nextHas (exec .nop stubReset) (fun _ => true) = true := by decide +kernel

/-! ### BitCursor -/

/-- B14 and B16: the last legal position and the first one refused. -/
theorem wit_CurSetMovesOrRefuses :
    8 * (256#16).toNat + (7 - (7#3).toNat) ≤ 8 * stubReset.params.bufCap ∧
      8 * stubReset.params.bufCap < 8 * (256#16).toNat + (7 - (6#3).toNat) := by decide

/-- B20's run, which ends at the end of PBUF, and a run of 64 bits. -/
theorem wit_WrbitsWritesItsRun :
    (let s := { stubReset with byteIndex := 255#16, bitOffset := 2#3 }
     Memory.wf s.pbuf = true ∧ s.params.bufCap ≤ 65535 ∧ (3#7).toNat ≤ 64 ∧ s.pos + (3#7).toNat ≤ 8 * s.params.bufCap ∧
       (64#7).toNat ≤ 64 ∧ stubReset.pos + (64#7).toNat ≤ 8 * s.params.bufCap) := by decide

theorem wit_RdbitsReadsItsRun :
    (let s := { poke 254 [0x12#8, 0x34#8] stubReset with byteIndex := 254#16, bitOffset := 4#3 }
     s.params.bufCap ≤ 65535 ∧ (13#7).toNat ≤ 64 ∧ s.pos + (13#7).toNat ≤ 8 * s.params.bufCap ∧
       ∀ k, k < (13#7).toNat → s.pbuf.getBit (s.pos + k) ≠ none) := by decide

/-- B24, then a read of two bits. -/
theorem wit_RdbitsStopsAtAnUndefinedBit :
    (let s := { stubReset with pbuf := stubReset.pbuf.setBit 0 true }
     (2#7).toNat ≤ 64 ∧ s.pos + (2#7).toNat ≤ 8 * s.params.bufCap ∧ 1 < (2#7).toNat ∧ s.pbuf.getBit (s.pos + 1) = none ∧
       ∀ j, j < 1 → s.pbuf.getBit (s.pos + j) ≠ none) := by decide

/-- B19 and B15. -/
theorem wit_RunPastTheEndIsASizingError :
    (let s := { stubReset with byteIndex := 255#16, bitOffset := 2#3 }
     let e := { stubReset with byteIndex := 256#16, bitOffset := 7#3 }
     (4#7).toNat ≤ 64 ∧ 8 * s.params.bufCap < s.pos + (4#7).toNat ∧ 8 * e.params.bufCap < e.pos + (1#7).toNat) := by decide

theorem wit_CountAbove64IsIllegal : 64 < (65#7).toNat := by decide

theorem wit_WriteBitsThenReadBits :
    (let s := { stubReset with bitOffset := 2#3 }
     Memory.wf s.pbuf = true ∧ s.params.bufCap ≤ 65535 ∧ 2 ≤ [true, false, true].length ∧ s.pos + 2 ≤ 8 * s.params.bufCap) := by
  decide

theorem wit_WrbitsThenRdbits :
    (let s := { stubReset with bitOffset := 2#3 }
     Memory.wf s.pbuf = true ∧ s.params.bufCap ≤ 65535 ∧ (64#7).toNat ≤ 64 ∧ s.pos + (64#7).toNat ≤ 8 * s.params.bufCap) := by
  decide

/-! ### Fields, sizing, control -/

theorem wit_TocencBuildsOrRejects : (7#4).toNat ≤ 7 ∧ 8 ≤ (8#4).toNat := by decide

theorem wit_TocencUndoesTocdec :
    (∃ t, exec (.tocdec 0xBC#8) stubReset = .next t) ∧ (after (.tocdec 0xBC#8) stubReset).result.getLsbD 24 = true ∧
      (after (.tocdec 0xBC#8) stubReset).result.extractLsb' 16 2 = 0#2 := ⟨next_of (by decide), by decide, by decide⟩

theorem wit_ModebitsLooksUpOrRejects :
    ([95, 103, 118, 134, 148, 159, 204, 244][(7#4).toNat]? : Option Nat) = some 244 ∧ 8 ≤ (8#4).toNat := by decide

theorem wit_S2bUndoesB2s : (4095#16).toNat ≤ 4095 ∧ ∃ t, exec (.b2s 4095#16) stubReset = .next t :=
  ⟨by decide, next_of (by decide)⟩

theorem wit_NopOnlyCompletes :
    (cmdWrite 0#32 stubReset).host = [.write 0x010 32 0#32] ∧ (cmdWrite 0#32 stubReset).busy = false ∧
      (cmdWrite 0#32 stubReset).faulted = none := by decide

/-- The succeeding and the failing codec. -/
theorem wit_CodecCreateFollowsTheCodec :
    stubReset.hstate = .none ∧ createAnswer stubReset = true ∧
      createAnswer (State.resetFor { stubParams with codec := .failingStub }) = false := by decide

theorem wit_CodecCreateOnlyOnce : live.hstate ≠ .none ∧ released.hstate ≠ .none := by decide

theorem wit_CodecDestroyReleases : live.hstate = .live := by decide

theorem wit_CodecDestroyNeedsAHandle : stubReset.hstate ≠ .live ∧ released.hstate ≠ .live := by decide

/-- A step that keeps HSTATE and each step that moves it. -/
theorem wit_HandleMovesOnlyForward :
    nextHas (step (cmdWrite 0#32 live)) (fun t => t.hstate == .live) = true ∧
      nextHas (step (cmdWrite 0x30000000#32 stubReset)) (fun t => t.hstate == .live) = true ∧
      nextHas (step (cmdWrite 0x31000000#32 live)) (fun t => t.hstate == .released) = true ∧
      nextHas (step (host .platformReset released)) (fun t => t.hstate == .none) = true := by decide

/-! ### PACK -/

/-- P5, P6, P7. -/
theorem wit_PackRefusesBadOperands :
    (0#8).toNat = 0 ∧ live.params.maxFrames < (5#8).toNat ∧ (toPack [frameY] 257#16).params.bufCap < (257#16).toNat := by decide

/-- P9. -/
theorem wit_PackNeedsAHandle :
    (let s := { stubReset with argLen := 256#16 }
     1 ≤ (4#8).toNat ∧ (4#8).toNat ≤ s.params.maxFrames ∧ s.argLen.toNat ≤ s.params.bufCap ∧ s.hstate ≠ .live) := by decide

/-- P1: CAP = L exactly. -/
theorem wit_PackWritesTheWireForm :
    (let s := toPack [frameY] 33#16
     Memory.wf s.pbuf = true ∧ s.hstate = .live ∧ 1 ≤ (1#8).toNat ∧ (1#8).toNat ≤ s.params.maxFrames ∧
       s.argLen.toNat ≤ s.params.bufCap ∧ [frameY].length = (1#8).toNat ∧
       (∀ k, k < (1#8).toNat → s.pcmIn[k]? = some [frameY][k]?) ∧
       (∀ r ∈ encodeReplies [frameY] s, r.mode.toNat ≤ 7 ∧ r.bytes.length = nbytes r.mode.toNat) ∧
       payloadLen ((encodeReplies [frameY] s).map (fun r => r.mode.toNat)) ≤ s.argLen.toNat) := by decide

/-- P10. -/
theorem wit_PackStopsAtAnInvalidMode :
    (let s := toPack [frameX0, frameXB, frameX1] 256#16
     let valid : List EncodeReply := [{ mode := 0#8, q := 1#1, bytes := ff 11 ++ [0xFE#8] }]
     let bad : EncodeReply := { mode := 8#8, q := 0#1, bytes := [] }
     s.hstate = .live ∧ (3#8).toNat ≤ s.params.maxFrames ∧ s.argLen.toNat ≤ s.params.bufCap ∧
       [frameX0, frameXB].length ≤ (3#8).toNat ∧
       (∀ k, k < [frameX0, frameXB].length → s.pcmIn[k]? = some [frameX0, frameXB][k]?) ∧
       encodeReplies [frameX0, frameXB] s = valid ++ [bad] ∧
       (∀ r ∈ valid, r.mode.toNat ≤ 7 ∧ r.bytes.length = nbytes r.mode.toNat) ∧ 8 ≤ bad.mode.toNat) := by decide

/-- P11: CAP = L - 1. -/
theorem wit_PackChecksTheCapacityFirst :
    (let s := toPack [frameY] 32#16
     s.hstate = .live ∧ 1 ≤ (1#8).toNat ∧ (1#8).toNat ≤ s.params.maxFrames ∧ s.argLen.toNat ≤ s.params.bufCap ∧
       [frameY].length = (1#8).toNat ∧ (∀ k, k < (1#8).toNat → s.pcmIn[k]? = some [frameY][k]?) ∧
       (∀ r ∈ encodeReplies [frameY] s, r.mode.toNat ≤ 7 ∧ r.bytes.length = nbytes r.mode.toNat) ∧
       s.argLen.toNat < payloadLen ((encodeReplies [frameY] s).map (fun r => r.mode.toNat))) := by decide

/-- P1 and P11. -/
theorem wit_PackNeverMisaligns :
    nextHas (exec (.pack 15#4 1#8) (toPack [frameY] 33#16)) (fun t => t.err == .none) = true ∧
      nextHas (exec (.pack 15#4 1#8) (toPack [frameY] 32#16)) (fun t => t.err == .bufferTooSmall) = true := by decide +kernel

/-- The error of P12 and the success of P1, from a PBUF in canonical form. -/
theorem wit_PackIsAllOrNothing :
    Memory.wf (toPack [frameY] 33#16).pbuf = true ∧
    nextHas (exec (.pack 15#4 1#8) (toPack [frameY] 0#16)) (fun t => t.err != .none) = true ∧
      nextHas (exec (.pack 15#4 1#8) (toPack [frameY] 33#16)) (fun t => t.err == .none) = true := by decide +kernel

/-! ### UNPACK -/

/-- U11. -/
theorem wit_UnpackRefusesBadOperands :
    live.params.pcmOutFrames < (9#8).toNat ∧ (toUnpack [] 257#16).params.bufCap < (toUnpack [] 257#16).argLen.toNat := by decide

/-- U12. -/
theorem wit_UnpackNeedsAHandle :
    (8#8).toNat ≤ released.params.pcmOutFrames ∧ released.argLen.toNat ≤ released.params.bufCap ∧ released.hstate ≠ .live := by
  decide

/-- U5. -/
theorem wit_UnpackRejectsAnEmptyPayload :
    (8#8).toNat ≤ live.params.pcmOutFrames ∧ live.argLen = 0#16 ∧ live.hstate = .live := by decide

/-- U7, and U6 with no TOC byte at all. -/
theorem wit_UnpackRejectsAnEndlessToc :
    (let s := toUnpack [0x70#8, 0x84#8, 0x84#8] 3#16
     let z := toUnpack [0x70#8] 1#16
     (8#8).toNat ≤ s.params.pcmOutFrames ∧ s.argLen.toNat ≤ s.params.bufCap ∧ s.hstate = .live ∧
       s.argLen.toNat = 1 + [0x84#8, 0x84#8].length ∧ HoldsBytes s 0 [0x70#8, 0x84#8, 0x84#8] ∧
       (∀ v ∈ [0x84#8, 0x84#8], v.getLsbD 7 = true) ∧ z.argLen.toNat = 1 + ([] : List Byte).length ∧ HoldsBytes z 0 [0x70#8]) := by
  unfold HoldsBytes
  decide

/-- U17: one speech entry and no slot. -/
theorem wit_UnpackChecksTheSlotsFirst :
    (let s := toUnpack [0xF0#8, 0x3C#8] 33#16
     (0#8).toNat ≤ s.params.pcmOutFrames ∧ s.argLen.toNat ≤ s.params.bufCap ∧ s.hstate = .live ∧
       1 + [0x3C#8].length ≤ s.argLen.toNat ∧ HoldsBytes s 0 [0xF0#8, 0x3C#8] ∧ TocChain [0x3C#8] ∧
       (0#8).toNat < (speechEntries [0x3C#8]).length) := by
  unfold HoldsBytes TocChain
  decide

/-- U4: a marker, then a frame of mode 0 that ends the payload. -/
theorem wit_UnpackDecodesThePayload :
    (let frames : List (TocEntry × List Byte) := [({ f := 0#1, ft := 0#4, q := 1#1 }, ff 11 ++ [0xFE#8])]
     let s := toUnpack ([0x70#8, 0xFC#8, 0x04#8] ++ ff 11 ++ [0xFE#8]) 15#16
     s.params.legal ∧ SlotsSized s ∧ (1#8).toNat ≤ s.params.pcmOutFrames ∧ s.argLen.toNat ≤ s.params.bufCap ∧
       s.hstate = .live ∧ TocChain [0xFC#8, 0x04#8] ∧ frames.map (fun x => x.1) = speechEntries [0xFC#8, 0x04#8] ∧
       FramesFit frames ∧ HoldsBytes s 0 (0x70#8 :: ([0xFC#8, 0x04#8] ++ frames.flatMap (fun x => x.2))) ∧
       1 + [0xFC#8, 0x04#8].length + (frames.flatMap (fun x => x.2)).length ≤ s.argLen.toNat ∧
       frames.length ≤ (1#8).toNat) := by
  unfold SlotsSized TocChain TocChain FramesFit HoldsBytes
  decide

/-- U15: a chain that ends at PLEN, its one speech frame missing. -/
theorem wit_UnpackKeepsWhatCameBeforeATruncation :
    (let e : TocEntry := { f := 0#1, ft := 0#4, q := 1#1 }
     let frames : List (TocEntry × List Byte) := []
     let s := toUnpack [0x70#8, 0x04#8] 2#16
     s.params.legal ∧ SlotsSized s ∧ (8#8).toNat ≤ s.params.pcmOutFrames ∧ s.argLen.toNat ≤ s.params.bufCap ∧
       s.hstate = .live ∧ TocChain [0x04#8] ∧ [0x04#8].map parseToc = [] ++ e :: [] ∧ e.ft.toNat ≤ 7 ∧
       frames.map (fun x => x.1) = ([] : List TocEntry).filter isSpeech ∧ FramesFit frames ∧
       HoldsBytes s 0 (0x70#8 :: ([0x04#8] ++ frames.flatMap (fun x => x.2))) ∧
       1 + [0x04#8].length + (frames.flatMap (fun x => x.2)).length ≤ s.argLen.toNat ∧
       s.argLen.toNat < 1 + [0x04#8].length + (frames.flatMap (fun x => x.2)).length + nbytes e.ft.toNat ∧
       (speechEntries [0x04#8]).length ≤ (8#8).toNat) := by
  unfold SlotsSized TocChain FramesFit HoldsBytes
  decide

/-- P1, then UNPACK: the stub's frame comes back. -/
theorem wit_UnpackOfPackRoundTrip :
    (let s := toPack [frameY] 33#16
     let r : EncodeReply := { mode := 7#8, q := 1#1, bytes := ff 30 ++ [0xF0#8] }
     s.params.legal ∧ SlotsSized s ∧ PbufCanonical s ∧ s.hstate = .live ∧ [frameY].length = (1#8).toNat ∧
       (∀ k, k < (1#8).toNat → s.pcmIn[k]? = some [frameY][k]?) ∧ (1#8).toNat ≤ (1#8).toNat ∧
       (1#8).toNat ≤ s.params.pcmOutFrames ∧ nextHas (exec (.pack 15#4 1#8) s) (fun t => t.err == .none) = true ∧
       s.params.codec = .stub ∧ (∀ x ∈ [frameY], x = stubFrame r.mode r.q r.bytes ∧ wireFrame r = r.bytes)) := by
  unfold SlotsSized PbufCanonical
  decide +kernel

/-! ### The host -/

theorem wit_RegisterWritesFollowTheMap :
    (Reg.status, 0x00C) ∈ registerMap ∧ (host (.write 0x00C 32 2#32) stubReset).host = [.write 0x00C 32 2#32] ∧
      (host (.write 0x00C 32 2#32) stubReset).busy = false ∧ (host (.write 0x00C 32 2#32) stubReset).faulted = none ∧
      Reg.status ≠ Reg.cmd := by decide

theorem wit_HostReadsHaveNoSideEffect :
    nextHas (step (host (.read 0x00C 32) live)) (fun t => t.faulted == none) = true ∧
      nextHas (step (host (.read 0x1000 8) (poke 0 [0x5A#8] live))) (fun t => t.faulted == none) = true ∧
      nextHas (step (host (.pcmOutRead 0) { live with pcmOut := [some frameY] })) (fun t => t.faulted == none) = true := by decide

theorem wit_RegisterReadsAnswer :
    (Reg.cur, 0x014) ∈ registerMap ∧ (host (.read 0x014 32) stubReset).host = [.read 0x014 32] ∧ stubReset.busy = false ∧
      stubReset.faulted = none ∧ (Reg.status, 0x00C) ∈ registerMap ∧ (Reg.ctrl, 0x008) ∈ registerMap ∧
      nextHas (step (host (.read 0x00C 32) { stubReset with busy := true }))
        (fun t => t.returned == [.word 0x00000001#32]) = true := by decide

/-- The last byte of PBUF: written, read defined and read undefined. -/
theorem wit_PbufWindowReadsAndWrites :
    (let s := poke 255 [0x5A#8] stubReset
     Memory.wf s.pbuf = true ∧ s.faulted = none ∧ s.busy = false ∧ 255 < s.params.bufCap ∧ s.pbuf.readByte 255 = some 0x5A#8 ∧
       stubReset.pbuf.readByte 255 = none ∧
       (host (.write (0x1000 + 255) 8 0x5A#32) s).host = [.write (0x1000 + 255) 8 0x5A#32] ∧
       (host (.read (0x1000 + 255) 8) s).host = [.read (0x1000 + 255) 8]) := by decide

/-- The first unlisted offset on each side, a bad alignment and both bad widths. -/
theorem wit_RefusedAccessesFault :
    stubReset.busy = false ∧ stubReset.faulted = none ∧ (0x040 < 0x1000 ∧ 0x03C < 0x040) ∧ (0xFFC < 0x1000 ∧ 0x03C < 0xFFC) ∧
      (0x1000 ≤ 0x1100 ∧ 0x1000 + stubReset.params.bufCap ≤ 0x1100) ∧ 0x00E % 4 ≠ 0 ∧ (16 : Nat) ≠ 32 ∧ (32 : Nat) ≠ 8 ∧
      (host (.read 0x040 32) stubReset).host = [.read 0x040 32] := by decide

/-- Both ends of each slot range. -/
theorem wit_PcmPortReadsAndWrites :
    (let s := { stubReset with pcmOut := List.replicate 7 none ++ [some frameY] }
     SlotsSized s ∧ s.faulted = none ∧ s.busy = false ∧ 3 < s.params.maxFrames ∧ s.params.maxFrames ≤ 4 ∧ s.pcmOut[7]? = some (some frameY) ∧
       s.pcmOut[6]? = some none ∧ s.params.pcmOutFrames ≤ 8 ∧
       (host (.pcmInWrite 3 frameY) s).host = [.pcmInWrite 3 frameY] ∧ (host (.pcmOutRead 7) s).host = [.pcmOutRead 7]) := by
  unfold SlotsSized
  decide

/-- A running block, a faulted one and one with BUSY = 1; and a faulted block with no reset next. -/
theorem wit_PlatformResetFromAnyState :
    (host .platformReset live).host = [.platformReset] ∧
      (host .platformReset { live with faulted := some (.undefinedBit 0), busy := true }).host = [.platformReset] ∧
      faultIs (step { live with faulted := some (.undefinedBit 0) }) (.undefinedBit 0) = true := by decide

/-! ### Invariants -/

theorem wit_InvariantsHoldAtReset : stubParams.legal ∧ Params.legal ⟨65535, 255, 255, 4, .oracle⟩ ∧ Params.legal ⟨1, 1, 1, 1, .oracle⟩ := by
  decide

/-- A state no reset gives that meets every invariant. -/
theorem live_inv (op : HostOp) : Inv (host op live) where
  legal := by show stubParams.legal; decide
  cursor := by show live.pos ≤ 8 * live.params.bufCap; decide
  canonical := by show Memory.wf live.pbuf = true; decide
  inside := ⟨fun _ _ => rfl, fun _ => by show 0#8 &&& ~~~0#8 = 0#8; decide⟩
  slots := ⟨rfl, rfl⟩
  scratch := ⟨by show 0 ≤ 256; decide, by show 0 ≤ 4; decide, fun r h => absurd h (by show ¬ r ∈ ([] : List EncodeReply); simp)⟩
  status := ⟨rfl, by show live.trunc = true ↔ live.err = .truncatedPayload; decide⟩
  cmr := by show (0#4 : BitVec 4) = cmrOf 0#8; decide
  results := by
    show live.resLen.toNat ≤ live.params.bufCap ∧ live.ntoc.toNat < live.params.bufCap ∧ live.ndec.toNat ≤ 255 ∧ live.resSamples.toNat ≤ 40800 ∧ live.resPcmBytes.toNat ≤ 163200
    decide
  calls := rfl

theorem wit_StepsKeepTheInvariants : Inv (cmdWrite 0x02000040#32 live) ∧ ∃ t, step (cmdWrite 0x02000040#32 live) = .next t :=
  ⟨live_inv _, next_of (by decide)⟩

theorem wit_TheCodecSeesOnlyLegalCalls :
    CallsLegal (cmdWrite 0x31000000#32 live) ∧ ∃ t, step (cmdWrite 0x31000000#32 live) = .next t :=
  ⟨(live_inv _).calls, next_of (by decide)⟩

theorem wit_IdleBlocksStayIdle : (cmdWrite 0#32 stubReset).busy = false ∧ ∃ t, step (cmdWrite 0#32 stubReset) = .next t :=
  ⟨by decide, next_of (by decide)⟩

end Sys2Proof.Tests
end

section
/-! PROOFS. Every step keeps the invariants of the block (O58). A command keeps them up to its completion, which sets the
flags and the scratch areas (R204, R206); every other access touches few fields, or none, that an invariant speaks of. -/

namespace Sys2Proof.Invariants

open Sys2Proof.Machine Sys2Proof.Config Sys2Proof.Safety Sys2Proof.Laws

/-! ### Fields cut to their width -/

/-- A number stored in a register field is cut to its width (log 16), and no bound on it is lost by that. -/
theorem toNat_ofNat_le {n b : Nat} (w : Nat) (h : n ≤ b) : (BitVec.ofNat w n).toNat ≤ b := by
  rw [BitVec.toNat_ofNat]
  exact (Nat.mod_le _ _).trans h

theorem cmrOf_zero : cmrOf 0#8 = 0#4 := by decide

/-! ### While a command runs -/

/-- The invariants that hold from a command's acceptance to its completion: BUSY, ERR and the scratch areas are the
completion's to set, and TRUNC stays as the acceptance left it (R204, R206). -/
structure Running (s : State) : Prop where
  legal     : s.params.legal
  cursor    : CursorInRange s
  canonical : PbufCanonical s
  inside    : PbufInside s
  slots     : SlotsSized s
  cmr       : CmrConsistent s
  results   : ResultsBounded s
  calls     : CallsLegal s
  untrunc   : s.trunc = false

/-- Acceptance clears TRUNC (R204). -/
theorem running_acceptCommand {s : State} (h : Inv s) (w : Word) : Running (acceptCommand w s) :=
  { h with untrunc := rfl }

/-- A completion with any error but TruncatedPayload (R206). -/
theorem Running.completeWith {s : State} (h : Running s) (e : ErrCode) (he : e ≠ .truncatedPayload) :
    Inv (completeWith e s) :=
  { h with
    scratch := completeWith_scratchSized e s
    status := ⟨rfl, by simp [h.untrunc, he]⟩ }

/-- RESULT is in no invariant (R36). -/
theorem Running.result {s : State} (h : Running s) (v : Word) : Running { s with result := v } := { h with }

/-- DATA is in no invariant (R29). -/
theorem Running.data {s : State} (h : Running s) (v : BitVec 64) : Running { s with data := v } := { h with }

theorem Running.setPos {s : State} (h : Running s) {p : Nat} (hp : p ≤ 8 * s.params.bufCap) : Running (s.setPos p) :=
  { h with
    cursor := by
      obtain ⟨⟨-, hcap⟩, -⟩ := h.legal
      unfold CursorInRange
      rw [pos_setPos p s (by omega)]
      exact hp }

theorem Running.setRun {s : State} (h : Running s) (p : Nat) (xs : List Bool)
    (hp : p + xs.length ≤ 8 * s.params.bufCap) : Running { s with pbuf := s.pbuf.setRun p xs } :=
  { h with
    canonical := setRun_wf h.canonical
    inside := setRun_inside h.canonical h.inside p xs hp }

theorem Running.writeBits {s : State} (h : Running s) (bits : List Bool) (n : Nat)
    (hn : s.pos + n ≤ 8 * s.params.bufCap) : Running (writeBits bits n s) :=
  (h.setRun s.pos (bits.take n) (by rw [List.length_take]; omega)).setPos hn

theorem Running.zeroResults {s : State} (h : Running s) : Running (zeroResults s) :=
  { h with
    results := by
      obtain ⟨⟨hcap, -⟩, -⟩ := h.legal
      exact ⟨Nat.zero_le _, hcap, by simp, by simp, by simp⟩ }

/-! ### PACK (R140 to R149) -/

theorem Running.packFail {s : State} (h : Running s) (e : ErrCode) (he : e ≠ .truncatedPayload) : Inv (packFail e s) := by
  obtain ⟨⟨hcap, -⟩, -⟩ := h.legal
  obtain ⟨-, -, -, hsamples, hbytes⟩ := h.results
  have hz : Running { s with resLen := 0#16, ntoc := 0#16, ndec := 0#16 } :=
    { h with results := ⟨Nat.zero_le _, hcap, by simp, hsamples, hbytes⟩ }
  exact hz.completeWith e he

/-- The codec calls of PACK are legal on a live handle (R40). -/
theorem Running.packAfter {s : State} (h : Running s) (hl : s.hstate = .live) (frames : List PcmFrame) :
    Running (packAfter frames s) :=
  { h with
    calls := by
      unfold CallsLegal
      rw [packAfter_calls, handleAfter_append h.calls, packAfter_hstate, hl, encodeCalls_live] }

/-- A payload that fits in PBUF holds fewer TOC entries than PBUF has bytes (R33, R142). -/
theorem Running.packDone {s : State} (h : Running s) (hl : s.hstate = .live) (cmr : BitVec 4) (nfr : BitVec 8)
    (frames : List PcmFrame) (hfit : (wirePayload cmr (encodeReplies frames s)).length ≤ s.params.bufCap)
    (hnfr : nfr.toNat < s.params.bufCap) : Running (packDone cmr nfr frames s) := by
  have hbits : (bitsOf (wirePayload cmr (encodeReplies frames s))).length ≤ 8 * s.params.bufCap := by simp; omega
  have hw : Running (wrote (bitsOf (wirePayload cmr (encodeReplies frames s))) (Laws.packAfter frames s)) :=
    ((h.packAfter hl frames).setRun 0 _ (by rw [Nat.zero_add]; exact hbits)).setPos hbits
  obtain ⟨-, -, -, hsamples, hbytes⟩ := h.results
  have hntoc : (nfr.zeroExtend 16).toNat < s.params.bufCap :=
    (BitVec.toNat_setWidth_of_le (by decide)).trans_lt hnfr
  exact { hw with results := ⟨toNat_ofNat_le 16 hfit, hntoc, by simp, hsamples, hbytes⟩ }

theorem execPack_inv {s t : State} (h : Running s) (cmr : BitVec 4) (nfr : BitVec 8) (ht : execPack cmr nfr s = .next t) :
    Inv t := by
  rcases execPack_cases cmr nfr s t ht with
    ⟨-, rfl⟩ | ⟨-, -, rfl⟩ | ⟨hlegal, hl, frames, -, -, -,
      ⟨-, -, -, -, -, rfl⟩ | ⟨hn, hr, ⟨-, rfl⟩ | ⟨hfit, rfl⟩⟩⟩
  · exact h.completeWith _ nofun
  · exact h.packFail _ nofun
  · exact (h.packAfter hl frames).packFail _ nofun
  · exact (h.packAfter hl frames).packFail _ nofun
  · have harg : s.argLen.toNat ≤ s.params.bufCap := by
      simp only [packIllegal, Bool.or_eq_false_iff, decide_eq_false_iff_not] at hlegal
      omega
    have hlen := wirePayload_length cmr _ (fun r hm => (hr r hm).2)
    have hnfr : nfr.toNat < payloadLen (stagedModes (encodeReplies frames s)) := by
      simp only [payloadLen, stagedModes, List.length_map, encodeReplies_length]
      omega
    exact (h.packDone hl cmr nfr frames (by omega) (by omega)).completeWith _ nofun

/-! ### UNPACK (R160 to R173) -/

theorem Running.unpackStart {s : State} (h : Running s) : Running (unpackStart s) :=
  Running.setPos (s := { s with toc := [], cmrOut := 0#4, cmrRaw := 0#8 }) { h with cmr := cmrOf_zero.symm }
    (Nat.zero_le _)

theorem Running.unpackRead {s : State} (h : Running s) (cmrByte : Byte) (tocBytes : List Byte)
    (hl : 1 + tocBytes.length ≤ s.params.bufCap) : Running (unpackRead cmrByte tocBytes s) :=
  have hc : Running (recordCmr cmrByte (Machine.unpackStart s)) := { h.unpackStart with cmr := rfl }
  Running.setPos (s := { recordCmr cmrByte (Machine.unpackStart s) with toc := [] ++ tocBytes.map parseToc })
    { hc with } (by show 8 * (1 + tocBytes.length) ≤ 8 * s.params.bufCap; omega)

/-- The codec calls of UNPACK are legal on a live handle (R40), and storing frames adds no slot (R46). -/
theorem Running.afterDecode {s : State} (h : Running s) (hl : s.hstate = .live) (i nd : Nat)
    (frames : List (TocEntry × List Byte)) (hfit : i + (frameBytes frames).length ≤ s.params.bufCap) :
    Running (afterDecode i nd frames s) :=
  have hd : Running { s with
      pcmOut := setSlots nd (decodeReplies frames s) s.pcmOut
      calls := s.calls ++ decodeCalls frames s
      draws := s.draws + frames.length } :=
    { h with
      slots := ⟨h.slots.1, (setSlots_length _ _ _).trans h.slots.2⟩
      calls := by
        show handleAfter (s.calls ++ decodeCalls frames s) = some s.hstate
        rw [handleAfter_append h.calls, hl, decodeCalls_live] }
  hd.setPos (Nat.mul_le_mul_left 8 hfit)

/-- The results of UNPACK: the cursor bounds RES_LEN, and the ranges of R9 bound the sample counts (R33 to R35). -/
theorem Running.unpackResults {s : State} (h : Running s) {nd : Nat} (hnd : nd ≤ 255)
    (htoc : s.toc.length < s.params.bufCap) : Running (unpackResults nd s) := by
  obtain ⟨-, -, -, -, hsample⟩ := h.legal
  have hlen : s.pos / 8 ≤ s.params.bufCap := Nat.div_le_of_le_mul h.cursor
  have hbytes : 160 * s.params.pcmSampleBytes * nd ≤ 160 * 4 * 255 :=
    Nat.mul_le_mul (Nat.mul_le_mul_left 160 hsample) hnd
  exact { h with
    results := ⟨toNat_ofNat_le 16 hlen, (toNat_ofNat_le 16 le_rfl).trans_lt htoc, toNat_ofNat_le 16 hnd,
      toNat_ofNat_le 32 (Nat.mul_le_mul_left 160 hnd), toNat_ofNat_le 32 hbytes⟩ }

/-- The end of UNPACK sets TRUNC exactly with TruncatedPayload (R169, R170). -/
theorem Running.unpackEnd {s : State} {nd : Nat} (h : Running (Machine.unpackResults nd s)) (tr : Bool) :
    Inv (unpackEnd (tr, nd, s)) := by
  have hf : Inv (finish (Machine.unpackResults nd s)) := h.completeWith _ nofun
  cases tr with
  | false => exact hf
  | true => exact { hf with status := ⟨rfl, ⟨fun _ => rfl, fun _ => rfl⟩⟩ }

theorem execUnpack_inv {s t : State} (h : Running s) (outcap : BitVec 8) (ht : execUnpack outcap s = .next t) : Inv t := by
  rcases execUnpack_cases outcap s t ht with
    ⟨-, rfl⟩ | ⟨-, -, rfl⟩ | ⟨hlegal, hl, ⟨-, rfl⟩ | ⟨cmrByte, tocBytes, -, hlen, hrest⟩⟩
  · exact h.completeWith _ nofun
  · exact h.zeroResults.completeWith _ nofun
  · obtain ⟨⟨hcap, -⟩, -⟩ := h.legal
    exact (h.unpackStart.unpackResults (Nat.zero_le _) hcap).completeWith _ nofun
  · have harg : s.argLen.toNat ≤ s.params.bufCap := by
      simp only [unpackIllegal, Bool.or_eq_false_iff, decide_eq_false_iff_not] at hlegal
      omega
    have hread : Running (Laws.unpackRead cmrByte tocBytes s) := h.unpackRead cmrByte tocBytes (by omega)
    have htoc : (Laws.unpackRead cmrByte tocBytes s).toc.length < s.params.bufCap := by
      rw [unpackRead_toc, List.length_map]
      omega
    rcases hrest with ⟨-, rfl⟩ | ⟨-, -, rfl⟩ | ⟨-, hcap, tr, frames, -, hfit, -, hframes, -, rfl⟩
    · exact (hread.unpackResults (Nat.zero_le _) htoc).completeWith _ nofun
    · exact (hread.unpackResults (Nat.zero_le _) htoc).completeWith _ nofun
    · have hnd : frames.length ≤ 255 := by have := outcap.isLt; omega
      have hdec := hread.afterDecode hl (1 + tocBytes.length) 0 frames (hfit.trans harg)
      exact (hdec.unpackResults hnd htoc).unpackEnd tr

/-! ### The other commands -/

theorem execCurSet_inv {s t : State} (h : Running s) (off : BitVec 3) (idx : BitVec 16)
    (ht : execCurSet off idx s = .next t) : Inv t := by
  unfold execCurSet at ht
  split at ht
  · obtain rfl := Host.Outcome.next.inj ht
    exact h.completeWith _ nofun
  · rename_i hlegal
    obtain rfl := Host.Outcome.next.inj ht
    have hcur : Running { s with byteIndex := idx, bitOffset := off } :=
      { h with
        cursor := by
          show 8 * idx.toNat + (7 - off.toNat) ≤ 8 * s.params.bufCap
          simp only [curSetIllegal, Bool.or_eq_true, Bool.and_eq_true, decide_eq_true_eq, not_or, not_and, ne_eq,
            Decidable.not_not, Nat.not_lt] at hlegal
          obtain ⟨hidx, hoff⟩ := hlegal
          rcases Nat.lt_or_eq_of_le hidx with hlt | heq
          · omega
          · rw [heq, hoff heq]
            simp }
    exact hcur.completeWith _ nofun

theorem execWrbits_inv {s t : State} (h : Running s) (count : BitVec 7) (ht : execWrbits count s = .next t) : Inv t := by
  unfold execWrbits at ht
  split at ht
  · obtain rfl := Host.Outcome.next.inj ht
    exact h.completeWith _ nofun
  · split at ht
    · obtain rfl := Host.Outcome.next.inj ht
      exact h.completeWith _ nofun
    · rename_i hroom
      obtain rfl := Host.Outcome.next.inj ht
      exact (h.writeBits _ _ (by simpa [runTooLong] using hroom)).completeWith _ nofun

theorem execRdbits_inv {s t : State} (h : Running s) (count : BitVec 7) (ht : execRdbits count s = .next t) : Inv t := by
  unfold execRdbits at ht
  split at ht
  · obtain rfl := Host.Outcome.next.inj ht
    exact h.completeWith _ nofun
  · split at ht
    · obtain rfl := Host.Outcome.next.inj ht
      exact h.completeWith _ nofun
    · rename_i hroom
      split at ht
      · cases ht
      · rename_i bits s1 hread
        obtain ⟨-, rfl⟩ := (readBits_ok _ _ _ _).mp hread
        obtain rfl := Host.Outcome.next.inj ht
        have hmoved : Running (s.setPos (s.pos + count.toNat)) := h.setPos (by simpa [runTooLong] using hroom)
        exact (hmoved.data _).completeWith _ nofun

/-- A create is made only without a handle, and HSTATE follows its answer (R40, R192). -/
theorem execCodecCreate_inv {s t : State} (h : Running s) (ht : execCodecCreate s = .next t) : Inv t := by
  unfold execCodecCreate at ht
  split at ht
  · obtain rfl := Host.Outcome.next.inj ht
    exact h.completeWith _ nofun
  · rename_i hnone
    have hnone : s.hstate = .none := by simpa using hnone
    obtain rfl := Host.Outcome.next.inj ht
    have hcall (ok : Bool) : handleAfter (s.calls ++ [.create s.codecParam ok]) =
        handleStep (some .none) (.create s.codecParam ok) := by
      rw [handleAfter_append h.calls, hnone]
      rfl
    unfold codecCreate
    cases createAnswer s with
    | true =>
      have hlive : Running { recordCall (.create s.codecParam true) s with hstate := .live } :=
        { h with calls := hcall true }
      exact hlive.completeWith _ nofun
    | false =>
      have hfailed : Running (recordCall (.create s.codecParam false) s) :=
        { h with calls := (hcall false).trans (congrArg some hnone.symm) }
      exact hfailed.completeWith _ nofun

/-- A destroy is made only on a live handle, and releases it (R40, R193). -/
theorem execCodecDestroy_inv {s t : State} (h : Running s) (ht : execCodecDestroy s = .next t) : Inv t := by
  unfold execCodecDestroy at ht
  split at ht
  · obtain rfl := Host.Outcome.next.inj ht
    exact h.completeWith _ nofun
  · rename_i hlive
    have hlive : s.hstate = .live := by simpa using hlive
    obtain rfl := Host.Outcome.next.inj ht
    have hreleased : Running { codecDestroy s with hstate := .released } :=
      { h with
        calls := by
          show handleAfter (s.calls ++ [.destroy]) = some .released
          rw [handleAfter_append h.calls, hlive]
          rfl }
    exact hreleased.completeWith _ nofun

/-- Every command that answers leaves all invariants (R204, R206). -/
theorem exec_inv {s t : State} (h : Running s) (i : Instr) (ht : exec i s = .next t) : Inv t := by
  cases i with
  | nop =>
    obtain rfl := Host.Outcome.next.inj ht
    exact h.completeWith _ nofun
  | curSet off idx => exact execCurSet_inv h off idx ht
  | wrbits count => exact execWrbits_inv h count ht
  | rdbits count => exact execRdbits_inv h count ht
  | pack cmr nfr => exact execPack_inv h cmr nfr ht
  | unpack outcap => exact execUnpack_inv h outcap ht
  | modebits mode =>
    simp only [exec, execModebits] at ht
    split at ht <;>
    · obtain rfl := Host.Outcome.next.inj ht
      exact (h.result _).completeWith _ nofun
  | b2s n =>
    obtain rfl := Host.Outcome.next.inj ht
    exact (h.result _).completeWith _ nofun
  | s2b n =>
    obtain rfl := Host.Outcome.next.inj ht
    exact (h.result _).completeWith _ nofun
  | tocenc f q ft =>
    simp only [exec, execTocenc] at ht
    split at ht <;>
    · obtain rfl := Host.Outcome.next.inj ht
      exact (h.result _).completeWith _ nofun
  | tocdec byte =>
    obtain rfl := Host.Outcome.next.inj ht
    exact (h.result _).completeWith _ nofun
  | codecCreate => exact execCodecCreate_inv h ht
  | codecDestroy => exact execCodecDestroy_inv h ht

/-! ### The host's other accesses -/

/-- The host's queue is in no invariant (log 7). -/
theorem inv_host {s : State} (h : Inv s) (rest : List HostOp) : Inv { s with host := rest } := { h with }

/-- No register the host can write is in an invariant (R21 to R38). -/
theorem inv_writeReg {s : State} (h : Inv s) (r : Reg) (v : Word) : Inv (writeReg r v s) := by
  cases r <;> exact { h with }

theorem inv_writeByte {s : State} (h : Inv s) (i : Nat) (v : Byte) (hi : i < s.params.bufCap) :
    Inv { s with pbuf := s.pbuf.writeByte i v } := by
  obtain ⟨hout, hundef⟩ := h.inside
  refine { h with canonical := writeByte_wf h.canonical, inside := ⟨fun j hj => ?_, fun j => ?_⟩ }
  · have hj : s.params.bufCap ≤ j := hj
    exact (byteAt_writeByte_ne (by omega)).trans (hout j hj)
  · show ((s.pbuf.writeByte i v).byteAt j).1 &&& ~~~((s.pbuf.writeByte i v).byteAt j).2 = 0#8
    by_cases hji : j = i
    · subst hji
      unfold Pbuf.writeByte
      rw [byteAt_setByteAt_self h.canonical]
      simp
    · rw [byteAt_writeByte_ne hji]
      exact hundef j

theorem inv_hostWait {s : State} (h : Inv s) : Inv (hostWait s) := by
  unfold hostWait
  split
  · exact inv_writeReg h .status _
  · exact inv_host h _

/-- The reset values of a block with legal parameters meet every invariant (R231). -/
theorem inv_resetFor {p : Params} (hp : p.legal) : Inv (State.resetFor p) where
  legal := hp
  cursor := Nat.zero_le _
  canonical := reset_wf p
  inside := ⟨fun _ _ => rfl, fun _ => BitVec.zero_and⟩
  slots := ⟨List.length_replicate, List.length_replicate⟩
  scratch := ⟨Nat.zero_le _, Nat.zero_le _, nofun⟩
  status := ⟨rfl, nofun, nofun⟩
  cmr := cmrOf_zero.symm
  results := ⟨Nat.zero_le _, hp.1.1, Nat.zero_le _, Nat.zero_le _, Nat.zero_le _⟩
  calls := rfl

/-- The platform's reset needs nothing but legal parameters of the state before it (R230, R231). -/
theorem inv_platformReset {s : State} (hp : s.params.legal) : Inv (platformReset s) := { inv_resetFor hp with }

/-! ### The obligation -/

/-- Settles O58: every way a step answers keeps the invariants; a command keeps them through its completion. -/
theorem stepsKeepTheInvariants : Obligations.StepsKeepTheInvariants := by
  unfold Obligations.StepsKeepTheInvariants
  intro s t h ht
  rcases step_cases s t ht with ⟨-, -, rfl⟩ | ⟨op, rest, -, -, hcases⟩
  · exact h
  · have hr : Inv { s with host := rest } := inv_host h rest
    rcases hcases with ⟨w, i, -, -, -, he⟩ | ⟨w, e, -, -, -, rfl⟩ | ⟨d, rfl⟩ | ⟨r, v, -, rfl⟩ | ⟨i, v, hi, rfl⟩ |
      ⟨f, x, -, rfl⟩ | ⟨-, rfl⟩ | ⟨-, rfl⟩ | ⟨f, rfl⟩
    · exact exec_inv (running_acceptCommand hr w) i he
    · exact (running_acceptCommand hr w).completeWith _ nofun
    · exact { hr with }
    · exact inv_writeReg hr r v
    · exact inv_writeByte hr i v hi
    · exact { hr with slots := ⟨List.length_set.trans h.slots.1, h.slots.2⟩ }
    · exact inv_hostWait hr
    · exact inv_platformReset h.legal
    · exact { hr with }

end Sys2Proof.Invariants
end

section
/-! PROOFS. Which command writes which field, and how the codec's handle moves (O10, O24, O33, O59). -/

namespace Sys2Proof.Commands

open Sys2Proof.Machine Sys2Proof.Config Sys2Proof.Safety Sys2Proof.Laws

/-! ### Every way a command other than PACK and UNPACK answers a next state -/

theorem execCurSet_cases {off : BitVec 3} {idx : BitVec 16} {s t : State} (h : execCurSet off idx s = .next t) :
    t = raiseErr .illegalCommand s ∨ t = finish { s with byteIndex := idx, bitOffset := off } := by
  unfold execCurSet at h
  split at h
  · exact .inl (Host.Outcome.next.inj h).symm
  · exact .inr (Host.Outcome.next.inj h).symm

theorem execWrbits_cases {count : BitVec 7} {s t : State} (h : execWrbits count s = .next t) :
    (∃ e, t = raiseErr e s) ∨ t = finish (writeBits (dataBits count.toNat s.data) count.toNat s) := by
  unfold execWrbits at h
  split at h
  · exact .inl ⟨_, (Host.Outcome.next.inj h).symm⟩
  · split at h
    · exact .inl ⟨_, (Host.Outcome.next.inj h).symm⟩
    · exact .inr (Host.Outcome.next.inj h).symm

theorem execRdbits_cases {count : BitVec 7} {s t : State} (h : execRdbits count s = .next t) :
    (∃ e, t = raiseErr e s) ∨
    ∃ bits, t = finish { s.setPos (s.pos + count.toNat) with data := dataOfBits bits } := by
  unfold execRdbits at h
  split at h
  · exact .inl ⟨_, (Host.Outcome.next.inj h).symm⟩
  · split at h
    · exact .inl ⟨_, (Host.Outcome.next.inj h).symm⟩
    · split at h
      · cases h
      · rename_i bits s1 hread
        obtain ⟨-, rfl⟩ := (readBits_ok _ _ _ _).mp hread
        exact .inr ⟨bits, (Host.Outcome.next.inj h).symm⟩

theorem execModebits_cases {mode : BitVec 4} {s t : State} (h : execModebits mode s = .next t) :
    ∃ e v, t = completeWith e { s with result := v } := by
  unfold execModebits at h
  split at h <;> exact ⟨_, _, (Host.Outcome.next.inj h).symm⟩

theorem execTocenc_cases {f q : BitVec 1} {ft : BitVec 4} {s t : State} (h : execTocenc f q ft s = .next t) :
    ∃ e v, t = completeWith e { s with result := v } := by
  unfold execTocenc at h
  split at h <;> exact ⟨_, _, (Host.Outcome.next.inj h).symm⟩

/-- CODEC_CREATE outside NONE, or one create call and HSTATE by its answer (R192). -/
theorem execCodecCreate_cases {s t : State} (h : execCodecCreate s = .next t) :
    t = raiseErr .illegalCommand s ∨
    (s.hstate = .none ∧
      ((t = finish { recordCall (.create s.codecParam true) s with hstate := .live }) ∨
        t = raiseErr .initializationError (recordCall (.create s.codecParam false) s))) := by
  unfold execCodecCreate codecCreate at h
  split at h
  · exact .inl (Host.Outcome.next.inj h).symm
  · rename_i hnone
    refine .inr ⟨by simpa using hnone, ?_⟩
    obtain rfl := Host.Outcome.next.inj h
    cases createAnswer s with
    | true => exact .inl rfl
    | false => exact .inr rfl

/-- CODEC_DESTROY outside LIVE, or one destroy call and HSTATE = RELEASED (R193). -/
theorem execCodecDestroy_cases {s t : State} (h : execCodecDestroy s = .next t) :
    t = raiseErr .uninitializedCodec s ∨
    (s.hstate = .live ∧ t = finish { recordCall .destroy s with hstate := .released }) := by
  unfold execCodecDestroy at h
  split at h
  · exact .inl (Host.Outcome.next.inj h).symm
  · rename_i hlive
    exact .inr ⟨by simpa using hlive, (Host.Outcome.next.inj h).symm⟩

/-! ### What the end of UNPACK leaves alone, truncated or not (R169, R170) -/

@[simp] theorem unpackEnd_data (tr : Bool) (nd : Nat) (s : State) : (unpackEnd (tr, nd, s)).data = s.data := by
  cases tr <;> rfl
@[simp] theorem unpackEnd_result (tr : Bool) (nd : Nat) (s : State) : (unpackEnd (tr, nd, s)).result = s.result := by
  cases tr <;> rfl
@[simp] theorem unpackEnd_hstate (tr : Bool) (nd : Nat) (s : State) : (unpackEnd (tr, nd, s)).hstate = s.hstate := by
  cases tr <;> rfl
@[simp] theorem unpackEnd_pbuf (tr : Bool) (nd : Nat) (s : State) : (unpackEnd (tr, nd, s)).pbuf = s.pbuf := by
  cases tr <;> rfl
@[simp] theorem unpackEnd_calls (tr : Bool) (nd : Nat) (s : State) : (unpackEnd (tr, nd, s)).calls = s.calls := by
  cases tr <;> rfl

/-! ### The commands and the codec's handle (R40, R191) -/

/-- Neither the call history nor HSTATE moved. -/
def HandleKept (s t : State) : Prop := t.calls = s.calls ∧ t.hstate = s.hstate

/-- A payload command used the live handle: more calls, each legal on it, and it stays LIVE (R41, R143, R168). -/
def HandleUsed (s t : State) : Prop :=
  s.hstate = .live ∧ t.hstate = .live ∧
    ∃ cs, t.calls = s.calls ++ cs ∧ cs.foldl handleStep (some .live) = some .live

/-- A create was answered, and HSTATE follows the answer (R192). -/
def HandleAsked (s t : State) : Prop :=
  s.hstate = .none ∧ ∃ ok, t.calls = s.calls ++ [.create s.codecParam ok] ∧ t.hstate = if ok then .live else .none

/-- The handle was destroyed (R193). -/
def HandleReleased (s t : State) : Prop :=
  s.hstate = .live ∧ t.calls = s.calls ++ [.destroy] ∧ t.hstate = .released

theorem execPack_handle {cmr : BitVec 4} {nfr : BitVec 8} {s t : State} (h : execPack cmr nfr s = .next t) :
    HandleKept s t ∨ HandleUsed s t := by
  rcases execPack_cases cmr nfr s t h with
    ⟨-, rfl⟩ | ⟨-, -, rfl⟩ | ⟨-, hl, frames, -, -, -, ⟨-, -, -, -, -, rfl⟩ | ⟨-, -, ⟨-, rfl⟩ | ⟨-, rfl⟩⟩⟩
  · exact .inl ⟨rfl, rfl⟩
  · exact .inl ⟨rfl, rfl⟩
  · exact .inr ⟨hl, hl, encodeCalls frames s, by simp, encodeCalls_live frames s⟩
  · exact .inr ⟨hl, hl, encodeCalls frames s, by simp, encodeCalls_live frames s⟩
  · exact .inr ⟨hl, by simpa using hl, encodeCalls frames s, by simp, encodeCalls_live frames s⟩

theorem execUnpack_handle {outcap : BitVec 8} {s t : State} (h : execUnpack outcap s = .next t) :
    HandleKept s t ∨ HandleUsed s t := by
  rcases execUnpack_cases outcap s t h with
    ⟨-, rfl⟩ | ⟨-, -, rfl⟩ | ⟨-, hl, ⟨-, rfl⟩ | ⟨c, l, -, -,
      ⟨-, rfl⟩ | ⟨-, -, rfl⟩ | ⟨-, -, tr, frames, -, -, -, -, -, rfl⟩⟩⟩
  · exact .inl ⟨rfl, rfl⟩
  · exact .inl ⟨rfl, rfl⟩
  · exact .inl ⟨rfl, rfl⟩
  · exact .inl ⟨by simp, by simp⟩
  · exact .inl ⟨by simp, by simp⟩
  · exact .inr ⟨hl, by simpa using hl, decodeCalls frames (unpackRead c l s), by simp, decodeCalls_live _ _⟩

/-- What a command that answers did with the handle, and which command it then is. -/
theorem exec_handle {i : Instr} {s t : State} (h : exec i s = .next t) :
    HandleKept s t ∨
    (((∃ cmr nfr, i = .pack cmr nfr) ∨ ∃ outcap, i = .unpack outcap) ∧ HandleUsed s t) ∨
    (i = .codecCreate ∧ HandleAsked s t) ∨ (i = .codecDestroy ∧ HandleReleased s t) := by
  cases i with
  | nop =>
    obtain rfl := Host.Outcome.next.inj h
    exact .inl ⟨rfl, rfl⟩
  | curSet off idx => rcases execCurSet_cases h with rfl | rfl <;> exact .inl ⟨rfl, rfl⟩
  | wrbits count => rcases execWrbits_cases h with ⟨e, rfl⟩ | rfl <;> exact .inl ⟨rfl, rfl⟩
  | rdbits count => rcases execRdbits_cases h with ⟨e, rfl⟩ | ⟨bits, rfl⟩ <;> exact .inl ⟨rfl, rfl⟩
  | pack cmr nfr => exact (execPack_handle h).imp_right fun hu => .inl ⟨.inl ⟨cmr, nfr, rfl⟩, hu⟩
  | unpack outcap => exact (execUnpack_handle h).imp_right fun hu => .inl ⟨.inr ⟨outcap, rfl⟩, hu⟩
  | modebits mode =>
    obtain ⟨e, v, rfl⟩ := execModebits_cases h
    exact .inl ⟨rfl, rfl⟩
  | b2s n =>
    obtain rfl := Host.Outcome.next.inj h
    exact .inl ⟨rfl, rfl⟩
  | s2b n =>
    obtain rfl := Host.Outcome.next.inj h
    exact .inl ⟨rfl, rfl⟩
  | tocenc f q ft =>
    obtain ⟨e, v, rfl⟩ := execTocenc_cases h
    exact .inl ⟨rfl, rfl⟩
  | tocdec byte =>
    obtain rfl := Host.Outcome.next.inj h
    exact .inl ⟨rfl, rfl⟩
  | codecCreate =>
    rcases execCodecCreate_cases h with rfl | ⟨hn, rfl | rfl⟩
    · exact .inl ⟨rfl, rfl⟩
    · exact .inr (.inr (.inl ⟨rfl, hn, true, rfl, rfl⟩))
    · exact .inr (.inr (.inl ⟨rfl, hn, false, rfl, hn⟩))
  | codecDestroy =>
    rcases execCodecDestroy_cases h with rfl | ⟨hl, rfl⟩
    · exact .inl ⟨rfl, rfl⟩
    · exact .inr (.inr (.inr ⟨rfl, hl, rfl, rfl⟩))

/-- A command makes only calls that are legal on the handle it found, and HSTATE follows them (R40, R191). -/
theorem exec_callsLegal {i : Instr} {s t : State} (hs : CallsLegal s) (h : exec i s = .next t) : CallsLegal t := by
  unfold CallsLegal at *
  rcases exec_handle h with ⟨hc, hh⟩ | ⟨-, hl, hl', cs, hc, hcs⟩ | ⟨-, hn, ok, hc, hh⟩ | ⟨-, hl, hc, hh⟩
  · rw [hc, hh, hs]
  · rw [hc, handleAfter_append hs, hl, hl', hcs]
  · rw [hc, handleAfter_append hs, hn, hh]
    cases ok <;> rfl
  · rw [hc, handleAfter_append hs, hl, hh]
    rfl

/-- A command moves HSTATE from NONE to LIVE, from LIVE to RELEASED, or not at all (R40, R191). -/
theorem exec_hstate_forward {i : Instr} {s t : State} (h : exec i s = .next t) :
    t.hstate = s.hstate ∨ (s.hstate = .none ∧ t.hstate = .live) ∨ (s.hstate = .live ∧ t.hstate = .released) := by
  rcases exec_handle h with ⟨-, hh⟩ | ⟨-, hl, hl', -⟩ | ⟨-, hn, ok, -, hh⟩ | ⟨-, hl, -, hh⟩
  · exact .inl hh
  · exact .inl (hl'.trans hl.symm)
  · cases ok with
    | true => exact .inr (.inl ⟨hn, hh⟩)
    | false => exact .inl (hh.trans hn.symm)
  · exact .inr (.inr ⟨hl, hh⟩)

/-! ### A step and the codec's handle -/

theorem writeReg_handle (r : Reg) (v : Word) (s : State) : HandleKept s (writeReg r v s) := by
  cases r <;> exact ⟨rfl, rfl⟩

theorem hostWait_handle (s : State) : HandleKept s (hostWait s) := by
  unfold hostWait
  split <;> exact ⟨rfl, rfl⟩

/-- In a step the handle is kept, or a command runs on a state with that handle, or the platform resets the block. -/
theorem step_handle {s t : State} (h : step s = .next t) :
    HandleKept s t ∨ (∃ i u, HandleKept s u ∧ exec i u = .next t) ∨
    (t.calls = [] ∧ t.hstate = .none ∧ ∃ rest, s.host = .platformReset :: rest) := by
  rcases step_cases s t h with ⟨-, -, rfl⟩ | ⟨op, rest, hh, -, hcases⟩
  · exact .inl ⟨rfl, rfl⟩
  · rcases hcases with ⟨w, i, -, -, -, he⟩ | ⟨w, e, -, -, -, rfl⟩ | ⟨d, rfl⟩ | ⟨r, v, -, rfl⟩ | ⟨i, v, -, rfl⟩ |
      ⟨f, x, -, rfl⟩ | ⟨-, rfl⟩ | ⟨hop, rfl⟩ | ⟨f, rfl⟩
    · exact .inr (.inl ⟨i, acceptCommand w { s with host := rest }, ⟨rfl, rfl⟩, he⟩)
    · exact .inl ⟨rfl, rfl⟩
    · exact .inl ⟨rfl, rfl⟩
    · exact .inl (writeReg_handle r v _)
    · exact .inl ⟨rfl, rfl⟩
    · exact .inl ⟨rfl, rfl⟩
    · exact .inl (hostWait_handle _)
    · exact .inr (.inr ⟨rfl, rfl, rest, by rw [hh, hop]⟩)
    · exact .inl ⟨rfl, rfl⟩

theorem HandleKept.callsLegal {s t : State} (h : HandleKept s t) (hs : CallsLegal s) : CallsLegal t := by
  obtain ⟨hc, hh⟩ := h
  unfold CallsLegal at *
  rw [hc, hh, hs]

/-- Settles O59: a command's calls are legal on the handle it found, the reset starts a new history, and nothing else makes
a call. -/
theorem theCodecSeesOnlyLegalCalls : Obligations.TheCodecSeesOnlyLegalCalls := by
  unfold Obligations.TheCodecSeesOnlyLegalCalls
  intro s t hs ht
  rcases step_handle ht with hk | ⟨i, u, hk, he⟩ | ⟨hc, hh, -⟩
  · exact hk.callsLegal hs
  · exact exec_callsLegal (hk.callsLegal hs) he
  · unfold CallsLegal
    rw [hc, hh]
    rfl

/-- Settles O33: HSTATE moves only in the two lifecycle commands, forward, and in the reset. -/
theorem handleMovesOnlyForward : Obligations.HandleMovesOnlyForward := by
  unfold Obligations.HandleMovesOnlyForward
  intro s t ht
  rcases step_handle ht with ⟨-, hh⟩ | ⟨i, u, ⟨-, hu⟩, he⟩ | ⟨-, hh, hrest⟩
  · exact .inl hh
  · have hmove := exec_hstate_forward he
    rw [hu] at hmove
    rcases hmove with h | h | h
    · exact .inl h
    · exact .inr (.inl h)
    · exact .inr (.inr (.inl h))
  · exact .inr (.inr (.inr ⟨hh, hrest⟩))

/-! ### Which command alone writes a field -/

/-- Settles O10: of each command, what it wrote before its completion. -/
theorem onlyTheNamedCommandsWrite : Obligations.OnlyTheNamedCommandsWrite := by
  unfold Obligations.OnlyTheNamedCommandsWrite
  intro i s t h
  cases i with
  | nop =>
    obtain rfl := Host.Outcome.next.inj h
    simp
  | curSet off idx => rcases execCurSet_cases h with rfl | rfl <;> simp
  | wrbits count => rcases execWrbits_cases h with ⟨e, rfl⟩ | rfl <;> simp
  | rdbits count => rcases execRdbits_cases h with ⟨e, rfl⟩ | ⟨bits, rfl⟩ <;> simp
  | pack cmr nfr =>
    rcases execPack_cases cmr nfr s t h with
      ⟨-, rfl⟩ | ⟨-, -, rfl⟩ | ⟨-, -, frames, -, -, -, ⟨-, -, -, -, -, rfl⟩ | ⟨-, -, ⟨-, rfl⟩ | ⟨-, rfl⟩⟩⟩ <;> simp
  | unpack outcap =>
    rcases execUnpack_cases outcap s t h with
      ⟨-, rfl⟩ | ⟨-, -, rfl⟩ | ⟨-, -, ⟨-, rfl⟩ | ⟨c, l, -, -,
        ⟨-, rfl⟩ | ⟨-, -, rfl⟩ | ⟨-, -, tr, frames, -, -, -, -, -, rfl⟩⟩⟩ <;> simp
  | modebits mode =>
    obtain ⟨e, v, rfl⟩ := execModebits_cases h
    simp [State.pos]
  | b2s n =>
    obtain rfl := Host.Outcome.next.inj h
    simp [State.pos]
  | s2b n =>
    obtain rfl := Host.Outcome.next.inj h
    simp [State.pos]
  | tocenc f q ft =>
    obtain ⟨e, v, rfl⟩ := execTocenc_cases h
    simp [State.pos]
  | tocdec byte =>
    obtain rfl := Host.Outcome.next.inj h
    simp [State.pos]
  | codecCreate => rcases execCodecCreate_cases h with rfl | ⟨hn, rfl | rfl⟩ <;> simp [State.pos]
  | codecDestroy => rcases execCodecDestroy_cases h with rfl | ⟨hl, rfl⟩ <;> simp [State.pos]

/-! ### MODEBITS -/

/-- A completion after a change of RESULT alone (R180). -/
theorem onlyResult_completeWith (e : ErrCode) (v : Word) (s : State) :
    OnlyResult e s (completeWith e { s with result := v }) := by
  refine ⟨⟨rfl, rfl, rfl⟩, ⟨rfl, rfl, rfl, rfl⟩, fun r hr => ?_, fun _ => rfl, ⟨rfl, rfl⟩, rfl, rfl, rfl, rfl, rfl⟩
  cases r with
  | status => simp at hr
  | result => simp at hr
  | _ => rfl

/-- RESULT of MODEBITS as a number, for every mode of the table (R39, R180). -/
theorem modebits_result_toNat (mode : BitVec 4) (h : mode.toNat ≤ 7) :
    ((BitVec.ofNat 32 (nbytes mode.toNat) <<< 16) ||| BitVec.ofNat 32 (nbits mode.toNat) : Word).toNat =
      65536 * ((nbits mode.toNat + 7) / 8) + nbits mode.toNat := by
  revert mode
  decide

/-- Settles O24: a mode is in the table or is 8 or more. -/
theorem modebitsLooksUpOrRejects : Obligations.ModebitsLooksUpOrRejects := by
  unfold Obligations.ModebitsLooksUpOrRejects
  intro mode s
  by_cases hm : 7 < mode.toNat
  · refine ⟨raiseErr .invalidModeIndex { s with result := 0#32 }, by simp only [exec, execModebits, if_pos hm],
      fun n hn => ?_, fun _ => ⟨onlyResult_completeWith _ _ s, rfl⟩⟩
    rw [List.getElem?_eq_none (show 8 ≤ mode.toNat by omega)] at hn
    cases hn
  · refine ⟨_, by simp only [exec, execModebits, if_neg hm]; rfl, fun n hn => ⟨onlyResult_completeWith _ _ s, ?_⟩,
      fun h8 => absurd h8 (by omega)⟩
    have hbits : nbits mode.toNat = n := by simp only [nbits, modeTable, List.getD_eq_getElem?_getD, hn, Option.getD_some]
    rw [← hbits]
    exact modebits_result_toNat mode (by omega)

end Sys2Proof.Commands
end

section
/-! PROOFS. Where commands stop (O11): a command that stops does so in one of its reads or codec calls, which Laws says where
they stop; what is left is to carry that through the checks before it (R141, R161) and to the first undefined bit of PBUF. -/

namespace Sys2Proof.Stops

open Sys2Proof.Machine Sys2Proof.Config Sys2Proof.Safety Sys2Proof.Laws

/-! ### No command is refused (R203) -/

theorem execRdbits_not_refused (count : BitVec 7) (s : State) (r : Refusal) : execRdbits count s ≠ .refused r := by
  unfold execRdbits
  split
  · nofun
  · split
    · nofun
    · split <;> nofun

theorem execPack_not_refused (cmr : BitVec 4) (nfr : BitVec 8) (s : State) (r : Refusal) : execPack cmr nfr s ≠ .refused r := by
  unfold execPack
  split
  · nofun
  · split
    · nofun
    · split <;> nofun

theorem unpackSpeech_not_refused (outcap : BitVec 8) (plen : Nat) (s : State) (r : Refusal) :
    unpackSpeech outcap plen s ≠ .refused r := by
  unfold unpackSpeech
  split
  · nofun
  · split <;> nofun

theorem execUnpack_not_refused (outcap : BitVec 8) (s : State) (r : Refusal) : execUnpack outcap s ≠ .refused r := by
  unfold execUnpack unpackPayload unpackToc
  split
  · nofun
  · split
    · nofun
    · split
      · nofun
      · split
        · nofun
        · split
          · nofun
          · nofun
          · exact unpackSpeech_not_refused _ _ _ _

/-- The commands but RDBITS, PACK and UNPACK always complete (R206). -/
theorem exec_completes_of_no_read {i : Instr} (hr : ∀ n, i ≠ .rdbits n) (hp : ∀ c n, i ≠ .pack c n) (hu : ∀ o, i ≠ .unpack o)
    (s : State) : ∃ t, exec i s = .next t := by
  cases i with
  | nop => exact ⟨_, rfl⟩
  | curSet off idx =>
    simp only [exec, execCurSet]
    split <;> exact ⟨_, rfl⟩
  | wrbits count =>
    simp only [exec, execWrbits]
    split
    · exact ⟨_, rfl⟩
    · split <;> exact ⟨_, rfl⟩
  | rdbits count => exact absurd rfl (hr count)
  | pack cmr nfr => exact absurd rfl (hp cmr nfr)
  | unpack outcap => exact absurd rfl (hu outcap)
  | modebits mode =>
    simp only [exec, execModebits]
    split <;> exact ⟨_, rfl⟩
  | b2s n => exact ⟨_, rfl⟩
  | s2b n => exact ⟨_, rfl⟩
  | tocenc f q ft =>
    simp only [exec, execTocenc]
    split <;> exact ⟨_, rfl⟩
  | tocdec byte => exact ⟨_, rfl⟩
  | codecCreate =>
    simp only [exec, execCodecCreate]
    split <;> exact ⟨_, rfl⟩
  | codecDestroy =>
    simp only [exec, execCodecDestroy]
    split <;> exact ⟨_, rfl⟩

theorem exec_not_refused (i : Instr) (s : State) (r : Refusal) : exec i s ≠ .refused r := by
  intro h
  have hdone (hr : ∀ n, i ≠ .rdbits n) (hp : ∀ c n, i ≠ .pack c n) (hu : ∀ o, i ≠ .unpack o) : False := by
    obtain ⟨t, ht⟩ := exec_completes_of_no_read hr hp hu s
    rw [ht] at h
    cases h
  cases i with
  | rdbits count => exact execRdbits_not_refused count s r h
  | pack cmr nfr => exact execPack_not_refused cmr nfr s r h
  | unpack outcap => exact execUnpack_not_refused outcap s r h
  | _ => exact hdone nofun nofun nofun

/-! ### RDBITS -/

theorem execRdbits_fault (count : BitVec 7) (s : State) (f : Fault) :
    execRdbits count s = .fault f ↔ StopsAt (.rdbits count) s f := by
  have hread := readBits_stops count.toNat s f
  unfold execRdbits
  simp only [StopsAt, countIllegal, runTooLong, decide_eq_true_eq]
  split
  · rename_i hc
    exact ⟨nofun, fun h => absurd h.1 (by omega)⟩
  · rename_i hc
    split
    · rename_i hl
      exact ⟨nofun, fun h => absurd h.2.1 (by omega)⟩
    · rename_i hl
      rw [and_iff_right (by omega), and_iff_right (by omega), ← hread]
      cases readBits count.toNat s <;> simp

/-! ### PACK -/

theorem packIllegal_false (nfr : BitVec 8) (s : State) : packIllegal nfr s = false ↔
    1 ≤ nfr.toNat ∧ nfr.toNat ≤ s.params.maxFrames ∧ s.argLen.toNat ≤ s.params.bufCap := by
  simp only [packIllegal, Bool.or_eq_false_iff, decide_eq_false_iff_not]
  omega

/-- PACK stops only in phase 1, after its operand and handle checks (R141, R143). -/
theorem execPack_fault_iff (cmr : BitVec 4) (nfr : BitVec 8) (s : State) (f : Fault) :
    execPack cmr nfr s = .fault f ↔
      packIllegal nfr s = false ∧ s.hstate = .live ∧ encodeFrames nfr.toNat 0 { s with staging := [] } = .error f := by
  unfold execPack
  cases packIllegal nfr s with
  | true => simp
  | false =>
    by_cases hl : s.hstate = .live
    · rw [if_neg Bool.false_ne_true, if_neg (not_not.mpr hl)]
      rcases encodeFrames nfr.toNat 0 { s with staging := [] } with e | ⟨_ | _, s1⟩ <;> simp [hl]
    · simp [hl]

/-- A slot that answers a frame is one that was written (R45, R47). -/
theorem getD_none_eq_some {l : List (Option PcmFrame)} {k : Nat} {x : PcmFrame} :
    l.getD k none = some x ↔ l[k]? = some (some x) := by
  rw [List.getD_eq_getElem?_getD]
  cases l[k]? <;> simp

/-- The first frames of the input slots, by their reads and by the slots themselves. -/
theorem slots_hold_iff (l : List (Option PcmFrame)) (frames : List PcmFrame) :
    (∀ i, i < frames.length → l.getD i none = frames[i]?) ↔
      ∀ k, k < frames.length → l[k]? = some frames[k]? := by
  refine forall₂_congr fun i hi => ?_
  rw [List.getElem?_eq_getElem hi]
  exact getD_none_eq_some

theorem execPack_fault (cmr : BitVec 4) (nfr : BitVec 8) (s : State) (f : Fault) :
    execPack cmr nfr s = .fault f ↔ StopsAt (.pack cmr nfr) s f := by
  have hcongr (xs : List PcmFrame) : encodeReplies xs { s with staging := [] } = encodeReplies xs s :=
    encodeReplies_congr xs rfl rfl rfl
  rw [execPack_fault_iff, packIllegal_false, encodeFrames_stops]
  simp only [StopsAt, PackGetsPast, encodeStop, hcongr, getD_none_eq_some, Nat.zero_add, slots_hold_iff, and_assoc,
    and_comm (a := f = .undefinedPcmIn _)]

/-! ### The first undefined bit of PBUF -/

/-- Where bytes of PBUF are held, their bits are defined (R64). -/
theorem getBit_of_holdsBytes {s : State} {i : Nat} {bytes : List Byte} (h : HoldsBytes s i bytes) {q : Nat}
    (hi : 8 * i ≤ q) (hq : q < 8 * (i + bytes.length)) : s.pbuf.getBit q ≠ none := by
  have hk : q / 8 - i < bytes.length := by omega
  have hbyte := h (q / 8 - i) hk
  rw [List.getElem?_eq_getElem hk, show i + (q / 8 - i) = q / 8 by omega] at hbyte
  have hbit := (readByte_iff_bits _ _ _).mp hbyte (q % 8) (by omega)
  rw [show 8 * (q / 8) + q % 8 = q by omega] at hbit
  simp [hbit]

/-- Behind bytes that are held from the start of PBUF on, the first undefined bit is that of all PBUF. -/
theorem firstUndefined_after {s : State} {bytes : List Byte} (h : HoldsBytes s 0 bytes) (p : Nat) :
    FirstUndefined s (8 * bytes.length) p ↔ FirstUndefined s 0 p ∧ 8 * bytes.length ≤ p := by
  constructor
  · rintro ⟨hle, hp, hbefore⟩
    refine ⟨⟨Nat.zero_le p, hp, fun q _ hq => ?_⟩, hle⟩
    by_cases hin : q < 8 * bytes.length
    · exact getBit_of_holdsBytes h (by omega) (by omega)
    · exact hbefore q (by omega) hq
  · rintro ⟨⟨-, hp, hbefore⟩, hle⟩
    exact ⟨hle, hp, fun q _ hq => hbefore q (Nat.zero_le q) hq⟩

/-- A byte in front of held bytes. -/
theorem holdsBytes_cons {s : State} {i : Nat} {v : Byte} {bytes : List Byte} :
    HoldsBytes s i (v :: bytes) ↔ s.pbuf.readByte i = some v ∧ HoldsBytes s (i + 1) bytes := by
  constructor
  · intro h
    refine ⟨by simpa using h 0 (by simp), fun k hk => ?_⟩
    have := h (k + 1) (by simpa using hk)
    rwa [show i + (k + 1) = i + 1 + k by omega] at this
  · rintro ⟨h0, h⟩ k hk
    cases k with
    | zero => simpa using h0
    | succ k =>
      have := h k (by simpa using hk)
      rwa [show i + 1 + k = i + (k + 1) by omega] at this

/-- Held bytes in two parts. -/
theorem holdsBytes_append {s : State} {i : Nat} {a b : List Byte} :
    HoldsBytes s i (a ++ b) ↔ HoldsBytes s i a ∧ HoldsBytes s (i + a.length) b := by
  induction a generalizing i with
  | nil => simp [HoldsBytes]
  | cons v a ih =>
    rw [List.cons_append, holdsBytes_cons, holdsBytes_cons, ih, and_assoc, List.length_cons,
      show i + 1 + a.length = i + (a.length + 1) by omega]

/-! ### UNPACK: which phase stops -/

theorem unpackIllegal_false (outcap : BitVec 8) (s : State) : unpackIllegal outcap s = false ↔
    outcap.toNat ≤ s.params.pcmOutFrames ∧ s.argLen.toNat ≤ s.params.bufCap := by
  simp only [unpackIllegal, Bool.or_eq_false_iff, decide_eq_false_iff_not]
  omega

theorem execUnpack_fault_iff (outcap : BitVec 8) (s : State) (f : Fault) :
    execUnpack outcap s = .fault f ↔
      unpackIllegal outcap s = false ∧ s.hstate = .live ∧ unpackPayload outcap s.argLen.toNat (unpackStart s) = .fault f := by
  unfold execUnpack
  cases unpackIllegal outcap s with
  | true => simp
  | false => by_cases hl : s.hstate = .live <;> simp [hl]

theorem unpackPayload_fault_iff (outcap : BitVec 8) (plen : Nat) (s : State) (f : Fault) :
    unpackPayload outcap plen s = .fault f ↔ 1 ≤ plen ∧ (readBits 8 s = .error f ∨
      ∃ bits s1, readBits 8 s = .ok (bits, s1) ∧ unpackToc outcap plen (recordCmr (byteOf bits) s1) = .fault f) := by
  unfold unpackPayload
  by_cases hz : plen < 1
  · rw [if_pos hz]
    exact ⟨nofun, fun h => absurd h.1 (by omega)⟩
  · rw [if_neg hz, and_iff_right (by omega)]
    rcases readBits 8 s with e | ⟨bits, s1⟩ <;> simp

theorem unpackToc_fault_iff (outcap : BitVec 8) (plen : Nat) (s : State) (f : Fault) :
    unpackToc outcap plen s = .fault f ↔ readToc plen plen s = .error f ∨
      ∃ s1, readToc plen plen s = .ok (true, s1) ∧ unpackSpeech outcap plen s1 = .fault f := by
  unfold unpackToc
  rcases readToc plen plen s with e | ⟨_ | _, s1⟩ <;> simp

theorem unpackSpeech_fault_iff (outcap : BitVec 8) (plen : Nat) (s : State) (f : Fault) :
    unpackSpeech outcap plen s = .fault f ↔
      (s.toc.filter isSpeech).length ≤ outcap.toNat ∧ decodeFrames plen s.toc 0 s = .error f := by
  unfold unpackSpeech
  split
  · rename_i hc
    exact ⟨nofun, fun h => absurd h.1 (by omega)⟩
  · rename_i hc
    rw [and_iff_right (by omega)]
    cases decodeFrames plen s.toc 0 s <;> simp

/-! ### UNPACK: at which bit each phase stops -/

/-- UNPACK after the CMR byte was read (R162). -/
def cmrRead (cmrByte : Byte) (s : State) : State := (recordCmr cmrByte (unpackStart s)).setPos 8

theorem cmrRead_pos (cmrByte : Byte) (s : State) : (cmrRead cmrByte s).pos = 8 * 1 := pos_setPos 8 _ (by omega)

/-- The CMR byte read, or the stop in it (R162). -/
theorem readBits_cmr (s : State) (bits : List Bool) (s1 : State) : readBits 8 (unpackStart s) = .ok (bits, s1) ↔
    ∃ cmrByte, s.pbuf.readByte 0 = some cmrByte ∧ bits = bitsN cmrByte.toNat 8 ∧ s1 = (unpackStart s).setPos 8 := by
  have hpos : (unpackStart s).pos = 8 * 0 := unpackStart_pos s
  constructor
  · exact readBits_byte_inv (unpackStart s) s1 0 bits hpos
  · rintro ⟨cmrByte, hv, rfl, rfl⟩
    exact readBits_byte (unpackStart s) 0 cmrByte hpos hv

theorem cmr_stops (s : State) (f : Fault) : readBits 8 (unpackStart s) = .error f ↔
    ∃ p, f = .undefinedBit p ∧ FirstUndefined s 0 p ∧ InBytes 0 1 p := by
  rw [readBits_stops, unpackStart_pos]
  refine exists_congr fun p => and_congr_right fun _ => and_congr Iff.rfl ?_
  unfold InBytes
  omega

/-- F = 1 is bit 7 of a TOC byte (R125). -/
theorem parseToc_f_one (v : Byte) : (parseToc v).f = 1#1 ↔ v.getLsbD 7 = true := by
  revert v
  decide

theorem toc_stops (cmrByte : Byte) (s : State) (f : Fault) (hc : s.pbuf.readByte 0 = some cmrByte) :
    readToc s.argLen.toNat s.argLen.toNat (cmrRead cmrByte s) = .error f ↔
      ∃ tocBytes p, f = .undefinedBit p ∧ FirstUndefined s 0 p ∧ HoldsBytes s 0 (cmrByte :: tocBytes) ∧
        (∀ v ∈ tocBytes, v.getLsbD 7 = true) ∧ 1 + tocBytes.length < s.argLen.toNat ∧ InBytes (1 + tocBytes.length) 1 p := by
  have hplen : s.argLen.toNat ≤ 65535 := by have := s.argLen.isLt; omega
  rw [readToc_stops _ hplen _ 1 _ f (cmrRead_pos cmrByte s) (by omega)]
  refine exists₂_congr fun tocBytes p => ?_
  have hholds : HoldsBytes s 0 (cmrByte :: tocBytes) ↔ HoldsBytes (cmrRead cmrByte s) 1 tocBytes := by
    rw [holdsBytes_cons, and_iff_right hc]
    rfl
  have hlen : 8 * (1 + tocBytes.length) = 8 * (cmrByte :: tocBytes).length := by simp only [List.length_cons]; omega
  constructor
  · rintro ⟨hF, hb, hl, rfl, hp, hlt⟩
    rw [hlen] at hp
    obtain ⟨hp, hle⟩ := (firstUndefined_after (hholds.mpr hb) p).mp hp
    exact ⟨rfl, hp, hholds.mpr hb, fun v hv => (parseToc_f_one v).mp (hF v hv), hl, by unfold InBytes; omega⟩
  · rintro ⟨rfl, hp, hb, hF, hl, hle, hlt⟩
    refine ⟨fun v hv => (parseToc_f_one v).mpr (hF v hv), hholds.mp hb, hl, rfl, ?_, hlt⟩
    rw [hlen] at hle ⊢
    exact (firstUndefined_after hb p).mpr ⟨hp, hle⟩

/-- The TOC phase that comes to its end parsed a chain that lies in the payload (R163). -/
theorem toc_ends (cmrByte : Byte) (s s1 : State) (hz : 1 ≤ s.argLen.toNat) :
    readToc s.argLen.toNat s.argLen.toNat (cmrRead cmrByte s) = .ok (true, s1) ↔
      ∃ tocBytes, s1 = unpackRead cmrByte tocBytes s ∧ 1 + tocBytes.length ≤ s.argLen.toNat ∧ HoldsBytes s 1 tocBytes ∧
        TocChain tocBytes := by
  have hplen : s.argLen.toNat ≤ 65535 := by have := s.argLen.isLt; omega
  constructor
  · intro h
    obtain ⟨tocBytes, rfl, hl, hb, hchain, -⟩ := readToc_inv _ hplen _ 1 _ true s1 (cmrRead_pos cmrByte s) hz h
    exact ⟨tocBytes, rfl, hl, hb, hchain rfl⟩
  · rintro ⟨tocBytes, rfl, hl, hb, hchain⟩
    exact readToc_ok _ hplen tocBytes _ 1 _ (by omega) (cmrRead_pos cmrByte s) hl hchain hb

theorem speech_stops (outcap : BitVec 8) (cmrByte : Byte) (tocBytes : List Byte) (s : State) (f : Fault)
    (hb : HoldsBytes s 0 (cmrByte :: tocBytes)) (hl : 1 + tocBytes.length ≤ s.argLen.toNat) :
    unpackSpeech outcap s.argLen.toNat (unpackRead cmrByte tocBytes s) = .fault f ↔
      ∃ before e after frames p, f = .undefinedBit p ∧ FirstUndefined s 0 p ∧
        tocBytes.map parseToc = before ++ e :: after ∧ e.ft.toNat ≤ 7 ∧ (speechEntries tocBytes).length ≤ outcap.toNat ∧
        frames.map (fun x => x.1) = before.filter isSpeech ∧ FramesFit frames ∧
        HoldsBytes s 0 (cmrByte :: (tocBytes ++ frameBytes frames)) ∧
        1 + tocBytes.length + (frameBytes frames).length + nbytes e.ft.toNat ≤ s.argLen.toNat ∧
        InBytes (1 + tocBytes.length + (frameBytes frames).length) (nbytes e.ft.toNat) p := by
  have hplen : s.argLen.toNat ≤ 65535 := by have := s.argLen.isLt; omega
  have htoc : (unpackRead cmrByte tocBytes s).toc = tocBytes.map parseToc := by simp
  rw [unpackSpeech_fault_iff, htoc,
    decodeFrames_stops _ hplen _ (1 + tocBytes.length) 0 _ f (unpackRead_pos cmrByte tocBytes s (by omega)) hl]
  have hholds (frames : List (TocEntry × List Byte)) : HoldsBytes s 0 (cmrByte :: (tocBytes ++ frameBytes frames)) ↔
      HoldsBytes (unpackRead cmrByte tocBytes s) (1 + tocBytes.length) (frameBytes frames) := by
    rw [← List.cons_append, holdsBytes_append, and_iff_right hb, List.length_cons, Nat.zero_add, Nat.add_comm _ 1]
    rfl
  have hlen (frames : List (TocEntry × List Byte)) : 8 * (1 + tocBytes.length + (frameBytes frames).length) =
      8 * (cmrByte :: (tocBytes ++ frameBytes frames)).length := by
    simp only [List.length_cons, List.length_append]
    omega
  constructor
  · rintro ⟨hcap, before, e, after, frames, p, hsplit, h7, hmap, hfit, hframes, hroom, rfl, hp, hlt⟩
    rw [hlen] at hp
    obtain ⟨hp, hle⟩ := (firstUndefined_after ((hholds frames).mpr hframes) p).mp hp
    rw [← hlen] at hle
    exact ⟨before, e, after, frames, p, rfl, hp, hsplit, h7, hcap, hmap, hfit, (hholds frames).mpr hframes, hroom, hle, hlt⟩
  · rintro ⟨before, e, after, frames, p, rfl, hp, hsplit, h7, hcap, hmap, hfit, hframes, hroom, hle, hlt⟩
    refine ⟨hcap, before, e, after, frames, p, hsplit, h7, hmap, hfit, (hholds frames).mp hframes, hroom, rfl, ?_, hlt⟩
    rw [hlen] at hle ⊢
    exact (firstUndefined_after hframes p).mpr ⟨hp, hle⟩

/-! ### UNPACK as a whole -/

/-- UNPACK with a payload stops in the CMR byte, in the TOC phase or in the speech phase (R162, R163, R165). -/
theorem unpackPayload_stops (outcap : BitVec 8) (s : State) (f : Fault) :
    unpackPayload outcap s.argLen.toNat (unpackStart s) = .fault f ↔ 1 ≤ s.argLen.toNat ∧
      (readBits 8 (unpackStart s) = .error f ∨ ∃ cmrByte, s.pbuf.readByte 0 = some cmrByte ∧
        (readToc s.argLen.toNat s.argLen.toNat (cmrRead cmrByte s) = .error f ∨
          ∃ tocBytes, 1 + tocBytes.length ≤ s.argLen.toNat ∧ HoldsBytes s 1 tocBytes ∧ TocChain tocBytes ∧
            unpackSpeech outcap s.argLen.toNat (unpackRead cmrByte tocBytes s) = .fault f)) := by
  have hbyte (v : Byte) : byteOf (bitsN v.toNat 8) = v := by simpa using byteOf_bitsN v []
  rw [unpackPayload_fault_iff]
  refine and_congr_right fun hz => or_congr_right ?_
  simp only [readBits_cmr]
  constructor
  · rintro ⟨bits, s1, ⟨cmrByte, hc, rfl, rfl⟩, h⟩
    rw [hbyte, unpackToc_fault_iff] at h
    refine ⟨cmrByte, hc, h.imp_right ?_⟩
    rintro ⟨s2, h1, h2⟩
    obtain ⟨tocBytes, rfl, hl, hb, hchain⟩ := (toc_ends cmrByte s s2 hz).mp h1
    exact ⟨tocBytes, hl, hb, hchain, h2⟩
  · rintro ⟨cmrByte, hc, h⟩
    refine ⟨_, _, ⟨cmrByte, hc, rfl, rfl⟩, ?_⟩
    rw [hbyte, unpackToc_fault_iff]
    refine h.imp_right ?_
    rintro ⟨tocBytes, hl, hb, hchain, h2⟩
    exact ⟨_, (toc_ends cmrByte s _ hz).mpr ⟨tocBytes, rfl, hl, hb, hchain⟩, h2⟩

/-- UNPACK with a payload stops exactly at the first undefined bit of PBUF, where it asks for that bit. -/
theorem unpackPayload_fault (outcap : BitVec 8) (s : State) (f : Fault) :
    unpackPayload outcap s.argLen.toNat (unpackStart s) = .fault f ↔
      ∃ p, f = .undefinedBit p ∧ FirstUndefined s 0 p ∧ UnpackAsksFor outcap s p := by
  rw [unpackPayload_stops]
  constructor
  · rintro ⟨hz, h | ⟨cmrByte, hc, h | ⟨tocBytes, hl, hb, hchain, h⟩⟩⟩
    · obtain ⟨p, rfl, hp, hin⟩ := (cmr_stops s f).mp h
      exact ⟨p, rfl, hp, .inl ⟨hz, hin⟩⟩
    · obtain ⟨tocBytes, p, rfl, hp, hasks⟩ := (toc_stops cmrByte s f hc).mp h
      exact ⟨p, rfl, hp, .inr (.inl ⟨cmrByte, tocBytes, hasks⟩)⟩
    · obtain ⟨before, e, after, frames, p, rfl, hp, hasks⟩ :=
        (speech_stops outcap cmrByte tocBytes s f (holdsBytes_cons.mpr ⟨hc, hb⟩) hl).mp h
      exact ⟨p, rfl, hp, .inr (.inr ⟨cmrByte, tocBytes, before, e, after, frames, hchain, hasks⟩)⟩
  · rintro ⟨p, rfl, hp, ⟨hz, hin⟩ | ⟨cmrByte, tocBytes, hb, hF, hl, hin⟩ |
      ⟨cmrByte, tocBytes, before, e, after, frames, hchain, hsplit, h7, hcap, hmap, hfit, hframes, hroom, hin⟩⟩
    · exact ⟨hz, .inl ((cmr_stops s _).mpr ⟨p, rfl, hp, hin⟩)⟩
    · obtain ⟨hc, -⟩ := holdsBytes_cons.mp hb
      exact ⟨by omega, .inr ⟨cmrByte, hc, .inl ((toc_stops cmrByte s _ hc).mpr ⟨tocBytes, p, rfl, hp, hb, hF, hl, hin⟩)⟩⟩
    · have hl : 1 + tocBytes.length ≤ s.argLen.toNat := by omega
      obtain ⟨hc, hrest⟩ := holdsBytes_cons.mp hframes
      obtain ⟨hb, -⟩ := holdsBytes_append.mp hrest
      exact ⟨by omega, .inr ⟨cmrByte, hc, .inr ⟨tocBytes, hl, hb, hchain,
        (speech_stops outcap cmrByte tocBytes s _ (holdsBytes_cons.mpr ⟨hc, hb⟩) hl).mpr
          ⟨before, e, after, frames, p, rfl, hp, hsplit, h7, hcap, hmap, hfit, hframes, hroom, hin⟩⟩⟩⟩

theorem execUnpack_fault (outcap : BitVec 8) (s : State) (f : Fault) :
    execUnpack outcap s = .fault f ↔ StopsAt (.unpack outcap) s f := by
  rw [execUnpack_fault_iff, unpackIllegal_false, unpackPayload_fault, and_assoc]
  rfl

/-! ### The obligation -/

/-- Settles O11: RDBITS, PACK and UNPACK stop where they read, every other command completes. -/
theorem commandsStopOnlyAtModelFaults : Obligations.CommandsStopOnlyAtModelFaults := by
  unfold Obligations.CommandsStopOnlyAtModelFaults
  intro i s
  refine ⟨exec_not_refused i s, fun f => ?_⟩
  have hdone (hr : ∀ n, i ≠ .rdbits n) (hp : ∀ c n, i ≠ .pack c n) (hu : ∀ o, i ≠ .unpack o) : exec i s ≠ .fault f := by
    obtain ⟨t, ht⟩ := exec_completes_of_no_read hr hp hu s
    rw [ht]
    nofun
  cases i with
  | rdbits count => exact execRdbits_fault count s f
  | pack cmr nfr => exact execPack_fault cmr nfr s f
  | unpack outcap => exact execUnpack_fault outcap s f
  | _ => exact ⟨fun h => hdone nofun nofun nofun h, False.elim⟩

end Sys2Proof.Stops
end

section
/-! PROOFS. OVR is no operand: two blocks that differ in it alone take the same step (O12). The acceptance sets DONE, TRUNC
and ERR (R204), so of the flags of R49 only OVR is left to look at while a command runs. -/

namespace Sys2Proof.Flags

open Sys2Proof.Machine Sys2Proof.Config Sys2Proof.Safety Sys2Proof.Laws

/-- The block with another OVR flag. -/
def setOvr (o : Bool) (s : State) : State := { s with ovr := o }

/-- What a command comes to, its next state with another OVR flag. -/
def outcomeSetOvr (o : Bool) : Host.Outcome State Fault Refusal → Host.Outcome State Fault Refusal
  | .next t    => .next (setOvr o t)
  | .fault f   => .fault f
  | .refused r => .refused r

/-- A phase's answer, its state with another OVR flag. -/
def answerSetOvr {α : Type} (o : Bool) (x : Except Fault (α × State)) : Except Fault (α × State) :=
  x.map (Prod.map id (setOvr o))

section

variable (o : Bool)

/-! ### The shared operations -/

theorem readBits_setOvr (n : Nat) (s : State) : readBits n (setOvr o s) = answerSetOvr o (readBits n s) := by
  have hrun : (setOvr o s).pbuf.getRun (setOvr o s).pos n = s.pbuf.getRun s.pos n := rfl
  unfold readBits
  rw [hrun]
  cases s.pbuf.getRun s.pos n with
  | error f => rfl
  | ok bits => rfl

theorem codecEncode_setOvr (x : PcmFrame) (s : State) :
    codecEncode x (setOvr o s) = answerSetOvr o (codecEncode x s) := by
  have ha : encodeAnswer x (setOvr o s) = encodeAnswer x s := rfl
  unfold codecEncode
  rw [ha]
  split <;> rfl

/-! ### PACK -/

theorem encodeFrames_setOvr (k f : Nat) (s : State) :
    encodeFrames k f (setOvr o s) = answerSetOvr o (encodeFrames k f s) := by
  induction k generalizing f s with
  | zero => rfl
  | succ k ih =>
    have hin : readPcmIn f (setOvr o s) = readPcmIn f s := rfl
    simp only [encodeFrames, hin]
    cases readPcmIn f s with
    | error e => rfl
    | ok x =>
      simp only [codecEncode_setOvr]
      cases codecEncode x s with
      | error e => rfl
      | ok rs =>
        obtain ⟨r, s1⟩ := rs
        show (if 7 < r.mode.toNat then _ else _) = _
        by_cases h7 : 7 < r.mode.toNat
        · simp only [if_pos h7]
          rfl
        · simp only [if_neg h7]
          exact ih (f + 1) (stageReply r s1)

theorem writeTocs_setOvr (rs : List EncodeReply) (s : State) : writeTocs rs (setOvr o s) = setOvr o (writeTocs rs s) := by
  induction rs generalizing s with
  | nil => rfl
  | cons r rs ih => exact ih (writeBits (bitsN (tocByteOf rs.isEmpty r).toNat 8) 8 s)

theorem writeFrames_setOvr (rs : List EncodeReply) (s : State) :
    writeFrames rs (setOvr o s) = setOvr o (writeFrames rs s) := by
  induction rs generalizing s with
  | nil => rfl
  | cons r rs ih => exact ih (writeFrame r s)

theorem serialise_setOvr (cmr : BitVec 4) (s : State) : serialise cmr (setOvr o s) = setOvr o (serialise cmr s) := by
  have hstart : writeBits (cmrBits cmr) 8 ((setOvr o s).setPos 0) = setOvr o (writeBits (cmrBits cmr) 8 (s.setPos 0)) := rfl
  have hstaging : (setOvr o s).staging = s.staging := rfl
  unfold serialise
  rw [hstart, hstaging, writeTocs_setOvr, writeFrames_setOvr]

theorem packResults_setOvr (nfr : BitVec 8) (s : State) : packResults nfr (setOvr o s) = setOvr o (packResults nfr s) := by
  have hpos : (setOvr o s).pos = s.pos := rfl
  unfold packResults
  rw [hpos]
  split <;> rfl

theorem packStaged_setOvr (cmr : BitVec 4) (nfr : BitVec 8) (s : State) :
    packStaged cmr nfr (setOvr o s) = setOvr o (packStaged cmr nfr s) := by
  have harg : (setOvr o s).argLen = s.argLen := rfl
  have hstaging : (setOvr o s).staging = s.staging := rfl
  unfold packStaged
  rw [harg, hstaging]
  split
  · rfl
  · rw [serialise_setOvr, packResults_setOvr]

theorem execPack_setOvr (cmr : BitVec 4) (nfr : BitVec 8) (s : State) :
    execPack cmr nfr (setOvr o s) = outcomeSetOvr o (execPack cmr nfr s) := by
  have hlegal : packIllegal nfr (setOvr o s) = packIllegal nfr s := rfl
  have hstate : (setOvr o s).hstate = s.hstate := rfl
  have hcalls : encodeFrames nfr.toNat 0 { setOvr o s with staging := [] } =
      answerSetOvr o (encodeFrames nfr.toNat 0 { s with staging := [] }) :=
    encodeFrames_setOvr o _ _ { s with staging := [] }
  dsimp only at hcalls
  unfold execPack
  rw [hcalls, hlegal, hstate]
  split
  · rfl
  · split
    · rfl
    · cases encodeFrames nfr.toNat 0 { s with staging := [] } with
      | error f => rfl
      | ok x =>
        obtain ⟨ok, s1⟩ := x
        cases ok with
        | false => rfl
        | true => exact congrArg Host.Outcome.next (packStaged_setOvr o cmr nfr s1)

/-! ### UNPACK -/

theorem readToc_setOvr (plen k : Nat) (s : State) :
    readToc plen k (setOvr o s) = answerSetOvr o (readToc plen k s) := by
  induction k generalizing s with
  | zero => rfl
  | succ k ih =>
    have hpos : (setOvr o s).pos = s.pos := rfl
    simp only [readToc, hpos, readBits_setOvr]
    by_cases hend : plen ≤ s.pos / 8
    · simp only [if_pos hend]
      rfl
    · simp only [if_neg hend]
      cases readBits 8 s with
      | error f => rfl
      | ok x =>
        obtain ⟨bits, s1⟩ := x
        show (if (parseToc (byteOf bits)).f = 0#1 then _ else _) = _
        by_cases hf : (parseToc (byteOf bits)).f = 0#1
        · simp only [if_pos hf]
          rfl
        · simp only [if_neg hf]
          exact ih (appendToc (parseToc (byteOf bits)) s1)

/-- How the speech phase ends, its state with another OVR flag. -/
def endSetOvr (e : SpeechEnd) : SpeechEnd := (e.1, e.2.1, setOvr o e.2.2)

theorem decodeFrames_setOvr (plen : Nat) (es : List TocEntry) (nd : Nat) (s : State) :
    decodeFrames plen es nd (setOvr o s) = (decodeFrames plen es nd s).map (endSetOvr o) := by
  induction es generalizing nd s with
  | nil => rfl
  | cons e es ih =>
    have hpos : (setOvr o s).pos = s.pos := rfl
    simp only [decodeFrames, hpos, readBits_setOvr]
    by_cases h7 : 7 < e.ft.toNat
    · simp only [if_pos h7]
      exact ih nd s
    · simp only [if_neg h7]
      by_cases hend : plen < s.pos / 8 + nbytes e.ft.toNat
      · simp only [if_pos hend]
        rfl
      · simp only [if_neg hend]
        cases readBits (8 * nbytes e.ft.toNat) s with
        | error f => rfl
        | ok x =>
          obtain ⟨bits, s1⟩ := x
          exact ih (nd + 1) (writePcmOut nd (codecDecode (e.ft.zeroExtend 8) e.q (bytesOf bits) s1).1
            (codecDecode (e.ft.zeroExtend 8) e.q (bytesOf bits) s1).2)

theorem unpackSpeech_setOvr (outcap : BitVec 8) (plen : Nat) (s : State) :
    unpackSpeech outcap plen (setOvr o s) = outcomeSetOvr o (unpackSpeech outcap plen s) := by
  have htoc : (setOvr o s).toc = s.toc := rfl
  unfold unpackSpeech
  rw [htoc, decodeFrames_setOvr]
  split
  · rfl
  · cases decodeFrames plen s.toc 0 s with
    | error f => rfl
    | ok e =>
      obtain ⟨tr, nd, s1⟩ := e
      cases tr <;> rfl

theorem unpackToc_setOvr (outcap : BitVec 8) (plen : Nat) (s : State) :
    unpackToc outcap plen (setOvr o s) = outcomeSetOvr o (unpackToc outcap plen s) := by
  unfold unpackToc
  rw [readToc_setOvr]
  cases readToc plen plen s with
  | error f => rfl
  | ok x =>
    obtain ⟨ok, s1⟩ := x
    cases ok with
    | false => rfl
    | true => exact unpackSpeech_setOvr o outcap plen s1

theorem execUnpack_setOvr (outcap : BitVec 8) (s : State) :
    execUnpack outcap (setOvr o s) = outcomeSetOvr o (execUnpack outcap s) := by
  have hlegal : unpackIllegal outcap (setOvr o s) = unpackIllegal outcap s := rfl
  have hstate : (setOvr o s).hstate = s.hstate := rfl
  have harg : (setOvr o s).argLen = s.argLen := rfl
  have hstart : unpackStart (setOvr o s) = setOvr o (unpackStart s) := rfl
  unfold execUnpack
  rw [hlegal, hstate, harg, hstart]
  split
  · rfl
  · split
    · rfl
    · unfold unpackPayload
      rw [readBits_setOvr]
      split
      · rfl
      · cases readBits 8 (unpackStart s) with
        | error f => rfl
        | ok x =>
          obtain ⟨bits, s1⟩ := x
          exact unpackToc_setOvr o outcap s.argLen.toNat (recordCmr (byteOf bits) s1)

/-! ### Any command -/

theorem execRdbits_setOvr (count : BitVec 7) (s : State) :
    execRdbits count (setOvr o s) = outcomeSetOvr o (execRdbits count s) := by
  have hlong : runTooLong count.toNat (setOvr o s) = runTooLong count.toNat s := rfl
  unfold execRdbits
  rw [hlong, readBits_setOvr]
  split
  · rfl
  · split
    · rfl
    · cases readBits count.toNat s with
      | error f => rfl
      | ok x => rfl

theorem execCodecCreate_setOvr (s : State) : execCodecCreate (setOvr o s) = outcomeSetOvr o (execCodecCreate s) := by
  have hstate : (setOvr o s).hstate = s.hstate := rfl
  have hanswer : createAnswer (setOvr o s) = createAnswer s := rfl
  unfold execCodecCreate codecCreate
  rw [hstate, hanswer]
  split
  · rfl
  · cases createAnswer s <;> rfl

/-- A command on a block with another OVR flag does the same and keeps that flag (R49). -/
theorem exec_setOvr (i : Instr) (s : State) : exec i (setOvr o s) = outcomeSetOvr o (exec i s) := by
  cases i with
  | nop => rfl
  | curSet off idx =>
    show (if curSetIllegal off idx s then _ else _) = outcomeSetOvr o (execCurSet off idx s)
    unfold execCurSet
    split <;> rfl
  | wrbits count =>
    show (if countIllegal count then _ else if runTooLong count.toNat s then _ else _) = outcomeSetOvr o (execWrbits count s)
    unfold execWrbits
    split
    · rfl
    · split <;> rfl
  | rdbits count => exact execRdbits_setOvr o count s
  | pack cmr nfr => exact execPack_setOvr o cmr nfr s
  | unpack outcap => exact execUnpack_setOvr o outcap s
  | modebits mode =>
    simp only [exec, execModebits]
    split <;> rfl
  | b2s n => rfl
  | s2b n => rfl
  | tocenc f q ft =>
    simp only [exec, execTocenc]
    split <;> rfl
  | tocdec byte => rfl
  | codecCreate => exact execCodecCreate_setOvr o s
  | codecDestroy =>
    show (if s.hstate ≠ .live then _ else _) = outcomeSetOvr o (execCodecDestroy s)
    unfold execCodecDestroy
    split <;> rfl

/-! ### The step that accepts a word -/

/-- Whatever the flags were, the acceptance leaves OVR alone of them (R204). -/
theorem acceptCommand_flags (w : Word) (s : State) (d tr : Bool) (e : ErrCode) :
    acceptCommand w { s with done := d, ovr := o, trunc := tr, err := e } = setOvr o (acceptCommand w s) := rfl

theorem runWord_flags (w : Word) (s : State) (d tr : Bool) (e : ErrCode) :
    runWord w { s with done := d, ovr := o, trunc := tr, err := e } = outcomeSetOvr o (runWord w s) := by
  unfold runWord
  rw [acceptCommand_flags]
  cases decode w with
  | ok i => exact exec_setOvr o i (acceptCommand w s)
  | error e => rfl

end

theorem runWord_answers (w : Word) (s : State) : (∃ t, runWord w s = .next t) ∨ ∃ f, runWord w s = .fault f := by
  unfold runWord
  cases decode w with
  | ok i =>
    cases h : exec i (acceptCommand w s) with
    | next t => exact .inl ⟨t, h⟩
    | fault f => exact .inr ⟨f, h⟩
    | refused r => exact absurd h (Stops.exec_not_refused i _ r)
  | error e => exact .inl ⟨_, rfl⟩

/-- An idle unfaulted block accepts the word the host writes to CMD (R204). -/
theorem step_cmdWrite (s : State) (w : Word) (rest : List HostOp) (hh : s.host = .write 0x010 32 w :: rest)
    (hf : s.faulted = none) (hb : s.busy = false) :
    step s = recordFault (runWord w { s with host := rest }) { s with host := rest } := by
  rw [step_access s _ rest hf hh]
  simp [access, acceptedWord, regOffset, hb]

/-- Settles O12: the flags but OVR are overwritten by the acceptance, and OVR is no operand of any command. -/
theorem flagsAreNeverOperands : Obligations.FlagsAreNeverOperands := by
  unfold Obligations.FlagsAreNeverOperands
  intro s w rest d o tr e hh hf hb
  have hrun := runWord_flags o w { s with host := rest } d tr e
  rw [step_cmdWrite s w rest hh hf hb, step_cmdWrite { s with done := d, ovr := o, trunc := tr, err := e } w rest hh hf hb,
    hrun]
  rcases runWord_answers w { s with host := rest } with ⟨t, ht⟩ | ⟨f, hfault⟩
  · rw [ht]
    exact ⟨t, setOvr o t, rfl, rfl, rfl, fun _ => rfl⟩
  · rw [hfault]
    exact ⟨_, _, rfl, rfl, rfl, nofun⟩

end Sys2Proof.Flags
end

section
/-! PROOFS. The registers as numbers, the host's accesses and the reset values (O49, O50, O52, O53, O54). -/

namespace Sys2Proof.HostBus

open Sys2Proof.Machine Sys2Proof.Config Sys2Proof.Safety Sys2Proof.Laws

/-! ### Where an access goes (R21, R64 to R66) -/

theorem registerMap_offset {r : Reg} {offset : Nat} (h : (r, offset) ∈ registerMap) : offset = regOffset r := by
  cases r <;> simpa [registerMap, regOffset] using h

theorem busTarget_reg (cap : Nat) (r : Reg) : busTarget cap (regOffset r) 32 = .ok (.reg r) := by
  cases r <;> rfl

theorem busTarget_byte {cap i : Nat} (h : i < cap) : busTarget cap (0x1000 + i) 8 = .ok (.byte i) := by
  unfold busTarget pbufBase
  rw [if_neg (by omega), if_neg (by omega), if_neg (by omega), Nat.add_sub_cancel_left]

theorem regAt_beyond {offset : Nat} (h : 0x03C < offset) : regAt offset = none := by
  refine List.find?_eq_none.mpr fun r _ => ?_
  have hr : regOffset r ≤ 0x03C := by cases r <;> decide
  rw [beq_iff_eq]
  omega

/-- An access R65 or R66 forbids has no target. -/
theorem busTarget_refuses {cap offset width : Nat}
    (h : (offset < 0x1000 ∧ (offset % 4 ≠ 0 ∨ width ≠ 32 ∨ 0x03C < offset)) ∨
      (0x1000 ≤ offset ∧ (width ≠ 8 ∨ 0x1000 + cap ≤ offset))) : ∃ f, busTarget cap offset width = .error f := by
  unfold busTarget pbufBase
  rcases h with ⟨hlow, h⟩ | ⟨hhigh, h⟩
  · rw [if_pos hlow]
    split
    · exact ⟨_, rfl⟩
    · split
      · exact ⟨_, rfl⟩
      · rw [regAt_beyond (by omega)]
        exact ⟨_, rfl⟩
  · rw [if_neg (by omega)]
    split
    · exact ⟨_, rfl⟩
    · split
      · exact ⟨_, rfl⟩
      · omega

/-! ### The step of a read or a write that issues no command -/

theorem access_of_not_accepted {op : HostOp} {s : State} (h : acceptedWord op s = none) : access op s = hostAccess op s := by
  unfold access
  rw [h]

theorem step_read {s : State} {offset width : Nat} {rest : List HostOp} (hh : s.host = .read offset width :: rest)
    (hf : s.faulted = none) (hb : s.busy = false ∨ busyAllows (.read offset width) = true) :
    step s = recordFault (busRead offset width { s with host := rest }) { s with host := rest } := by
  have hserved : (s.busy && !busyAllows (.read offset width)) = false := by rcases hb with hb | hb <;> simp [hb]
  rw [step_access s _ rest hf hh, access_of_not_accepted rfl]
  simp only [hostAccess, hserved]
  rfl

theorem step_write {s : State} {offset width : Nat} {v : Word} {rest : List HostOp}
    (hh : s.host = .write offset width v :: rest) (hf : s.faulted = none) (hb : s.busy = false)
    (hcmd : ¬ (offset = 0x010 ∧ width = 32)) :
    step s = recordFault (busWrite offset width v { s with host := rest }) { s with host := rest } := by
  have hserved : (s.busy && !busyAllows (.write offset width v)) = false := by rw [hb, Bool.false_and]
  have hnone : acceptedWord (.write offset width v) { s with host := rest } = none := if_neg fun h => hcmd ⟨h.1, h.2.1⟩
  rw [step_access s _ rest hf hh, access_of_not_accepted hnone]
  simp only [hostAccess, hserved]
  rfl

/-- A model fault takes the access and leaves the rest (R215, log 11). -/
theorem faulted_enterFault (f : Fault) (s : State) (rest : List HostOp) : Faulted f rest s (enterFault f { s with host := rest }) :=
  ⟨rfl, rfl, rfl, rfl⟩

/-- Settles O54: a refused access has no target, so a read and a write both end in the fault. -/
theorem refusedAccessesFault : Obligations.RefusedAccessesFault := by
  unfold Obligations.RefusedAccessesFault
  intro s offset width v rest hf hb hrefused hop
  obtain ⟨f, htarget⟩ := busTarget_refuses hrefused
  refine ⟨f, enterFault f { s with host := rest }, ?_, faulted_enterFault f s rest⟩
  rcases hop with hh | hh
  · rw [step_read hh hf (.inl hb), busRead, htarget]
    rfl
  · rw [step_write hh hf hb (by omega), busWrite, htarget]
    rfl

/-! ### The PBUF window (R64) -/

/-- A byte that cannot be read has an undefined bit. -/
theorem exists_undefined_of_readByte {b : Pbuf} {i : Nat} (h : b.readByte i = none) : ∃ j, j < 8 ∧ b.getBit (8 * i + j) = none := by
  by_contra hdef
  push Not at hdef
  obtain ⟨bits, hbits⟩ := getRun_defined (8 * i) (8 * 1) fun j hj => hdef j (by omega)
  obtain ⟨bytes, hlen, -, hbytes⟩ := getRun_bytes_inv b i 1 bits hbits
  have hread := hbytes 0 Nat.one_pos
  rw [Nat.add_zero, h, List.getElem?_eq_getElem (by omega)] at hread
  cases hread

/-- The bit `firstUndefined` names lies in the byte and is undefined, where the byte has one. -/
theorem firstUndefined_spec {b : Pbuf} {i : Nat} (k : Nat) (hk : k ≤ 8) {j : Nat} (hj : 8 - k ≤ j) (hj8 : j < 8)
    (hn : b.getBit (8 * i + j) = none) :
    firstUndefined i b k / 8 = i ∧ b.getBit (firstUndefined i b k) = none := by
  induction k with
  | zero => omega
  | succ k ih =>
    unfold firstUndefined
    split
    · rename_i h
      exact ⟨by omega, by simpa using h⟩
    · rename_i h
      refine ih (by omega) ?_
      by_contra hlt
      obtain rfl : j = 7 - k := by omega
      exact h (by simp [hn])

/-- Settles O53: the window's target is the byte, and a byte write or read is what Laws/Memory says of it. -/
theorem pbufWindowReadsAndWrites : Obligations.PbufWindowReadsAndWrites := by
  unfold Obligations.PbufWindowReadsAndWrites
  intro s i rest hw hf hb hi
  have htarget : busTarget s.params.bufCap (0x1000 + i) 8 = .ok (.byte i) := busTarget_byte hi
  refine ⟨fun v hh => ?_, fun hh b hread => ?_, fun hh hread => ?_⟩
  · rw [step_write hh hf hb (by omega), busWrite, htarget]
    exact ⟨_, rfl, hf, readByte_writeByte_self hw i _, fun j hj => byteAt_writeByte_ne hj, fun r _ => by cases r <;> rfl,
      ⟨rfl, rfl⟩, rfl⟩
  · rw [step_read hh hf (.inl hb), busRead, htarget]
    simp only [memRead, hread]
    exact ⟨_, rfl, hf, rfl⟩
  · rw [step_read hh hf (.inl hb), busRead, htarget]
    simp only [memRead, hread]
    obtain ⟨j, hj, hn⟩ := exists_undefined_of_readByte hread
    obtain ⟨hbyte, hbit⟩ := firstUndefined_spec 8 le_rfl (by omega) hj hn
    exact ⟨_, _, rfl, faulted_enterFault _ s rest, hbyte, hbit⟩

/-! ### The registers as numbers (R21 to R38) -/

/-- Two fields side by side: the upper one from bit `k` on, the lower one below it. -/
theorem toNat_or_shiftLeft {x y : Word} {a b : Nat} (k : Nat) (hx : x.toNat = a) (hy : y.toNat = b) (ha : a < 2 ^ k)
    (hb : 2 ^ k * b < 2 ^ 32) : (x ||| y <<< k).toNat = a + 2 ^ k * b := by
  rw [BitVec.toNat_or, BitVec.toNat_shiftLeft, hx, hy, Nat.shiftLeft_eq, Nat.mul_comm b, Nat.mod_eq_of_lt hb, Nat.or_comm,
    ← Nat.two_pow_add_eq_or_of_lt ha, Nat.add_comm]

theorem boolField_toNat (b : Bool) : (boolField 32 b).toNat = b.toNat := by
  cases b <;> rfl

/-- A field of at most 32 bits keeps its number in the register. -/
theorem zeroExtend_toNat {n : Nat} (x : BitVec n) (h : n ≤ 32) : (x.zeroExtend 32).toNat = x.toNat :=
  BitVec.toNat_setWidth_of_le h

theorem errField_toNat (e : ErrCode) : ((errCode e).zeroExtend 32).toNat = errNumber e := by
  cases e <;> rfl

theorem hstateField_toNat (h : HState) : ((hstateCode h).zeroExtend 32).toNat = hstateNumber h := by
  cases h <;> rfl

theorem statusWord_toNat (s : State) : (statusWord s).toNat = registerNumber s .status := by
  have hb := s.busy.toNat_lt
  have hd := s.done.toNat_lt
  have ho := s.ovr.toNat_lt
  have ht := s.trunc.toNat_lt
  have he : errNumber s.err < 16 := by cases s.err <;> decide
  have hh : hstateNumber s.hstate < 4 := by cases s.hstate <;> decide
  have hdone := toNat_or_shiftLeft 1 (boolField_toNat s.busy) (boolField_toNat s.done) (by omega) (by omega)
  have hovr := toNat_or_shiftLeft 2 hdone (boolField_toNat s.ovr) (by omega) (by omega)
  have htrunc := toNat_or_shiftLeft 3 hovr (boolField_toNat s.trunc) (by omega) (by omega)
  have herr := toNat_or_shiftLeft 4 htrunc (errField_toNat s.err) (by omega) (by omega)
  exact toNat_or_shiftLeft 8 herr (hstateField_toNat s.hstate) (by omega) (by omega)

/-- Every register reads as its number. -/
theorem readReg_toNat (r : Reg) (s : State) : (readReg r s).toNat = registerNumber s r := by
  cases r with
  | id => rfl
  | desc => rfl
  | ctrl => exact boolField_toNat s.ie
  | status => exact statusWord_toNat s
  | cmd => rfl
  | cur =>
    have hoff := s.bitOffset.isLt
    have hidx := s.byteIndex.isLt
    rw [readReg, BitVec.or_comm]
    exact toNat_or_shiftLeft 16 (zeroExtend_toNat s.byteIndex (by omega)) (zeroExtend_toNat s.bitOffset (by omega)) hidx
      (by omega)
  | dataHi =>
    have hd := s.data.isLt
    rw [readReg, BitVec.extractLsb'_toNat, Nat.shiftRight_eq_div_pow, Nat.mod_eq_of_lt (by omega)]
    rfl
  | dataLo => exact BitVec.extractLsb'_toNat 0 32 s.data
  | argLen => exact zeroExtend_toNat s.argLen (by omega)
  | codecParam => rfl
  | resLen => exact zeroExtend_toNat s.resLen (by omega)
  | resFrames =>
    have hntoc := s.ntoc.isLt
    have hndec := s.ndec.isLt
    rw [readReg, BitVec.or_comm]
    exact toNat_or_shiftLeft 16 (zeroExtend_toNat s.ntoc (by omega)) (zeroExtend_toNat s.ndec (by omega)) hntoc (by omega)
  | resSamples => rfl
  | resPcmBytes => rfl
  | result => rfl
  | cmrOut =>
    have hcmr := s.cmrOut.isLt
    have hraw := s.cmrRaw.isLt
    rw [readReg, BitVec.or_comm]
    exact toNat_or_shiftLeft 8 (zeroExtend_toNat s.cmrOut (by omega)) (zeroExtend_toNat s.cmrRaw (by omega)) (by omega)
      (by omega)

/-- No register shows the host's queue (log 7). -/
theorem readReg_host (r : Reg) (s : State) (rest : List HostOp) : readReg r { s with host := rest } = readReg r s := by
  cases r <;> rfl

/-- Settles O52: each register reads as its number, and a read at its offset gives that word back. -/
theorem registerReadsAnswer : Obligations.RegisterReadsAnswer := by
  unfold Obligations.RegisterReadsAnswer
  have hnumber (s : State) (r : Reg) : readReg r s = BitVec.ofNat 32 (registerNumber s r) := by
    rw [← readReg_toNat, BitVec.ofNat_toNat, BitVec.setWidth_eq]
  refine ⟨fun s r => ⟨hnumber s r, readReg_toNat r s ▸ (readReg r s).isLt⟩, ?_⟩
  intro s r offset rest hmap hh hf hb
  obtain rfl := registerMap_offset hmap
  have hserved : s.busy = false ∨ busyAllows (.read (regOffset r) 32) = true :=
    hb.imp_right fun h => by rcases h with rfl | rfl <;> decide
  rw [step_read hh hf hserved, busRead, busTarget_reg, ← hnumber, ← readReg_host r s rest]
  exact ⟨_, rfl, hf, rfl⟩

/-! ### Register writes (R24, R25, R29 to R31, R38) -/

theorem boolField_getLsbD (b : Bool) (i : Nat) : (boolField 32 b).getLsbD i = (decide (i = 0) && b) := by
  cases b
  · simp [boolField]
  · simp [boolField, BitVec.getLsbD_one]

/-- Bit 0 of a word alone (R24). -/
theorem boolField_getLsbD_zero (v : Word) : boolField 32 (v.getLsbD 0) = v &&& 0x00000001#32 := by
  apply BitVec.eq_of_getLsbD_eq
  intro i hi
  rw [boolField_getLsbD, BitVec.getLsbD_and, BitVec.getLsbD_one]
  by_cases h0 : i = 0 <;> simp [h0]

/-- The low half of a word alone (R30). -/
theorem low_half (v : Word) : (v.extractLsb' 0 16).zeroExtend 32 = v &&& 0x0000FFFF#32 := by
  apply BitVec.eq_of_toNat_eq
  rw [BitVec.toNat_setWidth_of_le (by omega), BitVec.extractLsb'_toNat, BitVec.toNat_and]
  exact (Nat.and_two_pow_sub_one_eq_mod v.toNat 16).symm

/-- DONE and OVR cleared where STATUS is written 1 are those two bits of STATUS cleared (R25). -/
theorem statusWord_clear (s : State) (v : Word) :
    statusWord { s with done := s.done && !v.getLsbD 1, ovr := s.ovr && !v.getLsbD 2 } =
      statusWord s &&& ~~~(v &&& 0x00000006#32) := by
  have hmask : ∀ i, i < 32 → (0x00000006#32).getLsbD i = decide (i = 1 ∨ i = 2) := by decide
  apply BitVec.eq_of_getLsbD_eq
  intro i hi
  simp only [statusWord, BitVec.getLsbD_or, BitVec.getLsbD_and, BitVec.getLsbD_not, BitVec.getLsbD_shiftLeft,
    boolField_getLsbD, hmask i hi]
  rcases Nat.lt_trichotomy i 1 with h | rfl | h
  · simp [show i = 0 by omega]
  · simp
  · rcases Nat.lt_or_eq_of_le h with h | rfl
    · simp [show i ≠ 1 by omega, show i ≠ 2 by omega, show i - 1 ≠ 0 by omega, show i - 2 ≠ 0 by omega, hi]
    · simp
/-- A write touches only its own register. -/
theorem writeReg_keepsRegs {r : Reg} (hr : r ≠ .cmd) (v : Word) (s : State) : KeepsRegs [r] s (writeReg r v s) := by
  intro r' hr'
  rw [List.mem_singleton] at hr'
  cases r with
  | cmd => exact absurd rfl hr
  | ctrl =>
    cases r' with
    | ctrl => exact absurd rfl hr'
    | _ => rfl
  | status =>
    cases r' with
    | status => exact absurd rfl hr'
    | _ => rfl
  | dataHi =>
    cases r' with
    | dataHi => exact absurd rfl hr'
    | dataLo => exact BitVec.extractLsb'_append_eq_right
    | _ => rfl
  | dataLo =>
    cases r' with
    | dataHi => exact BitVec.extractLsb'_append_eq_left
    | dataLo => exact absurd rfl hr'
    | _ => rfl
  | argLen =>
    cases r' with
    | argLen => exact absurd rfl hr'
    | _ => rfl
  | codecParam =>
    cases r' with
    | codecParam => exact absurd rfl hr'
    | _ => rfl
  | _ => rfl

/-- What no register write touches (R70). -/
theorem writeReg_keeps (r : Reg) (v : Word) (s : State) :
    (writeReg r v s).faulted = s.faulted ∧ (writeReg r v s).host = s.host ∧ (writeReg r v s).returned = s.returned ∧
      KeepsPbuf s (writeReg r v s) ∧ KeepsSlots s (writeReg r v s) ∧ KeepsCalls s (writeReg r v s) := by
  cases r <;> exact ⟨rfl, rfl, rfl, fun _ => rfl, ⟨rfl, rfl⟩, rfl⟩

/-- Settles O50: a write at a register's offset is `writeReg`, and each register holds its implemented bits after it. -/
theorem registerWritesFollowTheMap : Obligations.RegisterWritesFollowTheMap := by
  unfold Obligations.RegisterWritesFollowTheMap
  intro s r offset v rest hmap hh hf hb hr
  obtain rfl := registerMap_offset hmap
  have hcmd : ¬ (regOffset r = 0x010 ∧ 32 = 32) := by
    cases r with
    | cmd => exact absurd rfl hr
    | _ => decide
  obtain ⟨hfaulted, hhost, hreturned, hpbuf, hslots, hcalls⟩ := writeReg_keeps r v { s with host := rest }
  have hregs : KeepsRegs [r] s (writeReg r v { s with host := rest }) := fun r' hr' =>
    (writeReg_keepsRegs hr v { s with host := rest } r' hr').trans (readReg_host r' s rest)
  rw [step_write hh hf hb hcmd, busWrite, busTarget_reg]
  refine ⟨_, rfl, hfaulted.trans hf, hhost, hreturned, hregs, hpbuf, hslots, hcalls, ?_⟩
  cases r with
  | cmd => exact absurd rfl hr
  | ctrl => exact boolField_getLsbD_zero v
  | status => exact statusWord_clear s v
  | dataHi => exact BitVec.extractLsb'_append_eq_left
  | dataLo => exact BitVec.extractLsb'_append_eq_right
  | argLen => exact low_half v
  | _ => rfl

/-! ### Reset (R21, R231) -/

/-- Settles O49: the reset values, whatever the parameters. -/
theorem resetLeavesTheSpecsValues : Obligations.ResetLeavesTheSpecsValues := by
  unfold Obligations.ResetLeavesTheSpecsValues
  intro p
  refine ⟨?_, rfl, rfl, rfl, fun q => ?_, fun k hk => ?_, fun k hk => ?_, rfl, rfl⟩
  · simp [allRegs, State.resetFor, readReg, idWord, descWord, statusWord, boolField, errCode, hstateCode]
  · exact if_neg (by simp [State.resetFor, Pbuf.byteAt, cellsRead, unlistedByte])
  · rw [State.resetFor, List.getElem?_replicate_of_lt hk]
  · rw [State.resetFor, List.getElem?_replicate_of_lt hk]

end Sys2Proof.HostBus
end

section
/-! PROOFS. Reads without a side effect, the PCM port, and that an idle block stays idle (O51, O55, O60). -/

namespace Sys2Proof.HostPort

open Sys2Proof.Machine Sys2Proof.Config Sys2Proof.Safety Sys2Proof.Laws

/-! ### Reads (R64, R67, R70) -/

theorem memRead_answers {i : Nat} {s t : State} (h : memRead i s = .next t) : ∃ d, t = giveBack d s := by
  unfold memRead at h
  split at h
  · cases h
  · exact ⟨_, (Host.Outcome.next.inj h).symm⟩

theorem busRead_answers {offset width : Nat} {s t : State} (h : busRead offset width s = .next t) : ∃ d, t = giveBack d s := by
  unfold busRead at h
  split at h
  · cases h
  · exact ⟨_, (Host.Outcome.next.inj h).symm⟩
  · exact memRead_answers h

theorem pcmOutRead_answers {k : Nat} {s t : State} (h : pcmOutRead k s = .next t) : ∃ d, t = giveBack d s := by
  unfold pcmOutRead at h
  split at h
  · cases h
  · split at h
    · cases h
    · exact ⟨_, (Host.Outcome.next.inj h).symm⟩

/-- A read that answers gives one datum back and does nothing else (R70). -/
theorem access_read_answers {op : HostOp} {s t : State} (hop : (∃ o w, op = .read o w) ∨ ∃ k, op = .pcmOutRead k)
    (h : access op s = .next t) : ∃ d, t = giveBack d s := by
  rcases hop with ⟨o, w, rfl⟩ | ⟨k, rfl⟩
  · rw [HostBus.access_of_not_accepted rfl, hostAccess] at h
    split at h
    · cases h
    · exact busRead_answers h
  · rw [HostBus.access_of_not_accepted rfl, hostAccess] at h
    split at h
    · cases h
    · exact pcmOutRead_answers h

/-- Settles O51: a faulted block takes no read, a read that faults leaves the block faulted, and one that answers gives one
datum back. -/
theorem hostReadsHaveNoSideEffect : Obligations.HostReadsHaveNoSideEffect := by
  unfold Obligations.HostReadsHaveNoSideEffect
  intro s t op rest hh hop hstep ht
  rcases Option.eq_none_or_eq_some s.faulted with hf | ⟨f, hf⟩
  · rcases step_unfaulted s t hf hstep with ⟨hnil, -⟩ | ⟨op', rest', hh', ha⟩
    · rw [hh] at hnil
      cases hnil
    · rw [hh] at hh'
      cases hh'
      rcases ha with ha | ⟨f, -, rfl⟩
      · exact access_read_answers hop ha
      · cases ht
  · obtain ⟨rest', hreset, -⟩ := step_faulted s t f hf hstep
    rw [hh] at hreset
    cases hreset
    rcases hop with ⟨o, w, h⟩ | ⟨k, h⟩ <;> cases h

/-! ### The PCM port (R67) -/

/-- The step of an access that issues no command. -/
theorem step_hostAccess {s : State} {op : HostOp} {rest : List HostOp} (hh : s.host = op :: rest) (hf : s.faulted = none)
    (hnone : acceptedWord op { s with host := rest } = none) :
    step s = recordFault (hostAccess op { s with host := rest }) { s with host := rest } := by
  rw [step_access s op rest hf hh, HostBus.access_of_not_accepted hnone]

theorem step_pcmInWrite {s : State} {k : Nat} {x : PcmFrame} {rest : List HostOp} (hh : s.host = .pcmInWrite k x :: rest)
    (hf : s.faulted = none) (hb : s.busy = false) :
    step s = recordFault (pcmInWrite k x { s with host := rest }) { s with host := rest } := by
  rw [step_hostAccess hh hf rfl, hostAccess, if_neg (by simp [hb])]

theorem step_pcmOutRead {s : State} {k : Nat} {rest : List HostOp} (hh : s.host = .pcmOutRead k :: rest)
    (hf : s.faulted = none) (hb : s.busy = false) :
    step s = recordFault (pcmOutRead k { s with host := rest }) { s with host := rest } := by
  rw [step_hostAccess hh hf rfl, hostAccess, if_neg (by simp [hb])]

theorem pcmInWrite_inside {k : Nat} (x : PcmFrame) {s : State} (hk : k < s.params.maxFrames) :
    pcmInWrite k x s = .next { s with pcmIn := s.pcmIn.set k (some x) } := if_neg (by omega)

theorem pcmInWrite_outside {k : Nat} (x : PcmFrame) {s : State} (hk : s.params.maxFrames ≤ k) :
    pcmInWrite k x s = .fault (.pcmIndex k) := if_pos hk

theorem pcmOutRead_outside {k : Nat} {s : State} (hk : s.params.pcmOutFrames ≤ k) :
    pcmOutRead k s = .fault (.pcmIndex k) := if_pos hk

theorem pcmOutRead_defined {k : Nat} {y : PcmFrame} {s : State} (hk : k < s.params.pcmOutFrames)
    (hy : s.pcmOut[k]? = some (some y)) : pcmOutRead k s = .next (giveBack (.frame y) s) := by
  rw [pcmOutRead, if_neg (by omega), List.getD_eq_getElem?_getD, hy]
  rfl

theorem pcmOutRead_undefined {k : Nat} {s : State} (hk : k < s.params.pcmOutFrames) (hn : s.pcmOut[k]? = some none) :
    pcmOutRead k s = .fault (.undefinedPcmOut k) := by
  rw [pcmOutRead, if_neg (by omega), List.getD_eq_getElem?_getD, hn]
  rfl

/-- A listed output slot is one of PCM_OUT_FRAMES (R46). -/
theorem lt_pcmOutFrames {s : State} (hsized : SlotsSized s) {k : Nat} {slot : Option PcmFrame}
    (h : s.pcmOut[k]? = some slot) : k < s.params.pcmOutFrames := by
  obtain ⟨hk, -⟩ := List.getElem?_eq_some_iff.mp h
  exact hsized.2 ▸ hk

/-- Settles O55: a slot index in range names one slot of the list, any other index is the fault. -/
theorem pcmPortReadsAndWrites : Obligations.PcmPortReadsAndWrites := by
  unfold Obligations.PcmPortReadsAndWrites
  intro s k x rest hsized hf hb
  refine ⟨fun hh => ?_, fun hh => ?_⟩
  · rw [step_pcmInWrite hh hf hb]
    refine ⟨fun hk => ?_, fun hk => ?_⟩
    · have hlen : k < s.pcmIn.length := hsized.1 ▸ hk
      rw [pcmInWrite_inside x (s := { s with host := rest }) hk]
      exact ⟨_, rfl, hf, List.getElem?_set_self hlen, fun j hj => List.getElem?_set_ne hj.symm, rfl,
        fun r _ => by cases r <;> rfl, fun _ => rfl, rfl⟩
    · rw [pcmInWrite_outside x (s := { s with host := rest }) hk]
      exact ⟨_, rfl, HostBus.faulted_enterFault _ s rest⟩
  · rw [step_pcmOutRead hh hf hb]
    refine ⟨fun y hy => ?_, fun hn => ?_, fun hk => ?_⟩
    · rw [pcmOutRead_defined (s := { s with host := rest }) (lt_pcmOutFrames hsized hy) hy]
      exact ⟨_, rfl, hf, rfl⟩
    · rw [pcmOutRead_undefined (s := { s with host := rest }) (lt_pcmOutFrames hsized hn) hn]
      exact ⟨_, rfl, HostBus.faulted_enterFault _ s rest⟩
    · rw [pcmOutRead_outside (s := { s with host := rest }) hk]
      exact ⟨_, rfl, HostBus.faulted_enterFault _ s rest⟩

/-! ### No step from an idle block is refused (R71) -/

theorem busRead_not_refused (offset width : Nat) (s : State) (r : Refusal) : busRead offset width s ≠ .refused r := by
  unfold busRead
  split
  · nofun
  · nofun
  · unfold memRead
    split <;> nofun

theorem busWrite_not_refused (offset width : Nat) (v : Word) (s : State) (r : Refusal) :
    busWrite offset width v s ≠ .refused r := by
  unfold busWrite
  split <;> nofun

theorem pcmInWrite_not_refused (k : Nat) (x : PcmFrame) (s : State) (r : Refusal) : pcmInWrite k x s ≠ .refused r := by
  unfold pcmInWrite
  split <;> nofun

theorem pcmOutRead_not_refused (k : Nat) (s : State) (r : Refusal) : pcmOutRead k s ≠ .refused r := by
  unfold pcmOutRead
  split
  · nofun
  · split <;> nofun

/-- Only an access that finds BUSY = 1 is refused (R71, R236). -/
theorem hostAccess_not_refused {s : State} (hb : s.busy = false) (op : HostOp) (r : Refusal) :
    hostAccess op s ≠ .refused r := by
  unfold hostAccess
  rw [if_neg (by simp [hb])]
  cases op with
  | read offset width => exact busRead_not_refused offset width s r
  | write offset width v => exact busWrite_not_refused offset width v s r
  | pcmInWrite k x => exact pcmInWrite_not_refused k x s r
  | pcmOutRead k => exact pcmOutRead_not_refused k s r
  | wait => nofun
  | platformReset => nofun

theorem runWord_not_refused (w : Word) (s : State) (r : Refusal) : runWord w s ≠ .refused r := by
  rcases Flags.runWord_answers w s with ⟨t, h⟩ | ⟨f, h⟩ <;> rw [h] <;> nofun

theorem access_not_refused {s : State} (hb : s.busy = false) (op : HostOp) (r : Refusal) : access op s ≠ .refused r := by
  unfold access
  split
  · exact runWord_not_refused _ s r
  · exact hostAccess_not_refused hb op r

theorem recordFault_refused {o : Host.Outcome State Fault Refusal} {s : State} {r : Refusal}
    (h : recordFault o s = .refused r) : o = .refused r := by
  cases o with
  | next t => cases h
  | fault f => cases h
  | refused r' => exact h

theorem faultedStep_not_refused (f : Fault) (s : State) (r : Refusal) : faultedStep f s ≠ .refused r := by
  unfold faultedStep
  split
  · nofun
  · split <;> nofun

theorem step_not_refused {s : State} (hb : s.busy = false) (r : Refusal) : step s ≠ .refused r := by
  intro h
  rcases Option.eq_none_or_eq_some s.faulted with hf | ⟨f, hf⟩
  · cases hh : s.host with
    | nil =>
      rw [step_idle s hf hh] at h
      cases h
    | cons op rest =>
      rw [step_access s op rest hf hh] at h
      exact access_not_refused (s := { s with host := rest }) hb op r (recordFault_refused h)
  · rw [step_of_faulted s f hf] at h
    exact faultedStep_not_refused f s r h

/-! ### BUSY between steps (R204) -/

@[simp] theorem writeReg_busy (r : Reg) (v : Word) (s : State) : (writeReg r v s).busy = s.busy := by
  cases r <;> rfl

@[simp] theorem hostWait_busy (s : State) : (hostWait s).busy = s.busy := by
  unfold hostWait
  split <;> rfl

/-- A command is over when the step that ran it answers (R204, R206). -/
theorem exec_busy {i : Instr} {s t : State} (h : exec i s = .next t) : t.busy = false := by
  obtain ⟨e, u, rfl, -⟩ := exec_completes i s t h
  exact completeWith_busy e u

theorem step_busy {s t : State} (hb : s.busy = false) (h : step s = .next t) : t.busy = false := by
  rcases step_cases s t h with ⟨-, -, rfl⟩ | ⟨op, rest, -, -, hcases⟩
  · exact hb
  · rcases hcases with ⟨w, i, -, -, -, he⟩ | ⟨w, e, -, -, -, rfl⟩ | ⟨d, rfl⟩ | ⟨r, v, -, rfl⟩ | ⟨i, v, -, rfl⟩ |
      ⟨f, x, -, rfl⟩ | ⟨-, rfl⟩ | ⟨-, rfl⟩ | ⟨f, rfl⟩
    · exact exec_busy he
    · rfl
    · exact hb
    · exact (writeReg_busy r v _).trans hb
    · exact hb
    · exact hb
    · exact (hostWait_busy _).trans hb
    · rfl
    · exact hb

/-- Settles O60: only BUSY = 1 refuses an access, and a command completes in the step that accepts it. -/
theorem idleBlocksStayIdle : Obligations.IdleBlocksStayIdle :=
  fun _ hb => ⟨step_not_refused hb, fun _ => step_busy hb⟩

end Sys2Proof.HostPort
end

section
/-! PROOFS. The command words (O1, O2, O3, O4, O5, O7): which words decode, and that the decoder and the encoder undo each
other. A field placed in a word is read back as it was, and reading a field and placing it again is a mask on the word, so the
encoder after the decoder keeps the bits that are not reserved, and these are all a legal word has. -/

namespace Sys2Proof.CommandWords

open Sys2Proof.Machine Sys2Proof.Config Sys2Proof.Safety Sys2Proof.Laws

/-! ### A field in a word (R81) -/

/-- The value `v` at bit `k` of a word, as R89 lays out a field. -/
def placed {n : Nat} (k : Nat) (v : BitVec n) : Word := v.zeroExtend 32 <<< k

section
variable {n : Nat} (k : Nat) (v : BitVec n)

theorem zeroExtend_eq_placed : v.zeroExtend 32 = placed 0 v := (BitVec.shiftLeft_zero _).symm

theorem placed_zero_shiftLeft : placed 0 v <<< k = placed k v := by rw [← zeroExtend_eq_placed]; rfl

theorem getLsbD_placed (j : Nat) : (placed k v).getLsbD j = (decide (j < 32) && decide (k ≤ j) && v.getLsbD (j - k)) := by
  unfold placed
  rw [BitVec.getLsbD_shiftLeft, BitVec.getLsbD_setWidth]
  by_cases hj : j < 32
  · simp [show j - k < 32 by omega, ← decide_not]
  · simp [hj]

/-- A field is read back as it was placed. -/
theorem extract_placed_same (h : k + n ≤ 32) : (placed k v).extractLsb' k n = v := by
  apply BitVec.eq_of_getLsbD_eq
  intro j hj
  rw [BitVec.getLsbD_extractLsb', getLsbD_placed, Nat.add_sub_cancel_left]
  simp [hj, show k + j < 32 by omega]

/-- A field has no bit outside its own range. -/
theorem extract_placed_disjoint {lo m : Nat} (h : lo + m ≤ k ∨ k + n ≤ lo) : (placed k v).extractLsb' lo m = 0#m := by
  apply BitVec.eq_of_getLsbD_eq
  intro j hj
  rw [BitVec.getLsbD_extractLsb', getLsbD_placed, BitVec.getLsbD_zero]
  rcases h with h | h
  · simp [show ¬ k ≤ lo + j by omega]
  · simp [BitVec.getLsbD_of_ge v (lo + j - k) (by omega)]

/-- A field read and placed again is the word under the field's mask. -/
theorem placed_extract (n : Nat) (w : Word) : placed k (w.extractLsb' k n) = w &&& placed k (BitVec.allOnes n) := by
  apply BitVec.eq_of_getLsbD_eq
  intro j hj
  rw [BitVec.getLsbD_and, getLsbD_placed, getLsbD_placed, BitVec.getLsbD_extractLsb', BitVec.getLsbD_allOnes]
  by_cases hk : k ≤ j
  · simp [hj, hk, Bool.and_comm]
  · simp [hk]

end

theorem and_or_and (w a b : Word) : w &&& a ||| w &&& b = w &&& (a ||| b) := by
  apply BitVec.eq_of_getLsbD_eq
  intro j _
  simp [Bool.and_or_distrib_left]

/-! ### Which words decode (R83, R84, R86, R88) -/

theorem mem_allOpcodes (o : Opcode) : o ∈ allOpcodes := by cases o <;> decide

theorem opcodeOf_opcodeByte (o : Opcode) : opcodeOf (opcodeByte o) = some o := by cases o <;> rfl

theorem opcodeOf_eq_some {b : Byte} {o : Opcode} : opcodeOf b = some o ↔ b = opcodeByte o := by
  constructor
  · intro h
    have hbyte : (opcodeByte o == b) = true := List.find?_some (p := fun o => opcodeByte o == b) h
    exact (beq_iff_eq.mp hbyte).symm
  · rintro rfl
    exact opcodeOf_opcodeByte o

/-- The word `w` has the OPC of the row `o` and no reserved bit of its format. -/
def InRow (w : Word) (o : Opcode) : Prop :=
  opcOf w = opcodeByte o ∧ operandOf w &&& reservedMask (opcodeFormat o) = 0#24

theorem decode_inRow {w : Word} {o : Opcode} (h : InRow w o) : decode w = .ok (fieldsOf w o) := by
  obtain ⟨hopc, hres⟩ := h
  simp [decode, opcodeOf_eq_some.mpr hopc, hres]

/-- A word decodes in a row of the map, to the fields of that row. -/
theorem decode_eq_ok {w : Word} {i : Instr} : decode w = .ok i ↔ ∃ o, InRow w o ∧ fieldsOf w o = i := by
  constructor
  · intro h
    unfold decode at h
    split at h
    · cases h
    · rename_i o ho
      split at h
      · rename_i hres
        exact ⟨o, ⟨opcodeOf_eq_some.mp ho, hres⟩, Except.ok.inj h⟩
      · cases h
  · rintro ⟨o, hrow, rfl⟩
    exact decode_inRow hrow

/-! ### The decoder after the encoder -/

theorem encode_inRow (i : Instr) : InRow (encode i) (opcodeOfInstr i) := by
  show Encoding.Statement i
  cases i with
  | nop => exact Encoding.nop
  | curSet off idx => exact Encoding.curSet off idx
  | wrbits count => exact Encoding.wrbits count
  | rdbits count => exact Encoding.rdbits count
  | pack cmr nfr => exact Encoding.pack cmr nfr
  | unpack outcap => exact Encoding.unpack outcap
  | modebits mode => exact Encoding.modebits mode
  | b2s n => exact Encoding.b2s n
  | s2b n => exact Encoding.s2b n
  | tocenc f q ft => exact Encoding.tocenc f q ft
  | tocdec byte => exact Encoding.tocdec byte
  | codecCreate => exact Encoding.codecCreate
  | codecDestroy => exact Encoding.codecDestroy

/-- The fields of a command's word are its operands: each is read where it was placed, and the others lie beside it. -/
theorem fieldsOf_encode (i : Instr) : fieldsOf (encode i) (opcodeOfInstr i) = i := by
  cases i <;>
    simp only [opcodeOfInstr, fieldsOf, encode, encodeOperand, zeroExtend_eq_placed, placed_zero_shiftLeft,
      BitVec.extractLsb'_or] <;>
    simp [extract_placed_same, extract_placed_disjoint]

/-- Settles O1: a command's word lies in the command's row, and its fields are the operands. -/
theorem decodeOfEncode : Obligations.DecodeOfEncode := by
  unfold Obligations.DecodeOfEncode
  intro i
  rw [decode_inRow (encode_inRow i), fieldsOf_encode]

/-! ### The encoder after the decoder -/

theorem opcodeOfInstr_fieldsOf (w : Word) (o : Opcode) : opcodeOfInstr (fieldsOf w o) = o := by cases o <;> rfl

/-- The fields of a row, placed again, are the operand bits its format does not reserve. -/
theorem encodeOperand_fieldsOf (w : Word) (o : Opcode) :
    encodeOperand (fieldsOf w o) = w &&& placed 0 (~~~ reservedMask (opcodeFormat o)) := by
  cases o <;>
    simp only [fieldsOf, encodeOperand, zeroExtend_eq_placed, placed_zero_shiftLeft, placed_extract, and_or_and]
  case nop | codecCreate | codecDestroy => exact BitVec.and_zero.symm
  all_goals rfl

/-- OPC and the operand bits that a format does not reserve are all bits but the reserved ones. -/
theorem opcMask_or_operandMask (f : Format) :
    placed 24 (BitVec.allOnes 8) ||| placed 0 (~~~ reservedMask f) = ~~~ (reservedMask f).zeroExtend 32 := by
  cases f <;> decide

/-- A word without reserved bits is itself under the mask of the others. -/
theorem and_not_reserved {w : Word} {m : BitVec 24} (h : operandOf w &&& m = 0#24) : w &&& ~~~ m.zeroExtend 32 = w := by
  apply BitVec.eq_of_getLsbD_eq
  intro j hj
  have hbit : (w.getLsbD j && m.getLsbD j) = false := by
    by_cases hlow : j < 24
    · simpa [operandOf, hlow] using congrArg (BitVec.getLsbD · j) h
    · rw [BitVec.getLsbD_of_ge m j (by omega), Bool.and_false]
  rw [BitVec.getLsbD_and, BitVec.getLsbD_not, BitVec.getLsbD_setWidth]
  simpa [hj] using hbit

theorem encode_fieldsOf {w : Word} {o : Opcode} (h : InRow w o) : encode (fieldsOf w o) = w := by
  obtain ⟨hopc, hres⟩ := h
  calc encode (fieldsOf w o)
      = placed 24 (opcOf w) ||| encodeOperand (fieldsOf w o) := by
        rw [hopc, encode, opcodeOfInstr_fieldsOf]; rfl
    _ = w &&& placed 24 (BitVec.allOnes 8) ||| w &&& placed 0 (~~~ reservedMask (opcodeFormat o)) := by
        rw [opcOf, placed_extract, encodeOperand_fieldsOf]
    _ = w &&& ~~~ (reservedMask (opcodeFormat o)).zeroExtend 32 := by rw [and_or_and, opcMask_or_operandMask]
    _ = w := and_not_reserved hres

/-- Settles O2: a word that decodes lies in a row, and has no bit beside its OPC and that row's fields. -/
theorem encodeOfDecode : Obligations.EncodeOfDecode := by
  unfold Obligations.EncodeOfDecode
  intro w i h
  obtain ⟨o, hrow, rfl⟩ := decode_eq_ok.mp h
  exact encode_fieldsOf hrow

/-! ### The opcode map as numbers, and single words -/

/-- Settles O3: the listed rows are those of the model's map, and a word decodes exactly in one of them. -/
theorem legalWordsAreTheMap : Obligations.LegalWordsAreTheMap := by
  unfold Obligations.LegalWordsAreTheMap
  intro w
  show (∃ i, decode w = .ok i) ↔ ∃ row ∈ allOpcodes.map (fun o => (opcodeByte o, reservedMask (opcodeFormat o))),
    opcOf w = row.1 ∧ operandOf w &&& row.2 = 0#24
  constructor
  · rintro ⟨i, h⟩
    obtain ⟨o, hrow, -⟩ := decode_eq_ok.mp h
    exact ⟨_, List.mem_map_of_mem (mem_allOpcodes o), hrow⟩
  · rintro ⟨row, hmem, hrow⟩
    obtain ⟨o, -, rfl⟩ := List.mem_map.mp hmem
    exact ⟨_, decode_inRow hrow⟩

/-- Settles O4: a word that decodes to NOP is NOP's word, which is zero. -/
theorem nopIsOnlyTheZeroWord : Obligations.NopIsOnlyTheZeroWord := by
  unfold Obligations.NopIsOnlyTheZeroWord
  have hzero : encode .nop = 0x00000000#32 := by decide
  refine ⟨fun w => ⟨fun h => ?_, ?_⟩, fun p => rfl⟩
  · exact (encodeOfDecode w .nop h).symm.trans hzero
  · rintro rfl
    exact hzero ▸ decodeOfEncode .nop

/-- Settles O5: the decoder run on the eight words. -/
theorem specWordsDecode : Obligations.SpecWordsDecode := by
  unfold Obligations.SpecWordsDecode
  decide

/-! ### An illegal word (R84, R86, R201) -/

/-- The step that takes an illegal word: the acceptance, then IllegalCommand. -/
theorem step_illegalWord {s : State} {w : Word} {rest : List HostOp} {e : DecodeError}
    (hh : s.host = .write 0x010 32 w :: rest) (hf : s.faulted = none) (hb : s.busy = false) (hd : decode w = .error e) :
    step s = .next (raiseErr .illegalCommand (acceptCommand w { s with host := rest })) := by
  rw [Flags.step_cmdWrite s w rest hh hf hb]
  unfold runWord
  rw [hd]
  rfl

/-- Accepting a command and completing it, nothing done between, changes CMD and STATUS alone of the registers. -/
theorem completeWith_acceptCommand_keepsRegs (e : ErrCode) (w : Word) (s : State) :
    KeepsRegs [.status, .cmd] s (completeWith e (acceptCommand w s)) := by
  intro r hr
  cases r with
  | status => simp at hr
  | cmd => simp at hr
  | _ => rfl

/-- Settles O7: the step is the acceptance and a completion, which touch no field but those of R204. -/
theorem illegalWordOnlyReports : Obligations.IllegalWordOnlyReports := by
  unfold Obligations.IllegalWordOnlyReports
  intro s w rest e hh hf hb hd
  refine ⟨_, step_illegalWord hh hf hb hd, hf, ⟨rfl, rfl, rfl⟩, rfl, rfl, rfl, rfl, rfl, ?_, fun _ => rfl, ⟨rfl, rfl⟩, rfl,
    rfl, rfl, rfl⟩
  exact fun r hr => (completeWith_acceptCommand_keepsRegs _ w _ r hr).trans (HostBus.readReg_host r s rest)

end Sys2Proof.CommandWords
end

section
/-! PROOFS. The BitCursor commands (O13 to O20): what each check of R104 to R107 answers, then what the command leaves in
DATA, PBUF and the registers. That DATA comes back (O20) is read off the statements about the three commands. -/

namespace Sys2Proof.BitCursor

open Sys2Proof.Machine Sys2Proof.Config Sys2Proof.Safety Sys2Proof.Laws

/-! ### What a completion leaves alone -/

/-- A completion with no effect before it (R201). -/
theorem onlyCompletes_completeWith (e : ErrCode) (s : State) : OnlyCompletes e s (completeWith e s) := by
  refine ⟨⟨rfl, rfl, rfl⟩, ⟨rfl, rfl, rfl, rfl⟩, fun r hr => ?_, fun _ => rfl, ⟨rfl, rfl⟩, rfl, rfl, rfl, rfl, rfl⟩
  cases r with
  | status => simp at hr
  | _ => rfl

/-- PBUF is no register, so a command that moves the cursor and writes PBUF changes CUR alone beside STATUS. -/
theorem completeWith_cursor_keepsRegs (e : ErrCode) (idx : BitVec 16) (off : BitVec 3) (b : Pbuf) (s : State) :
    KeepsRegs [.status, .cur] s (completeWith e { s with byteIndex := idx, bitOffset := off, pbuf := b }) := by
  intro r hr
  cases r with
  | status | cur => simp at hr
  | _ => rfl

theorem completeWith_cursorData_keepsRegs (e : ErrCode) (idx : BitVec 16) (off : BitVec 3) (d : BitVec 64) (s : State) :
    KeepsRegs [.status, .cur, .dataHi, .dataLo] s
      (completeWith e { s with byteIndex := idx, bitOffset := off, data := d }) := by
  intro r hr
  cases r with
  | status | cur | dataHi | dataLo => simp at hr
  | _ => rfl

/-- STATUS[7:4] is the error code (R25, R200). -/
theorem status_errField (s : State) : ((readReg .status s).extractLsb' 4 4).toNat = errNumber s.err := by
  have hb := s.busy.toNat_lt
  have hd := s.done.toNat_lt
  have ho := s.ovr.toNat_lt
  have ht := s.trunc.toNat_lt
  have he : errNumber s.err < 16 := by cases s.err <;> decide
  rw [BitVec.extractLsb'_toNat, HostBus.readReg_toNat, Nat.shiftRight_eq_div_pow, registerNumber]
  omega

/-! ### CUR_SET (R104) -/

/-- The two refusals of R104 are the positions beyond 8*BUF_CAP. -/
theorem curSetIllegal_iff (off : BitVec 3) (idx : BitVec 16) (s : State) :
    curSetIllegal off idx s = true ↔ 8 * s.params.bufCap < 8 * idx.toNat + (7 - off.toNat) := by
  have hoff := off.isLt
  have hseven : off = 7#3 ↔ off.toNat = 7 := BitVec.toNat_inj.symm
  simp only [curSetIllegal, Bool.or_eq_true, Bool.and_eq_true, decide_eq_true_eq, ne_eq, hseven]
  omega

theorem exec_curSet_beyond {off : BitVec 3} {idx : BitVec 16} {s : State}
    (h : 8 * s.params.bufCap < 8 * idx.toNat + (7 - off.toNat)) :
    exec (.curSet off idx) s = .next (completeWith .illegalCommand s) :=
  if_pos ((curSetIllegal_iff off idx s).mpr h)

theorem exec_curSet_inside {off : BitVec 3} {idx : BitVec 16} {s : State}
    (h : ¬ 8 * s.params.bufCap < 8 * idx.toNat + (7 - off.toNat)) :
    exec (.curSet off idx) s = .next (completeWith .none { s with byteIndex := idx, bitOffset := off }) :=
  if_neg (mt (curSetIllegal_iff off idx s).mp h)

/-- Settles O13: the position is beyond 8*BUF_CAP or it is not. -/
theorem curSetMovesOrRefuses : Obligations.CurSetMovesOrRefuses := by
  unfold Obligations.CurSetMovesOrRefuses
  intro off idx s
  by_cases h : 8 * s.params.bufCap < 8 * idx.toNat + (7 - off.toNat)
  · exact ⟨_, exec_curSet_beyond h, fun hle => absurd h (Nat.not_lt.mpr hle), fun _ => onlyCompletes_completeWith _ s⟩
  · refine ⟨_, exec_curSet_inside h, fun _ => ⟨⟨rfl, rfl, rfl⟩, rfl, ?_, ⟨rfl, rfl, rfl, rfl⟩,
      completeWith_cursor_keepsRegs _ idx off s.pbuf s, fun _ => rfl, ⟨rfl, rfl⟩, rfl, rfl, rfl, rfl, rfl⟩,
      fun hlt => absurd hlt h⟩
    rw [HostBus.readReg_toNat]
    exact Nat.add_comm _ _

/-! ### The checks of WRBITS and RDBITS (R105 to R107) -/

section
variable {count : BitVec 7} {s : State}

theorem exec_wrbits_countIllegal (h : 64 < count.toNat) :
    exec (.wrbits count) s = .next (completeWith .illegalCommand s) :=
  if_pos (decide_eq_true h)

theorem exec_rdbits_countIllegal (h : 64 < count.toNat) :
    exec (.rdbits count) s = .next (completeWith .illegalCommand s) :=
  if_pos (decide_eq_true h)

theorem countIllegal_eq_false (h : count.toNat ≤ 64) : countIllegal count = false := decide_eq_false (Nat.not_lt.mpr h)

theorem exec_wrbits_tooLong (hc : count.toNat ≤ 64) (h : 8 * s.params.bufCap < s.pos + count.toNat) :
    exec (.wrbits count) s = .next (completeWith .sizingError s) := by
  simp [exec, execWrbits, countIllegal_eq_false hc, runTooLong, h]

theorem exec_rdbits_tooLong (hc : count.toNat ≤ 64) (h : 8 * s.params.bufCap < s.pos + count.toNat) :
    exec (.rdbits count) s = .next (completeWith .sizingError s) := by
  simp [exec, execRdbits, countIllegal_eq_false hc, runTooLong, h]

theorem exec_wrbits_inside (hc : count.toNat ≤ 64) (h : s.pos + count.toNat ≤ 8 * s.params.bufCap) :
    exec (.wrbits count) s =
      .next (completeWith .none (writeBits (dataBits count.toNat s.data) count.toNat s)) := by
  simp [exec, execWrbits, countIllegal_eq_false hc, runTooLong, Nat.not_lt.mpr h]

/-- RDBITS of a run that `getRun` answers. -/
theorem exec_rdbits_inside (hc : count.toNat ≤ 64) (h : s.pos + count.toNat ≤ 8 * s.params.bufCap) {bits : List Bool}
    (hb : s.pbuf.getRun s.pos count.toNat = .ok bits) :
    exec (.rdbits count) s =
      .next (completeWith .none { s.setPos (s.pos + count.toNat) with data := dataOfBits bits }) := by
  simp [exec, execRdbits, countIllegal_eq_false hc, runTooLong, Nat.not_lt.mpr h, (readBits_ok _ _ _ _).mpr ⟨hb, rfl⟩]

end

/-- Settles O18: the check of COUNT comes first in both commands. -/
theorem countAbove64IsIllegal : Obligations.CountAbove64IsIllegal := by
  unfold Obligations.CountAbove64IsIllegal
  exact fun _ s h => ⟨⟨_, exec_wrbits_countIllegal h, onlyCompletes_completeWith _ s⟩,
    ⟨_, exec_rdbits_countIllegal h, onlyCompletes_completeWith _ s⟩⟩

/-- Settles O17: both commands complete with SizingError before they touch PBUF, CUR or DATA. -/
theorem runPastTheEndIsASizingError : Obligations.RunPastTheEndIsASizingError := by
  unfold Obligations.RunPastTheEndIsASizingError
  intro count s hc hlong
  have hcode : (readReg .status (completeWith .sizingError s)).extractLsb' 4 4 = 8#4 :=
    BitVec.eq_of_toNat_eq (status_errField _)
  exact ⟨⟨_, exec_wrbits_tooLong hc hlong, onlyCompletes_completeWith _ s, hcode⟩,
    ⟨_, exec_rdbits_tooLong hc hlong, onlyCompletes_completeWith _ s, hcode⟩⟩

/-! ### A run inside PBUF -/

/-- A position up to the end of a legal PBUF has a byte index of 16 bits (R9, R27). -/
theorem byteIndex_fits {p cap : Nat} (hcap : cap ≤ 65535) (hp : p ≤ 8 * cap) : p / 8 < 65536 := by omega

/-- Settles O14: `write_bits` of the COUNT leading bits of DATA. -/
theorem wrbitsWritesItsRun : Obligations.WrbitsWritesItsRun := by
  unfold Obligations.WrbitsWritesItsRun
  intro count s hw hcap hc hrun
  have hlen := dataBits_length count.toNat s.data hc
  have hpos := writeBits_pos (dataBits count.toNat s.data) count.toNat s (byteIndex_fits hcap hrun)
  have hbit := writeBits_getBit (dataBits count.toNat s.data) count.toNat s hw hlen.ge
  refine ⟨_, exec_wrbits_inside hc hrun, ⟨rfl, rfl, rfl⟩, hpos, fun k hk => ?_, fun q hq => ?_,
    writeBits_byteAt (dataBits count.toNat s.data) _ s, ⟨rfl, rfl, rfl, rfl⟩,
    completeWith_cursor_keepsRegs _ _ _ _ s, ⟨rfl, rfl⟩, rfl, rfl, rfl, rfl, rfl⟩
  · rw [completeWith_pbuf, hbit, if_pos (by omega), Nat.add_sub_cancel_left, dataBits_getElem? _ k _ hc hk]
  · rw [completeWith_pbuf, hbit, if_neg (by omega)]

/-- Settles O15: every bit of the run is defined, so `read_bits` answers, and DATA takes its answer left-aligned. -/
theorem rdbitsReadsItsRun : Obligations.RdbitsReadsItsRun := by
  unfold Obligations.RdbitsReadsItsRun
  intro count s hcap hc hrun hdef
  obtain ⟨bits, hget⟩ := getRun_defined s.pos count.toNat hdef
  obtain ⟨hlen, hbits⟩ := (getRun_ok s.pos count.toNat bits).mp hget
  have hdata (k : Nat) (hk : k < 64) : (dataOfBits bits).getLsbD (63 - k) = bits.getD k false :=
    dataOfBits_getLsbD bits k (hlen.trans_le hc) hk
  refine ⟨_, exec_rdbits_inside hc hrun hget, ⟨rfl, rfl, rfl⟩, pos_setPos _ s (byteIndex_fits hcap hrun), fun k hk => ?_,
    fun k hk hk64 => ?_, ⟨rfl, rfl, rfl, rfl⟩, completeWith_cursorData_keepsRegs _ _ _ _ s, fun _ => rfl, ⟨rfl, rfl⟩, rfl,
    rfl, rfl, rfl, rfl⟩
  · rw [hbits k hk, completeWith_data, hdata k (by omega), List.getD_eq_getElem _ _ (by omega),
      List.getElem?_eq_getElem (by omega)]
  · rw [completeWith_data, hdata k hk64, List.getD_eq_default _ _ (by omega)]

/-- Settles O16: the bit is the first undefined one from the cursor on, where RDBITS stops (O11). -/
theorem rdbitsStopsAtAnUndefinedBit : Obligations.RdbitsStopsAtAnUndefinedBit := by
  unfold Obligations.RdbitsStopsAtAnUndefinedBit
  intro count s k hc hrun hk hundef hbefore
  have hfirst : FirstUndefined s s.pos (s.pos + k) := by
    refine ⟨by omega, hundef, fun q hq hlt => ?_⟩
    rw [← Nat.add_sub_cancel' hq]
    exact hbefore (q - s.pos) (by omega)
  exact (Stops.execRdbits_fault count s _).mpr ⟨hc, hrun, s.pos + k, rfl, hfirst, by omega⟩

/-! ### Writing and reading back (R102) -/

/-- Settles O19: `setpos` puts the cursor back in front of the run just written. -/
theorem writeBitsThenReadBits : Obligations.WriteBitsThenReadBits := by
  unfold Obligations.WriteBitsThenReadBits
  intro bits n s hw hcap hn hrun
  have hpos : ((writeBits bits n s).setPos s.pos).pos = s.pos := pos_setPos _ _ (byteIndex_fits hcap (by omega))
  have hend := byteIndex_fits hcap hrun
  have hget : (writeBits bits n s).pbuf.getRun s.pos n = .ok (bits.take n) := by
    simpa [hn] using getRun_setRun hw s.pos (bits.take n)
  have hkept (q : Nat) (hq : q < s.pos ∨ s.pos + n ≤ q) : (writeBits bits n s).pbuf.getBit q = s.pbuf.getBit q := by
    rw [writeBits_getBit bits n s hw hn, if_neg (by omega)]
  refine ⟨(writeBits bits n s).setPos (s.pos + n), (readBits_ok _ _ _ _).mpr ?_, writeBits_pos bits n s hend,
    pos_setPos _ _ hend, fun q hq => ⟨hkept q hq, hkept q hq⟩⟩
  rw [hpos]
  exact ⟨hget, rfl⟩

/-- A bit lies in its byte, so it is kept with it. -/
theorem getBit_of_keepsPbuf {s t : State} (h : KeepsPbuf s t) (q : Nat) : t.pbuf.getBit q = s.pbuf.getBit q := by
  rw [Pbuf.getBit, Pbuf.getBit, h]

/-- Settles O20: WRBITS leaves the bits of DATA in PBUF (O14), CUR_SET goes back to them (O13) and RDBITS reads them (O15). -/
theorem wrbitsThenRdbits : Obligations.WrbitsThenRdbits := by
  unfold Obligations.WrbitsThenRdbits
  intro count s hw hcap hc hrun
  obtain ⟨t1, hx1, -, -, hwritten, -, -, -, -, -, -, hparams1, -⟩ := wrbitsWritesItsRun count s hw hcap hc hrun
  obtain ⟨t2, hx2, hmoved, -⟩ := curSetMovesOrRefuses s.bitOffset s.byteIndex t1
  have hback : s.pos ≤ 8 * t1.params.bufCap := by rw [hparams1]; omega
  obtain ⟨-, hpos2, -, -, -, hpbuf2, -, -, hparams2, -⟩ := hmoved hback
  have hpos2 : t2.pos = s.pos := hpos2
  have hcap2 : t2.params.bufCap = s.params.bufCap := by rw [hparams2, hparams1]
  have hheld (k : Nat) (hk : k < count.toNat) : t2.pbuf.getBit (t2.pos + k) = some (s.data.getLsbD (63 - k)) := by
    rw [getBit_of_keepsPbuf hpbuf2, hpos2, hwritten k hk]
  obtain ⟨t3, hx3, ⟨-, -, herr3⟩, hpos3, hread, hbelow, -⟩ := rdbitsReadsItsRun count t2 (hcap2 ▸ hcap) hc
    (by rw [hpos2, hcap2]; exact hrun) (fun k hk => by rw [hheld k hk]; nofun)
  refine ⟨t1, t2, t3, hx1, hx2, hx3, herr3, by rw [hpos3, hpos2], fun k hk => ?_⟩
  by_cases hin : k < count.toNat
  · have hbit := (hread k hin).trans (hheld k hin)
    simpa [hin] using hbit
  · simpa [hin] using hbelow k (Nat.not_lt.mp hin) hk

end Sys2Proof.BitCursor
end

section
/-! PROOFS. The TOC byte commands (O21 to O23): the TOC byte as a number, and the RESULT of TOCDEC as its fields, each placed
at its bit. O22 is the sum of the fields; for O23 the fields are read back and TOCENC (O21) builds the byte of them. -/

namespace Sys2Proof.TocFields

open Sys2Proof.Machine Sys2Proof.Config Sys2Proof.Safety Sys2Proof.Laws Sys2Proof.CommandWords

/-! ### TOCENC (R124, R128) -/

theorem tocByte_toNat (f q : BitVec 1) (ft : BitVec 4) :
    (tocByte f ft q).toNat = 128 * f.toNat + 8 * ft.toNat + 4 * q.toNat := by
  revert f q ft
  decide

section
variable {f q : BitVec 1} {ft : BitVec 4} {s : State}

theorem exec_tocenc_marker (h : 8 ≤ ft.toNat) :
    exec (.tocenc f q ft) s = .next (completeWith .invalidModeIndex { s with result := 0#32 }) :=
  if_pos h

theorem exec_tocenc_speech (h : ft.toNat ≤ 7) :
    exec (.tocenc f q ft) s = .next (completeWith .none { s with result := (tocByte f ft q).zeroExtend 32 }) :=
  if_neg (Nat.not_lt.mpr h)

end

/-- Settles O21: FT is a speech mode or it is 8 or more. -/
theorem tocencBuildsOrRejects : Obligations.TocencBuildsOrRejects := by
  unfold Obligations.TocencBuildsOrRejects
  intro f q ft s
  rcases Nat.lt_or_ge 7 ft.toNat with h | h
  · exact ⟨_, exec_tocenc_marker h, fun hle => absurd h (Nat.not_lt.mpr hle),
      fun _ => ⟨Commands.onlyResult_completeWith _ _ s, rfl⟩⟩
  · refine ⟨_, exec_tocenc_speech h, fun _ => ⟨Commands.onlyResult_completeWith _ _ s, ?_⟩,
      fun hge => absurd h (Nat.not_le.mpr hge)⟩
    exact (HostBus.zeroExtend_toNat _ (by omega)).trans (tocByte_toNat f q ft)

/-! ### TOCDEC (R125, R129) -/

/-- A field read out of a word or a byte, as a number. -/
theorem field_toNat {w : Nat} (x : BitVec w) (k n : Nat) : (x.extractLsb' k n).toNat = x.toNat / 2 ^ k % 2 ^ n := by
  rw [BitVec.extractLsb'_toNat, Nat.shiftRight_eq_div_pow]

theorem parseToc_f_toNat (b : Byte) : (parseToc b).f.toNat = b.toNat / 128 := by
  have hb := b.isLt
  rw [parseToc, field_toNat]
  omega

theorem parseToc_q_toNat (b : Byte) : (parseToc b).q.toNat = b.toNat / 4 % 2 := field_toNat b 2 1

theorem parseToc_ft_toNat (b : Byte) : (parseToc b).ft.toNat = b.toNat / 8 % 16 := field_toNat b 3 4

theorem reserved_toNat (b : Byte) : (b.extractLsb' 0 2).toNat = b.toNat % 4 := by
  rw [field_toNat, pow_zero, Nat.div_one]
  rfl

theorem isSpeech_toNat (b : Byte) : (isSpeech (parseToc b)).toNat = if b.toNat / 8 % 16 ≤ 7 then 1 else 0 := by
  rw [isSpeech, parseToc_ft_toNat]
  split <;> simp [*]

theorem boolField_eq_placed (v : Bool) : boolField 32 v = placed 0 (BitVec.ofBool v) := by
  cases v <;> rfl

/-- RESULT of TOCDEC, its fields from the lowest up (R129). -/
theorem tocdecResult_eq_placed (b : Byte) :
    tocdecResult b =
      placed 0 (parseToc b).ft ||| placed 4 (parseToc b).q ||| placed 8 (parseToc b).f ||| placed 16 (b.extractLsb' 0 2) |||
        placed 24 (BitVec.ofBool (isSpeech (parseToc b))) := by
  rw [tocdecResult, boolField_eq_placed, placed_zero_shiftLeft, BitVec.or_comm _ ((parseToc b).ft.zeroExtend 32),
    BitVec.or_comm ((parseToc b).f.zeroExtend 32 <<< 8), ← BitVec.or_assoc, zeroExtend_eq_placed]
  rfl

/-- A field placed above the bits of a word, as numbers. -/
theorem toNat_or_placed {x : Word} {a n : Nat} (k : Nat) (v : BitVec n) (hx : x.toNat = a) (ha : a < 2 ^ k)
    (hk : k + n ≤ 32) : (x ||| placed k v).toNat = a + 2 ^ k * v.toNat := by
  refine HostBus.toNat_or_shiftLeft k hx (HostBus.zeroExtend_toNat v (by omega)) ha ?_
  calc 2 ^ k * v.toNat < 2 ^ k * 2 ^ n := Nat.mul_lt_mul_of_pos_left v.isLt (Nat.two_pow_pos k)
    _ = 2 ^ (k + n) := (Nat.pow_add 2 k n).symm
    _ ≤ 2 ^ 32 := Nat.pow_le_pow_right (by omega) hk

theorem tocdecResult_toNat (b : Byte) :
    (tocdecResult b).toNat =
      256 * (b.toNat / 128) + 16 * (b.toNat / 4 % 2) + b.toNat / 8 % 16 + 65536 * (b.toNat % 4) +
        (if b.toNat / 8 % 16 ≤ 7 then 16777216 else 0) := by
  have hft : (placed 0 (parseToc b).ft).toNat = (parseToc b).ft.toNat := by
    rw [← zeroExtend_eq_placed, HostBus.zeroExtend_toNat _ (by omega)]
  have hft_lt := (parseToc b).ft.isLt
  have hq_lt := (parseToc b).q.isLt
  have hf_lt := (parseToc b).f.isLt
  have hres_lt := (b.extractLsb' 0 2).isLt
  have hq := toNat_or_placed 4 (parseToc b).q hft (by omega) (by omega)
  have hf := toNat_or_placed 8 (parseToc b).f hq (by omega) (by omega)
  have hres := toNat_or_placed 16 (b.extractLsb' 0 2) hf (by omega) (by omega)
  have hvalid := toNat_or_placed 24 (BitVec.ofBool (isSpeech (parseToc b))) hres (by omega) (by omega)
  rw [tocdecResult_eq_placed, hvalid, parseToc_ft_toNat, parseToc_q_toNat, parseToc_f_toNat, reserved_toNat,
    BitVec.toNat_ofBool, isSpeech_toNat]
  split <;> omega

/-- Settles O22: the fields of R129 as one number. -/
theorem tocdecParsesEveryByte : Obligations.TocdecParsesEveryByte := by
  unfold Obligations.TocdecParsesEveryByte
  exact fun b s => ⟨_, rfl, Commands.onlyResult_completeWith _ _ s, tocdecResult_toNat b⟩

/-! ### TOCENC after TOCDEC (R129) -/

/-- RESULT[8:0] has the layout of TOCENC's operand: each field is read back where it was placed. -/
theorem tocdecResult_operand (b : Byte) :
    (tocdecResult b).extractLsb' 8 1 = (parseToc b).f ∧ (tocdecResult b).extractLsb' 4 1 = (parseToc b).q ∧
      (tocdecResult b).extractLsb' 0 4 = (parseToc b).ft := by
  simp [tocdecResult_eq_placed, BitVec.extractLsb'_or, extract_placed_same, extract_placed_disjoint]

theorem tocdecResult_reserved (b : Byte) : (tocdecResult b).extractLsb' 16 2 = b.extractLsb' 0 2 := by
  simp [tocdecResult_eq_placed, BitVec.extractLsb'_or, extract_placed_same, extract_placed_disjoint]

theorem tocdecResult_valid (b : Byte) : (tocdecResult b).getLsbD 24 = isSpeech (parseToc b) := by
  simp only [tocdecResult_eq_placed, BitVec.getLsbD_or, getLsbD_placed]
  simp

/-- Settles O23: VALID says that FT is at most 7, so TOCENC builds the byte of these fields (O21), and the bits that byte
leaves 0 are 0. -/
theorem tocencUndoesTocdec : Obligations.TocencUndoesTocdec := by
  unfold Obligations.TocencUndoesTocdec
  intro b s t hdec hvalid hres
  have hresult : t.result = tocdecResult b := by
    obtain rfl := Host.Outcome.next.inj hdec
    rfl
  obtain ⟨hf, hq, hft⟩ := tocdecResult_operand b
  rw [hresult, tocdecResult_valid, isSpeech, decide_eq_true_eq] at hvalid
  rw [hresult, tocdecResult_reserved] at hres
  rw [hresult, hf, hq, hft]
  obtain ⟨u, henc, hbuilt, -⟩ := tocencBuildsOrRejects (parseToc b).f (parseToc b).q (parseToc b).ft t
  obtain ⟨⟨⟨-, -, herr⟩, -⟩, hbyte⟩ := hbuilt hvalid
  refine ⟨u, henc, herr, BitVec.eq_of_toNat_eq ?_⟩
  have hb := b.isLt
  have hzero : b.toNat % 4 = 0 := by rw [← reserved_toNat, hres, BitVec.toNat_zero]
  rw [hbyte, HostBus.zeroExtend_toNat b (by omega), parseToc_f_toNat, parseToc_ft_toNat, parseToc_q_toNat]
  omega

end Sys2Proof.TocFields
end

section
/-! PROOFS. PACK (O34 to O40): its refusals, the reply of mode 8 or more that ends its codec calls, and the payload in PBUF.
What holds of every answer of PACK (O39, O40) is read off its cases, `execPack_cases`. -/

namespace Sys2Proof.Packing

open Sys2Proof.Machine Sys2Proof.Config Sys2Proof.Safety Sys2Proof.Laws

/-! ### The checks before the codec calls (R141) -/

theorem packIllegal_true (nfr : BitVec 8) (s : State) : packIllegal nfr s = true ↔
    nfr.toNat = 0 ∨ s.params.maxFrames < nfr.toNat ∨ s.params.bufCap < s.argLen.toNat := by
  rw [← Bool.not_eq_false, Stops.packIllegal_false]
  omega

theorem exec_pack_illegal {cmr : BitVec 4} {nfr : BitVec 8} {s : State} (h : packIllegal nfr s = true) :
    exec (.pack cmr nfr) s = .next (completeWith .illegalCommand s) :=
  if_pos h

theorem exec_pack_not_live {cmr : BitVec 4} {nfr : BitVec 8} {s : State} (hi : packIllegal nfr s = false)
    (hs : s.hstate ≠ .live) : exec (.pack cmr nfr) s = .next (packFail .uninitializedCodec s) := by
  simp [exec, execPack, hi, hs]

/-- Settles O34: the operand check comes first and leaves the rest to the completion. -/
theorem packRefusesBadOperands : Obligations.PackRefusesBadOperands := by
  unfold Obligations.PackRefusesBadOperands
  exact fun _ _ s h => ⟨_, exec_pack_illegal ((packIllegal_true _ s).mpr h), BitCursor.onlyCompletes_completeWith _ s⟩

/-! ### What a failure leaves alone (R147) -/

theorem packFail_keepsRegs (e : ErrCode) (s : State) : KeepsRegs [.status, .resLen, .resFrames] s (packFail e s) := by
  intro r hr
  cases r with
  | status | resLen | resFrames => simp at hr
  | _ => rfl

theorem packFail_resFrames (e : ErrCode) (s : State) : readReg .resFrames (packFail e s) = 0#32 := by
  simp [readReg]

/-- The codec calls and the staging are no registers. -/
theorem packAfter_keepsRegs (frames : List PcmFrame) (s : State) : KeepsRegs [] s (packAfter frames s) := by
  intro r _
  cases r <;> rfl

/-- Settles O35: the handle check comes before any codec call. -/
theorem packNeedsAHandle : Obligations.PackNeedsAHandle := by
  unfold Obligations.PackNeedsAHandle
  intro cmr nfr s h1 hmax hcap hs
  exact ⟨_, exec_pack_not_live ((Stops.packIllegal_false nfr s).mpr ⟨h1, hmax, hcap⟩) hs, ⟨rfl, rfl, rfl⟩, rfl,
    packFail_resFrames _ s, ⟨rfl, rfl, rfl, rfl⟩, packFail_keepsRegs _ s, fun _ => rfl, ⟨rfl, rfl⟩, rfl, rfl, rfl, rfl, rfl⟩

/-- A failure after codec calls: the calls stand, the result registers are 0, nothing else changed. -/
theorem packFail_packAfter (e : ErrCode) (frames : List PcmFrame) (s : State) :
    Ended e (packFail e (packAfter frames s)) ∧
    (packFail e (packAfter frames s)).calls = s.calls ++ encodeCalls frames s ∧
    readReg .resLen (packFail e (packAfter frames s)) = 0#32 ∧
    readReg .resFrames (packFail e (packAfter frames s)) = 0#32 ∧
    KeepsFlags s (packFail e (packAfter frames s)) ∧
    KeepsRegs [.status, .resLen, .resFrames] s (packFail e (packAfter frames s)) ∧
    KeepsPbuf s (packFail e (packAfter frames s)) ∧ KeepsSlots s (packFail e (packAfter frames s)) ∧
    KeepsOutside s (packFail e (packAfter frames s)) :=
  ⟨⟨rfl, rfl, rfl⟩, rfl, rfl, packFail_resFrames _ _, ⟨rfl, rfl, rfl, rfl⟩,
    fun r hr => (packFail_keepsRegs e _ r hr).trans (packAfter_keepsRegs frames s r List.not_mem_nil),
    fun _ => rfl, ⟨rfl, rfl⟩, rfl, rfl, rfl, rfl⟩

/-! ### A reply of mode 8 or more (R143) -/

theorem readPcmIn_ok {f : Nat} {s : State} {x : PcmFrame} (h : s.pcmIn.getD f none = some x) : readPcmIn f s = .ok x := by
  rw [readPcmIn, h]

/-- Only a reply of a mode up to 7 has a length to keep (R41). -/
theorem replyKeepsContract_iff (r : EncodeReply) :
    replyKeepsContract r = true ↔ 8 ≤ r.mode.toNat ∨ r.bytes.length = nbytes r.mode.toNat := by
  rw [replyKeepsContract, Bool.or_eq_true, decide_eq_true_eq, decide_eq_true_eq]
  rfl

/-- Phase 1 on frames whose last reply is the first of mode 8 or more: no later slot is read and no later call made. -/
theorem encodeFrames_invalid (frames : List PcmFrame) {k f : Nat} {s : State} {valid : List EncodeReply} {bad : EncodeReply}
    (hk : frames.length ≤ k) (hin : ∀ i, i < frames.length → s.pcmIn.getD (f + i) none = frames[i]?)
    (hreplies : encodeReplies frames s = valid ++ [bad])
    (hvalid : ∀ r ∈ valid, r.mode.toNat ≤ 7 ∧ r.bytes.length = nbytes r.mode.toNat) (hbad : 8 ≤ bad.mode.toNat) :
    encodeFrames k f s =
      .ok (false, afterEncode (encodeReplies frames s) (encodeCalls frames s) frames.length s) := by
  induction frames generalizing k f s valid with
  | nil => simp [encodeReplies] at hreplies
  | cons x xs ih =>
    obtain ⟨k, rfl⟩ := Nat.exists_eq_add_of_le' (Nat.one_le_of_lt hk)
    have hslot : readPcmIn f s = .ok x := readPcmIn_ok (by simpa using hin 0 (by simp))
    rw [List.length_cons, afterEncode_cons]
    rw [encodeReplies_cons] at hreplies
    cases valid with
    | nil =>
      obtain ⟨rfl, hnil⟩ := List.cons.inj hreplies
      have hxs : xs = [] := by simpa [encodeReplies_length] using congrArg List.length hnil
      have hcall := (codecEncode_ok x s _ _).mpr ⟨(replyKeepsContract_iff _).mpr (.inl hbad), rfl, rfl⟩
      simp only [encodeFrames, hslot, hcall, if_pos (show 7 < _ from hbad), hxs]
      simp [afterEncode, encodeReplies, encodeCalls, stageReply, recordCall]
    | cons r rs =>
      obtain ⟨rfl, hrest⟩ := List.cons.inj hreplies
      obtain ⟨hmode, hlen⟩ := hvalid _ List.mem_cons_self
      have hcall := (codecEncode_ok x s _ _).mpr ⟨(replyKeepsContract_iff _).mpr (.inr hlen), rfl, rfl⟩
      simp only [encodeFrames, hslot, hcall, if_neg (Nat.not_lt.mpr hmode)]
      refine ih (by simpa using hk) (fun i hi => ?_) hrest (fun r hr => hvalid r (List.mem_cons_of_mem _ hr))
      rw [Nat.add_assoc, Nat.add_comm 1 i]
      simpa using hin (i + 1) (by simpa using hi)

theorem exec_pack_invalidMode {cmr : BitVec 4} {nfr : BitVec 8} {s : State} {frames : List PcmFrame}
    {valid : List EncodeReply} {bad : EncodeReply} (hi : packIllegal nfr s = false) (hs : s.hstate = .live)
    (hl : frames.length ≤ nfr.toNat) (hin : ∀ k, k < frames.length → s.pcmIn[k]? = some frames[k]?)
    (hreplies : encodeReplies frames s = valid ++ [bad])
    (hvalid : ∀ r ∈ valid, r.mode.toNat ≤ 7 ∧ r.bytes.length = nbytes r.mode.toNat) (hbad : 8 ≤ bad.mode.toNat) :
    exec (.pack cmr nfr) s = .next (packFail .invalidModeIndex (packAfter frames s)) := by
  have hr : encodeReplies frames { s with staging := [] } = encodeReplies frames s := encodeReplies_congr frames rfl rfl rfl
  have hc : encodeCalls frames { s with staging := [] } = encodeCalls frames s := encodeCalls_congr frames rfl rfl rfl
  have hslots := (Stops.slots_hold_iff s.pcmIn frames).mpr hin
  have hcalls := encodeFrames_invalid (f := 0) (s := { s with staging := [] }) frames hl (by simpa using hslots)
    (hr.trans hreplies) hvalid hbad
  rw [hr, hc] at hcalls
  rw [exec, execPack, if_neg (by simp [hi]), if_neg (by simp [hs]), hcalls]
  rfl

/-- Settles O37: phase 1 ends at that reply, and PACK fails with the calls made so far. -/
theorem packStopsAtAnInvalidMode : Obligations.PackStopsAtAnInvalidMode := by
  unfold Obligations.PackStopsAtAnInvalidMode
  intro cmr nfr s frames valid bad hs hmax hcap hl hin hreplies hvalid hbad
  have hframes : 1 ≤ frames.length := by simp [← encodeReplies_length frames s, hreplies]
  exact ⟨_, exec_pack_invalidMode ((Stops.packIllegal_false nfr s).mpr ⟨hframes.trans hl, hmax, hcap⟩) hs hl hin hreplies
    hvalid hbad, packFail_packAfter _ frames s⟩

/-! ### The capacity (R144) -/

/-- PACK on defined slots and valid replies: the capacity check, then the wire form (R143 to R146). -/
theorem exec_pack_encoded {cmr : BitVec 4} {nfr : BitVec 8} {s : State} {frames : List PcmFrame} (hs : s.hstate = .live)
    (h1 : 1 ≤ nfr.toNat) (hmax : nfr.toNat ≤ s.params.maxFrames) (hcap : s.argLen.toNat ≤ s.params.bufCap)
    (hl : frames.length = nfr.toNat) (hin : ∀ k, k < nfr.toNat → s.pcmIn[k]? = some frames[k]?)
    (hr : ∀ r ∈ encodeReplies frames s, r.mode.toNat ≤ 7 ∧ r.bytes.length = nbytes r.mode.toNat) :
    exec (.pack cmr nfr) s =
      .next (if s.argLen.toNat < payloadLen (stagedModes (encodeReplies frames s)) then
          packFail .bufferTooSmall (packAfter frames s)
        else finish (packDone cmr nfr frames s)) := by
  rw [← packStaged_eq cmr nfr frames s fun r hm => (hr r hm).2]
  exact execPack_staged cmr nfr s frames ((Stops.packIllegal_false nfr s).mpr ⟨h1, hmax, hcap⟩) hs hl hin hr

/-- Settles O38: the capacity check comes after all codec calls and before the first write. -/
theorem packChecksTheCapacityFirst : Obligations.PackChecksTheCapacityFirst := by
  unfold Obligations.PackChecksTheCapacityFirst
  intro cmr nfr s frames hs h1 hmax hcap hl hin hr hlong
  refine ⟨_, exec_pack_encoded hs h1 hmax hcap hl hin hr, ?_⟩
  rw [if_pos (show _ < payloadLen (stagedModes _) from hlong)]
  exact packFail_packAfter _ frames s

/-! ### The payload in PBUF (R145, R146, R149) -/

/-- Bytes written bit by bit from position 0 on are held as bytes. -/
theorem readByte_setRun_bitsOf {b : Pbuf} (hw : Memory.wf b = true) {bytes : List Byte} {i : Nat} (hi : i < bytes.length) :
    (b.setRun 0 (bitsOf bytes)).readByte i = bytes[i]? := by
  rw [List.getElem?_eq_getElem hi, readByte_iff_bits]
  intro k hk
  rw [getBit_setRun hw, if_pos ⟨Nat.zero_le _, by rw [bitsOf_length]; omega⟩, Nat.sub_zero, bitsOf_getElem? bytes i k hk,
    List.getElem?_eq_getElem hi, Option.map_some]

theorem finish_packDone_keepsRegs (cmr : BitVec 4) (nfr : BitVec 8) (frames : List PcmFrame) (s : State) :
    KeepsRegs [.status, .cur, .resLen, .resFrames] s (finish (packDone cmr nfr frames s)) := by
  intro r hr
  cases r with
  | status | cur | resLen | resFrames => simp at hr
  | _ => rfl

/-- RES_FRAMES: NTOC is NFR and NDEC is 0 (R146). -/
theorem finish_packDone_resFrames_toNat (cmr : BitVec 4) (nfr : BitVec 8) (frames : List PcmFrame) (s : State) :
    (readReg .resFrames (finish (packDone cmr nfr frames s))).toNat = nfr.toNat := by
  have hntoc : (nfr.zeroExtend 16).toNat = nfr.toNat := BitVec.toNat_setWidth_of_le (by decide)
  simp only [HostBus.readReg_toNat, registerNumber, finish, completeWith_ntoc, completeWith_ndec, packDone_ntoc,
    packDone_ndec, hntoc, BitVec.toNat_zero, Nat.mul_zero, Nat.add_zero]

section
variable {cmr : BitVec 4} {nfr : BitVec 8} {s : State} {frames : List PcmFrame}

theorem finish_packDone_holdsBytes (hw : PbufCanonical s) :
    HoldsBytes (finish (packDone cmr nfr frames s)) 0 (wirePayload cmr (encodeReplies frames s)) := by
  intro k hk
  rw [Nat.zero_add]
  exact readByte_setRun_bitsOf hw hk

theorem finish_packDone_byteAt {i : Nat} (hi : (wirePayload cmr (encodeReplies frames s)).length ≤ i) :
    (finish (packDone cmr nfr frames s)).pbuf.byteAt i = s.pbuf.byteAt i :=
  byteAt_setRun_ne 0 i _ (by rw [bitsOf_length]; omega)

theorem finish_packDone_resLen_toNat (h : (wirePayload cmr (encodeReplies frames s)).length < 65536) :
    (finish (packDone cmr nfr frames s)).resLen.toNat = (wirePayload cmr (encodeReplies frames s)).length :=
  Nat.mod_eq_of_lt h

end

/-- Settles O36: phases 2 and 3 on a payload that fits. -/
theorem packWritesTheWireForm : Obligations.PackWritesTheWireForm := by
  unfold Obligations.PackWritesTheWireForm
  intro cmr nfr s frames hw hs h1 hmax hcap hl hin hr hfit
  have hlen : (wirePayload cmr (encodeReplies frames s)).length =
      payloadLen ((encodeReplies frames s).map fun r => r.mode.toNat) :=
    wirePayload_length cmr _ fun r hm => (hr r hm).2
  have hlt := hlen.le.trans_lt (hfit.trans_lt s.argLen.isLt)
  refine ⟨_, exec_pack_encoded hs h1 hmax hcap hl hin hr, ?_⟩
  rw [if_neg (show ¬ _ < payloadLen (stagedModes _) from Nat.not_lt.mpr hfit), ← hlen]
  have hresLen := (HostBus.readReg_toNat .resLen _).trans (finish_packDone_resLen_toNat (nfr := nfr) hlt)
  exact ⟨⟨rfl, rfl, rfl⟩, finish_packDone_holdsBytes hw, rfl, fun i hi => finish_packDone_byteAt hi,
    packDone_pos cmr nfr frames s hlt, hresLen, finish_packDone_resFrames_toNat cmr nfr frames s, rfl,
    ⟨rfl, rfl, rfl, rfl⟩, finish_packDone_keepsRegs cmr nfr frames s, ⟨rfl, rfl⟩, rfl, rfl, rfl, rfl⟩

/-! ### Every answer of PACK -/

/-- Settles O39: no case of PACK ends with PaddingInconsistency, for the cursor ends at a whole byte (`packStaged_eq`). -/
theorem packNeverMisaligns : Obligations.PackNeverMisaligns := by
  unfold Obligations.PackNeverMisaligns
  intro cmr nfr s t h
  rcases execPack_cases cmr nfr s t h with
    ⟨-, rfl⟩ | ⟨-, -, rfl⟩ | ⟨-, -, frames, -, -, -, ⟨-, -, -, -, -, rfl⟩ | ⟨-, -, ⟨-, rfl⟩ | ⟨-, rfl⟩⟩⟩ <;> nofun

/-- Settles O40: every failing case comes before phase 3, and the succeeding one is the wire form in PBUF. -/
theorem packIsAllOrNothing : Obligations.PackIsAllOrNothing := by
  unfold Obligations.PackIsAllOrNothing
  intro cmr nfr s t h
  rcases execPack_cases cmr nfr s t h with
    ⟨-, rfl⟩ | ⟨-, -, rfl⟩ | ⟨-, -, frames, -, -, -, ⟨-, -, -, -, -, rfl⟩ | ⟨-, hr, ⟨-, rfl⟩ | ⟨hfit, rfl⟩⟩⟩
  · exact ⟨fun _ => ⟨fun _ => rfl, rfl⟩, nofun⟩
  · exact ⟨fun _ => ⟨fun _ => rfl, rfl⟩, nofun⟩
  · exact ⟨fun _ => ⟨fun _ => rfl, rfl⟩, nofun⟩
  · exact ⟨fun _ => ⟨fun _ => rfl, rfl⟩, nofun⟩
  · have hlen := wirePayload_length cmr _ fun r hm => (hr r hm).2
    have hlt := hlen.le.trans_lt (hfit.trans_lt s.argLen.isLt)
    refine ⟨fun he => absurd rfl he, fun _ => ?_⟩
    rw [finish_packDone_resLen_toNat hlt]
    refine ⟨packDone_pos cmr nfr frames s hlt, hlen.le.trans hfit, fun hw i hi => ?_, fun i hi => finish_packDone_byteAt hi⟩
    have hheld := finish_packDone_holdsBytes (cmr := cmr) (nfr := nfr) (frames := frames) hw i hi
    rw [Nat.zero_add, List.getElem?_eq_getElem hi] at hheld
    rw [hheld]
    nofun

end Sys2Proof.Packing
end

section
/-! PROOFS. UNPACK (O41 to O48): its refusals, the TOC that never ends, and the states its phases leave, each read through
the registers. A success and a truncation are one run of the speech phase (`exec_unpack_speech`), which ends with the TOC or at
the frame that does not fit. For the round trip (O48) the payload PACK left in PBUF is parsed back to the codec's replies. -/

namespace Sys2Proof.Unpacking

open Sys2Proof.Machine Sys2Proof.Config Sys2Proof.Safety Sys2Proof.Laws

/-! ### The checks before the first read (R161, R162) -/

theorem unpackIllegal_true (outcap : BitVec 8) (s : State) : unpackIllegal outcap s = true ↔
    s.params.pcmOutFrames < outcap.toNat ∨ s.params.bufCap < s.argLen.toNat := by
  rw [← Bool.not_eq_false, Stops.unpackIllegal_false]
  omega

theorem exec_unpack_illegal {outcap : BitVec 8} {s : State} (h : unpackIllegal outcap s = true) :
    exec (.unpack outcap) s = .next (completeWith .illegalCommand s) :=
  if_pos h

theorem exec_unpack_not_live {outcap : BitVec 8} {s : State} (hi : unpackIllegal outcap s = false) (hs : s.hstate ≠ .live) :
    exec (.unpack outcap) s = .next (completeWith .uninitializedCodec (zeroResults s)) := by
  simp [exec, execUnpack, hi, hs]

theorem exec_unpack_live {outcap : BitVec 8} {s : State} (hi : unpackIllegal outcap s = false) (hs : s.hstate = .live) :
    exec (.unpack outcap) s = unpackPayload outcap s.argLen.toNat (unpackStart s) := by
  simp [exec, execUnpack, hi, hs]

/-- Settles O41: the operand check comes first and leaves the rest to the completion. -/
theorem unpackRefusesBadOperands : Obligations.UnpackRefusesBadOperands := by
  unfold Obligations.UnpackRefusesBadOperands
  exact fun outcap s h =>
    ⟨_, exec_unpack_illegal ((unpackIllegal_true outcap s).mpr h), BitCursor.onlyCompletes_completeWith _ s⟩

theorem completeWith_zeroResults_keepsRegs (e : ErrCode) (s : State) :
    KeepsRegs [.status, .resLen, .resFrames, .resSamples, .resPcmBytes] s (completeWith e (zeroResults s)) := by
  intro r hr
  cases r with
  | status | resLen | resFrames | resSamples | resPcmBytes => simp at hr
  | _ => rfl

theorem completeWith_zeroResults_resFrames (e : ErrCode) (s : State) :
    readReg .resFrames (completeWith e (zeroResults s)) = 0#32 := by
  simp [readReg]

/-- Settles O42: the handle check comes before any read of PBUF and before CMR_OUT is cleared. -/
theorem unpackNeedsAHandle : Obligations.UnpackNeedsAHandle := by
  unfold Obligations.UnpackNeedsAHandle
  intro outcap s hout harg hs
  exact ⟨_, exec_unpack_not_live ((Stops.unpackIllegal_false outcap s).mpr ⟨hout, harg⟩) hs, ⟨rfl, rfl, rfl⟩, rfl,
    completeWith_zeroResults_resFrames _ s, rfl, rfl, ⟨rfl, rfl, rfl, rfl⟩, completeWith_zeroResults_keepsRegs _ s,
    fun _ => rfl, ⟨rfl, rfl⟩, rfl, rfl, rfl, rfl, rfl⟩

/-! ### What a run of UNPACK leaves in the registers (R162, R169) -/

/-- The registers UNPACK may write once its operands and the handle are good. -/
abbrev unpackRegs : List Reg := [.status, .cur, .resLen, .resFrames, .resSamples, .resPcmBytes, .cmrOut]

theorem completeWith_unpackStart_keepsRegs (e : ErrCode) (s : State) :
    KeepsRegs unpackRegs s (completeWith e (unpackResults 0 (unpackStart s))) := by
  intro r hr
  cases r with
  | status | cur | resLen | resFrames | resSamples | resPcmBytes | cmrOut => simp at hr
  | _ => rfl

theorem completeWith_unpackStart_zero (e : ErrCode) (s : State) {t : State}
    (ht : t = completeWith e (unpackResults 0 (unpackStart s))) :
    readReg .cmrOut t = 0#32 ∧ readReg .resLen t = 0#32 ∧ readReg .resFrames t = 0#32 ∧ readReg .resSamples t = 0#32 ∧
      readReg .resPcmBytes t = 0#32 := by
  simp [ht, readReg, unpackStart_pos]

/-- Settles O43: the length is checked before the CMR byte is read, with the cursor at 0 and CMR_OUT cleared. -/
theorem unpackRejectsAnEmptyPayload : Obligations.UnpackRejectsAnEmptyPayload := by
  unfold Obligations.UnpackRejectsAnEmptyPayload
  intro outcap s hout harg hs
  have hzero : s.argLen.toNat = 0 := by rw [harg]; rfl
  have hexec : exec (.unpack outcap) s = .next (completeWith .malformedPayload (unpackResults 0 (unpackStart s))) := by
    rw [exec_unpack_live ((Stops.unpackIllegal_false outcap s).mpr ⟨hout, by omega⟩) hs]
    exact if_pos (by omega)
  obtain ⟨hcmr, hlen, hframes, hsamples, hbytes⟩ := completeWith_unpackStart_zero .malformedPayload s rfl
  exact ⟨_, hexec, ⟨rfl, rfl, rfl⟩, unpackStart_pos s, hcmr, hlen, hframes, hsamples, hbytes, ⟨rfl, rfl, rfl, rfl⟩,
    completeWith_unpackStart_keepsRegs _ s, fun _ => rfl, ⟨rfl, rfl⟩, rfl, rfl, rfl, rfl, rfl⟩

/-- UNPACK after these frames were decoded, the results written (R160, R169). -/
def unpacked (cmrByte : Byte) (tocBytes : List Byte) (frames : List (TocEntry × List Byte)) (s : State) : State :=
  unpackResults frames.length (afterDecode (1 + tocBytes.length) 0 frames (unpackRead cmrByte tocBytes s))

/-- Before the first decode the results are those of the TOC phase. -/
theorem unpacked_nil (cmrByte : Byte) (tocBytes : List Byte) (s : State) (h : tocBytes.length < 65535) :
    unpacked cmrByte tocBytes [] s = unpackResults 0 (unpackRead cmrByte tocBytes s) := by
  rw [unpacked, afterDecode_nil _ _ _ (unpackRead_pos cmrByte tocBytes s h)]
  rfl

theorem completeWith_keepsRegs (e : ErrCode) (s : State) : KeepsRegs [.status] s (completeWith e s) := by
  obtain ⟨-, -, hregs, -⟩ := BitCursor.onlyCompletes_completeWith e s
  exact hregs

/-- A change of STATUS alone, after a change of UNPACK's registers. -/
theorem keepsRegs_unpackRegs {s u t : State} (hu : KeepsRegs unpackRegs s u) (ht : KeepsRegs [.status] u t) :
    KeepsRegs unpackRegs s t :=
  fun r hr => (ht r fun hm => hr (List.mem_cons.mpr (.inl (List.mem_singleton.mp hm)))).trans (hu r hr)

theorem unpacked_keepsRegs (cmrByte : Byte) (tocBytes : List Byte) (frames : List (TocEntry × List Byte)) (s : State) :
    KeepsRegs unpackRegs s (unpacked cmrByte tocBytes frames s) := by
  intro r hr
  cases r with
  | status | cur | resLen | resFrames | resSamples | resPcmBytes | cmrOut => simp at hr
  | _ => simp [readReg, unpacked]

section
variable {cmrByte : Byte} {tocBytes : List Byte} {frames : List (TocEntry × List Byte)} {s : State}

/-- CMR_OUT: the CMR byte in RAW and its bits 7:4 in CMR (R37, R122). -/
theorem unpacked_cmrOut_toNat :
    (readReg .cmrOut (unpacked cmrByte tocBytes frames s)).toNat = 256 * cmrByte.toNat + cmrByte.toNat / 16 := by
  have hcmr : (cmrOf cmrByte).toNat = cmrByte.toNat / 16 := by
    have hlt := cmrByte.isLt
    rw [cmrOf, TocFields.field_toNat]
    omega
  simp only [HostBus.readReg_toNat, registerNumber, unpacked, unpackResults_cmrOut, unpackResults_cmrRaw, afterDecode_cmrOut,
    afterDecode_cmrRaw, unpackRead_cmrOut, unpackRead_cmrRaw, hcmr, Nat.add_comm]

theorem unpacked_resLen_toNat (hl : 1 + tocBytes.length + (frameBytes frames).length ≤ 65535) :
    (readReg .resLen (unpacked cmrByte tocBytes frames s)).toNat = 1 + tocBytes.length + (frameBytes frames).length := by
  have hpos := afterDecode_pos (1 + tocBytes.length) 0 frames (unpackRead cmrByte tocBytes s) (by omega)
  simp only [HostBus.readReg_toNat, registerNumber, unpacked, unpackResults_resLen, hpos, BitVec.toNat_ofNat]
  omega

theorem unpacked_resFrames_toNat (hl : tocBytes.length ≤ 65535) (hn : frames.length ≤ 255) :
    (readReg .resFrames (unpacked cmrByte tocBytes frames s)).toNat = 65536 * frames.length + tocBytes.length := by
  simp only [HostBus.readReg_toNat, registerNumber, unpacked, unpackResults_ntoc, unpackResults_ndec, afterDecode_toc,
    unpackRead_toc, List.length_map, BitVec.toNat_ofNat]
  omega

theorem unpacked_resSamples_toNat (hn : frames.length ≤ 255) :
    (readReg .resSamples (unpacked cmrByte tocBytes frames s)).toNat = 160 * frames.length := by
  simp only [HostBus.readReg_toNat, registerNumber, unpacked, unpackResults_resSamples, BitVec.toNat_ofNat]
  omega

theorem unpacked_resPcmBytes_toNat (hn : frames.length ≤ 255) (hsample : s.params.pcmSampleBytes ≤ 4) :
    (readReg .resPcmBytes (unpacked cmrByte tocBytes frames s)).toNat =
      160 * s.params.pcmSampleBytes * frames.length := by
  have hbytes : 160 * s.params.pcmSampleBytes * frames.length ≤ 160 * 4 * 255 :=
    Nat.mul_le_mul (Nat.mul_le_mul_left 160 hsample) hn
  simp only [HostBus.readReg_toNat, registerNumber, unpacked, unpackResults_resPcmBytes, afterDecode_params,
    unpackRead_params, BitVec.toNat_ofNat]
  exact Nat.mod_eq_of_lt (by omega)

end

/-! ### An error before any decode (R172, R173) -/

/-- A failure after the TOC phase: CMR_OUT, the cursor and the results of that phase stand, nothing else changed. -/
theorem completeWith_unpackRead (e : ErrCode) {cmrByte : Byte} {tocBytes : List Byte} {s : State}
    (hl : 1 + tocBytes.length ≤ 65535) {t : State}
    (ht : t = completeWith e (unpackResults 0 (unpackRead cmrByte tocBytes s))) :
    Ended e t ∧ t.pos = 8 * (1 + tocBytes.length) ∧
      (readReg .cmrOut t).toNat = 256 * cmrByte.toNat + cmrByte.toNat / 16 ∧
      (readReg .resLen t).toNat = 1 + tocBytes.length ∧ (readReg .resFrames t).toNat = tocBytes.length ∧
      readReg .resSamples t = 0#32 ∧ readReg .resPcmBytes t = 0#32 ∧
      KeepsFlags s t ∧ KeepsRegs unpackRegs s t ∧ KeepsPbuf s t ∧ KeepsSlots s t ∧ KeepsCalls s t ∧ KeepsOutside s t := by
  have hpos := unpackRead_pos cmrByte tocBytes s (by omega)
  have hframes : (readReg .resFrames (unpacked cmrByte tocBytes [] s)).toNat = tocBytes.length := by
    simpa using unpacked_resFrames_toNat (cmrByte := cmrByte) (frames := []) (s := s) (by omega) (by simp)
  have hlen : (readReg .resLen (unpacked cmrByte tocBytes [] s)).toNat = 1 + tocBytes.length :=
    unpacked_resLen_toNat (frames := []) hl
  have hcmr := unpacked_cmrOut_toNat (cmrByte := cmrByte) (tocBytes := tocBytes) (frames := []) (s := s)
  have hkeeps := unpacked_keepsRegs cmrByte tocBytes [] s
  rw [unpacked_nil cmrByte tocBytes s (by omega)] at hframes hlen hcmr hkeeps
  subst ht
  exact ⟨⟨rfl, rfl, rfl⟩, hpos, hcmr, hlen, hframes, rfl, rfl, by simp [KeepsFlags],
    keepsRegs_unpackRegs hkeeps (completeWith_keepsRegs e _), by simp [KeepsPbuf], by simp [KeepsSlots], by simp [KeepsCalls],
    by simp [KeepsOutside]⟩

/-- UNPACK after its CMR byte was read (R162). -/
theorem exec_unpack_cmr {outcap : BitVec 8} {s : State} {cmrByte : Byte} (hi : unpackIllegal outcap s = false)
    (hs : s.hstate = .live) (h1 : 1 ≤ s.argLen.toNat) (hc : s.pbuf.readByte 0 = some cmrByte) :
    exec (.unpack outcap) s = unpackToc outcap s.argLen.toNat (Stops.cmrRead cmrByte s) := by
  have hbyte : byteOf (bitsN cmrByte.toNat 8) = cmrByte := by simpa using byteOf_bitsN cmrByte []
  have hread := (Stops.readBits_cmr s _ _).mpr ⟨cmrByte, hc, rfl, rfl⟩
  rw [exec_unpack_live hi hs, unpackPayload, if_neg (by omega), hread]
  simp only [hbyte]
  rfl

/-- Settles O44: the TOC phase parses every byte of the payload and finds no entry with F = 0. -/
theorem unpackRejectsAnEndlessToc : Obligations.UnpackRejectsAnEndlessToc := by
  unfold Obligations.UnpackRejectsAnEndlessToc
  intro outcap s cmrByte tocBytes hout harg hs hlen hb hF
  obtain ⟨hc, htoc⟩ := Stops.holdsBytes_cons.mp hb
  have hplen : s.argLen.toNat ≤ 65535 := Nat.le_of_lt_succ s.argLen.isLt
  have hread := readToc_exhausted _ hplen tocBytes s.argLen.toNat 1 _ (by omega) (Stops.cmrRead_pos cmrByte s) hlen.symm
    (fun v hv => (Stops.parseToc_f_one v).mpr (hF v hv)) htoc
  have hexec : exec (.unpack outcap) s =
      .next (completeWith .malformedPayload (unpackResults 0 (unpackRead cmrByte tocBytes s))) := by
    rw [exec_unpack_cmr ((Stops.unpackIllegal_false outcap s).mpr ⟨hout, harg⟩) hs (by omega) hc, unpackToc, hread]
    rfl
  rw [hlen]
  exact ⟨_, hexec, completeWith_unpackRead .malformedPayload (by omega) rfl⟩

/-- Settles O45: the slots are counted after the TOC phase and before the first decode. -/
theorem unpackChecksTheSlotsFirst : Obligations.UnpackChecksTheSlotsFirst := by
  unfold Obligations.UnpackChecksTheSlotsFirst
  intro outcap s cmrByte tocBytes hout harg hs hlen hb hchain hmany
  have hplen : s.argLen.toNat ≤ 65535 := Nat.le_of_lt_succ s.argLen.isLt
  have hexec : exec (.unpack outcap) s =
      .next (completeWith .bufferTooSmall (unpackResults 0 (unpackRead cmrByte tocBytes s))) :=
    (execUnpack_chain outcap s cmrByte tocBytes ((Stops.unpackIllegal_false outcap s).mpr ⟨hout, harg⟩) hs hlen hb
      hchain).trans (if_pos hmany)
  exact ⟨_, hexec, completeWith_unpackRead .bufferTooSmall (by omega) rfl⟩

/-! ### The speech phase (R165 to R171) -/

/-- UNPACK of a payload with enough slots, up to the entries `rest` whose frames it has still to decode. -/
theorem exec_unpack_speech {outcap : BitVec 8} {s : State} {cmrByte : Byte} {tocBytes : List Byte}
    {before rest : List TocEntry} {frames : List (TocEntry × List Byte)} {e : SpeechEnd}
    (hi : unpackIllegal outcap s = false) (hs : s.hstate = .live) (hchain : TocChain tocBytes)
    (hsplit : tocBytes.map parseToc = before ++ rest) (hmap : frames.map (fun x => x.1) = before.filter isSpeech)
    (hfit : FramesFit frames) (hb : HoldsBytes s 0 (cmrByte :: (tocBytes ++ frameBytes frames)))
    (hl : 1 + tocBytes.length + (frameBytes frames).length ≤ s.argLen.toNat)
    (hcap : (speechEntries tocBytes).length ≤ outcap.toNat)
    (hrest : decodeFrames s.argLen.toNat rest frames.length
      (afterDecode (1 + tocBytes.length) 0 frames (unpackRead cmrByte tocBytes s)) = .ok e) :
    exec (.unpack outcap) s = .next (unpackEnd e) := by
  have hplen : s.argLen.toNat ≤ 65535 := Nat.le_of_lt_succ s.argLen.isLt
  rw [← List.cons_append, Stops.holdsBytes_append, List.length_cons, Nat.zero_add, Nat.add_comm _ 1] at hb
  obtain ⟨htoc, hspeech⟩ := hb
  have hdecode := decodeFrames_append s.argLen.toNat hplen before rest frames (1 + tocBytes.length) 0
    (unpackRead cmrByte tocBytes s) hmap.symm hfit (unpackRead_pos cmrByte tocBytes s (by omega)) hl hspeech
  rw [Nat.zero_add, hrest, ← hsplit] at hdecode
  have hchained := execUnpack_chain outcap s cmrByte tocBytes hi hs (by omega) htoc hchain
  rw [exec, hchained, unpackSpeech, unpackRead_toc, hdecode]
  exact if_neg (Nat.not_lt.mpr hcap)

/-- The first entry whose frame passes the payload's end ends the speech phase (R166). -/
theorem decodeFrames_truncated {plen nd i : Nat} {e : TocEntry} (es : List TocEntry) {s : State} (h7 : e.ft.toNat ≤ 7)
    (hp : s.pos = 8 * i) (hlong : plen < i + nbytes e.ft.toNat) :
    decodeFrames plen (e :: es) nd s = .ok (true, nd, s) := by
  rw [decodeFrames, if_neg (Nat.not_lt.mpr h7), hp, Nat.mul_div_cancel_left i (by decide), if_pos hlong]

theorem decodeReplies_length (xs : List (TocEntry × List Byte)) (s : State) : (decodeReplies xs s).length = xs.length := by
  induction xs generalizing s with
  | nil => rfl
  | cons x xs ih => exact congrArg (· + 1) (ih _)

@[simp] theorem unpackEnd_pos (tr : Bool) (nd : Nat) (s : State) : (unpackEnd (tr, nd, s)).pos = s.pos := by
  cases tr <;> rfl
@[simp] theorem unpackEnd_ie (tr : Bool) (nd : Nat) (s : State) : (unpackEnd (tr, nd, s)).ie = s.ie := by
  cases tr <;> rfl
@[simp] theorem unpackEnd_ovr (tr : Bool) (nd : Nat) (s : State) : (unpackEnd (tr, nd, s)).ovr = s.ovr := by
  cases tr <;> rfl
@[simp] theorem unpackEnd_pcmIn (tr : Bool) (nd : Nat) (s : State) : (unpackEnd (tr, nd, s)).pcmIn = s.pcmIn := by
  cases tr <;> rfl
@[simp] theorem unpackEnd_pcmOut (tr : Bool) (nd : Nat) (s : State) : (unpackEnd (tr, nd, s)).pcmOut = s.pcmOut := by
  cases tr <;> rfl

theorem unpackEnd_keepsOutside (tr : Bool) (nd : Nat) (s : State) : KeepsOutside s (unpackEnd (tr, nd, s)) := by
  cases tr <;> exact ⟨rfl, rfl, rfl, rfl⟩

/-- After the results are written only STATUS changes (R169, R170). -/
theorem unpackEnd_keepsRegs (tr : Bool) (nd : Nat) (s : State) :
    KeepsRegs [.status] (unpackResults nd s) (unpackEnd (tr, nd, s)) := by
  intro r hr
  cases tr with
  | false => exact completeWith_keepsRegs _ _ r hr
  | true =>
    cases r with
    | status => simp at hr
    | _ => rfl

/-- UNPACK at its end, with TRUNC and TruncatedPayload when a frame was truncated (R169, R170). -/
def unpackDone (tr : Bool) (cmrByte : Byte) (tocBytes : List Byte) (frames : List (TocEntry × List Byte)) (s : State) :
    State :=
  unpackEnd (tr, frames.length, afterDecode (1 + tocBytes.length) 0 frames (unpackRead cmrByte tocBytes s))

section
variable (tr : Bool) (cmrByte : Byte) (tocBytes : List Byte) (frames : List (TocEntry × List Byte)) (s : State)

theorem unpackDone_keepsResults :
    KeepsRegs [.status] (unpacked cmrByte tocBytes frames s) (unpackDone tr cmrByte tocBytes frames s) :=
  unpackEnd_keepsRegs tr frames.length _

theorem unpackDone_keepsRegs : KeepsRegs unpackRegs s (unpackDone tr cmrByte tocBytes frames s) :=
  keepsRegs_unpackRegs (unpacked_keepsRegs cmrByte tocBytes frames s) (unpackDone_keepsResults tr cmrByte tocBytes frames s)

theorem unpackDone_keepsOutside : KeepsOutside s (unpackDone tr cmrByte tocBytes frames s) := by
  simpa [KeepsOutside, unpackDone] using
    unpackEnd_keepsOutside tr frames.length (afterDecode (1 + tocBytes.length) 0 frames (unpackRead cmrByte tocBytes s))

theorem unpackDone_pos (hl : 1 + tocBytes.length + (frameBytes frames).length ≤ 65535) :
    (unpackDone tr cmrByte tocBytes frames s).pos = 8 * (1 + tocBytes.length + (frameBytes frames).length) := by
  rw [unpackDone, unpackEnd_pos]
  exact afterDecode_pos _ _ _ _ (Nat.lt_succ_of_le hl)

theorem unpackDone_calls : (unpackDone tr cmrByte tocBytes frames s).calls = s.calls ++ decodeCalls frames s := by
  have hcalls : decodeCalls frames (unpackRead cmrByte tocBytes s) = decodeCalls frames s :=
    decodeCalls_congr frames rfl rfl rfl
  rw [unpackDone, Commands.unpackEnd_calls, afterDecode_calls, unpackRead_calls, hcalls]

theorem unpackDone_pcmOut (hslots : frames.length ≤ s.pcmOut.length) (k : Nat) :
    (unpackDone tr cmrByte tocBytes frames s).pcmOut[k]? =
      if k < frames.length then some (decodeReplies frames s)[k]? else s.pcmOut[k]? := by
  have hreplies : decodeReplies frames (unpackRead cmrByte tocBytes s) = decodeReplies frames s :=
    decodeReplies_congr frames rfl rfl rfl
  rw [unpackDone, unpackEnd_pcmOut, afterDecode_pcmOut, unpackRead_pcmOut, hreplies,
    setSlots_getElem? 0 _ _ k (by rw [decodeReplies_length]; omega), decodeReplies_length]
  simp

variable {cmrByte tocBytes frames s}

/-- What UNPACK reports and what it decoded, truncated or not. -/
theorem unpackDone_reports (hl : 1 + tocBytes.length + (frameBytes frames).length ≤ 65535) (hn : frames.length ≤ 255)
    (hlegal : s.params.legal) (hslots : frames.length ≤ s.pcmOut.length) {t : State}
    (ht : t = unpackDone tr cmrByte tocBytes frames s) :
    t.pos = 8 * (1 + tocBytes.length + (frameBytes frames).length) ∧
      (readReg .cmrOut t).toNat = 256 * cmrByte.toNat + cmrByte.toNat / 16 ∧
      (readReg .resLen t).toNat = 1 + tocBytes.length + (frameBytes frames).length ∧
      (readReg .resFrames t).toNat = 65536 * frames.length + tocBytes.length ∧
      (readReg .resSamples t).toNat = 160 * frames.length ∧
      (readReg .resPcmBytes t).toNat = 160 * s.params.pcmSampleBytes * frames.length ∧
      t.calls = s.calls ++ decodeCalls frames s ∧ t.pcmIn = s.pcmIn ∧
      (∀ k, t.pcmOut[k]? = if k < frames.length then some (decodeReplies frames s)[k]? else s.pcmOut[k]?) ∧
      (t.ie = s.ie ∧ t.ovr = s.ovr ∧ t.hstate = s.hstate) ∧
      KeepsRegs unpackRegs s t ∧ KeepsPbuf s t ∧ KeepsOutside s t := by
  obtain ⟨-, -, -, -, hsample⟩ := hlegal
  have hkeeps := unpackDone_keepsResults tr cmrByte tocBytes frames s
  rw [← ht] at hkeeps
  rw [hkeeps .cmrOut (by decide), hkeeps .resLen (by decide), hkeeps .resFrames (by decide), hkeeps .resSamples (by decide),
    hkeeps .resPcmBytes (by decide), ht]
  exact ⟨unpackDone_pos tr cmrByte tocBytes frames s hl, unpacked_cmrOut_toNat, unpacked_resLen_toNat hl,
    unpacked_resFrames_toNat (by omega) hn, unpacked_resSamples_toNat hn, unpacked_resPcmBytes_toNat hn hsample,
    unpackDone_calls tr cmrByte tocBytes frames s, by simp [unpackDone],
    unpackDone_pcmOut tr cmrByte tocBytes frames s hslots, by simp [unpackDone],
    unpackDone_keepsRegs tr cmrByte tocBytes frames s, by simp [KeepsPbuf, unpackDone],
    unpackDone_keepsOutside tr cmrByte tocBytes frames s⟩

end

/-- UNPACK of a payload that holds all its speech frames. -/
theorem exec_unpack_whole {outcap : BitVec 8} {s : State} {cmrByte : Byte} {tocBytes : List Byte}
    {frames : List (TocEntry × List Byte)} (hi : unpackIllegal outcap s = false) (hs : s.hstate = .live)
    (hchain : TocChain tocBytes) (hmap : frames.map (fun x => x.1) = speechEntries tocBytes) (hfit : FramesFit frames)
    (hb : HoldsBytes s 0 (cmrByte :: (tocBytes ++ frameBytes frames)))
    (hl : 1 + tocBytes.length + (frameBytes frames).length ≤ s.argLen.toNat) (hcap : frames.length ≤ outcap.toNat) :
    exec (.unpack outcap) s = .next (unpackDone false cmrByte tocBytes frames s) :=
  exec_unpack_speech hi hs hchain (List.append_nil _).symm hmap hfit hb hl (by rw [← hmap, List.length_map]; exact hcap) rfl

/-- Settles O46: the speech phase runs to the end of the TOC. -/
theorem unpackDecodesThePayload : Obligations.UnpackDecodesThePayload := by
  unfold Obligations.UnpackDecodesThePayload
  intro outcap s cmrByte tocBytes frames hlegal hsized hout harg hs hchain hmap hfit hb hl hcap
  have hplen : s.argLen.toNat ≤ 65535 := Nat.le_of_lt_succ s.argLen.isLt
  have hslots : frames.length ≤ s.pcmOut.length := hsized.2 ▸ hcap.trans hout
  obtain ⟨hpos, hcmr, hlen, hframes, hsamples, hbytes, hcalls, hin, hpcm, ⟨hie, hovr, hlive⟩, hkeeps⟩ :=
    unpackDone_reports false (cmrByte := cmrByte) (hl.trans hplen) (hcap.trans (Nat.le_of_lt_succ outcap.isLt)) hlegal
      hslots rfl
  exact ⟨_, exec_unpack_whole ((Stops.unpackIllegal_false outcap s).mpr ⟨hout, harg⟩) hs hchain hmap hfit hb hl hcap,
    ⟨rfl, rfl, rfl⟩, hpos, hcmr, hlen, hframes, hsamples, hbytes, hcalls, hin, hpcm,
    ⟨hie, hovr, by simp [unpackDone, unpackEnd], hlive⟩, hkeeps⟩

/-- Settles O47: the speech phase ends at the frame that does not fit, with the state the frames before it left. -/
theorem unpackKeepsWhatCameBeforeATruncation : Obligations.UnpackKeepsWhatCameBeforeATruncation := by
  unfold Obligations.UnpackKeepsWhatCameBeforeATruncation
  intro outcap s cmrByte tocBytes before after e frames hlegal hsized hout harg hs hchain hsplit h7 hmap hfit hb hl hlong hcap
  have hplen : s.argLen.toNat ≤ 65535 := Nat.le_of_lt_succ s.argLen.isLt
  have hfew : frames.length ≤ (speechEntries tocBytes).length := by
    rw [← List.length_map (f := fun x : TocEntry × List Byte => x.1), hmap, speechEntries, hsplit, List.filter_append,
      List.length_append]
    exact Nat.le_add_right _ _
  have hcap' : frames.length ≤ outcap.toNat := hfew.trans hcap
  have hslots : frames.length ≤ s.pcmOut.length := hsized.2 ▸ hcap'.trans hout
  have hend := decodeFrames_truncated (nd := frames.length) after h7
    (afterDecode_pos (1 + tocBytes.length) 0 frames (unpackRead cmrByte tocBytes s)
      (Nat.lt_succ_of_le (hl.trans hplen))) hlong
  obtain ⟨hpos, hcmr, hlen, hframes, hsamples, hbytes, hcalls, hin, hpcm, ⟨hie, hovr, hlive⟩, hkeeps⟩ :=
    unpackDone_reports true (cmrByte := cmrByte) (hl.trans hplen) (hcap'.trans (Nat.le_of_lt_succ outcap.isLt)) hlegal
      hslots rfl
  exact ⟨_, exec_unpack_speech ((Stops.unpackIllegal_false outcap s).mpr ⟨hout, harg⟩) hs hchain hsplit hmap hfit hb hl hcap
    hend, ⟨rfl, rfl, rfl⟩, rfl, hpos, hcmr, hlen, hframes, hsamples, hbytes, hcalls, hin, hpcm, hie, hovr, hlive, hkeeps⟩

/-! ### PACK, then UNPACK (R175) -/

/-- A codec call sees the speech bytes and FT and Q of the entry, not its F. -/
def decodeArgs (x : TocEntry × List Byte) : BitVec 4 × BitVec 1 × List Byte := (x.1.ft, x.1.q, x.2)

theorem decodes_of_args {xs ys : List (TocEntry × List Byte)} (h : xs.map decodeArgs = ys.map decodeArgs) (s : State) :
    decodeCalls xs s = decodeCalls ys s ∧ decodeReplies xs s = decodeReplies ys s := by
  induction xs generalizing ys s with
  | nil =>
    obtain rfl : ys = [] := by simpa using h.symm
    exact ⟨rfl, rfl⟩
  | cons x xs ih =>
    obtain _ | ⟨⟨e, b⟩, ys⟩ := ys
    · simp at h
    · obtain ⟨e', b'⟩ := x
      simp only [List.map_cons, List.cons.injEq, decodeArgs, Prod.mk.injEq] at h
      obtain ⟨⟨hft, hq, rfl⟩, htail⟩ := h
      simp only [decodeCalls, decodeReplies, hft, hq, ih htail, and_self]

theorem parseToc_tocByte (f q : BitVec 1) (ft : BitVec 4) : parseToc (tocByte f ft q) = { f := f, ft := ft, q := q } := by
  revert f q ft
  decide

/-- The entries and speech bytes UNPACK finds in the wire form of these replies. -/
def wireFrames : List EncodeReply → List (TocEntry × List Byte)
  | []      => []
  | r :: rs =>
    ({ f := if rs = [] then 0#1 else 1#1, ft := r.mode.setWidth 4, q := r.q }, wireFrame r) :: wireFrames rs

@[simp] theorem wireFrames_length (rs : List EncodeReply) : (wireFrames rs).length = rs.length := by
  induction rs with
  | nil => rfl
  | cons r rs ih => simp [wireFrames, ih]

theorem parseToc_wireToc (rs : List EncodeReply) : (wireToc rs).map parseToc = (wireFrames rs).map (fun x => x.1) := by
  induction rs with
  | nil => rfl
  | cons r rs ih => simp [wireToc, wireFrames, parseToc_tocByte, ih]

theorem frameBytes_wireFrames (rs : List EncodeReply) : frameBytes (wireFrames rs) = rs.flatMap wireFrame := by
  induction rs with
  | nil => rfl
  | cons r rs ih => simpa [frameBytes, wireFrames] using ih

/-- The decode R175 asks for after a reply: its mode and quality bit, and its bytes with the pad bits cleared. -/
def sentFrame (r : EncodeReply) : TocEntry × List Byte := ({ f := 0#1, ft := r.mode.setWidth 4, q := r.q }, wireFrame r)

theorem wireFrames_args (rs : List EncodeReply) : (wireFrames rs).map decodeArgs = (rs.map sentFrame).map decodeArgs := by
  induction rs with
  | nil => rfl
  | cons r rs ih => simpa [decodeArgs, wireFrames, sentFrame] using ih

/-- F = 1 in every TOC byte of PACK but the last (R126, R145). -/
theorem tocChain_wireToc {rs : List EncodeReply} (h : rs ≠ []) : TocChain (wireToc rs) := by
  induction rs with
  | nil => exact absurd rfl h
  | cons r rs ih =>
    cases rs with
    | nil => simp [wireToc, TocChain, parseToc_tocByte]
    | cons r' rs => exact ⟨by simp [parseToc_tocByte], ih (List.cons_ne_nil r' rs)⟩

/-- FT of a TOC byte holds a mode up to 7 whole (R145). -/
theorem mode_setWidth_toNat {mode : BitVec 8} (h : mode.toNat ≤ 7) : (mode.setWidth 4).toNat = mode.toNat := by
  rw [BitVec.toNat_setWidth]
  omega

theorem mode_setWidth_setWidth {mode : BitVec 8} (h : mode.toNat ≤ 7) : (mode.setWidth 4).zeroExtend 8 = mode := by
  refine BitVec.eq_of_toNat_eq ?_
  rw [BitVec.zeroExtend, BitVec.toNat_setWidth, mode_setWidth_toNat h]
  omega

section
variable {rs : List EncodeReply} (h : ∀ r ∈ rs, r.mode.toNat ≤ 7 ∧ r.bytes.length = nbytes r.mode.toNat)
include h

theorem wireFrames_mem {x : TocEntry × List Byte} (hx : x ∈ wireFrames rs) :
    x.1.ft.toNat ≤ 7 ∧ x.2.length = nbytes x.1.ft.toNat := by
  induction rs with
  | nil => simp [wireFrames] at hx
  | cons r rs ih =>
    obtain ⟨hmode, hlen⟩ := h r List.mem_cons_self
    rcases List.mem_cons.mp hx with rfl | hx
    · simp only [mode_setWidth_toNat hmode]
      exact ⟨hmode, wireFrame_length r hlen⟩
    · exact ih (fun r hr => h r (List.mem_cons_of_mem _ hr)) hx

/-- PACK writes no markers. -/
theorem speechEntries_wireToc : speechEntries (wireToc rs) = (wireFrames rs).map (fun x => x.1) := by
  rw [speechEntries, parseToc_wireToc, List.filter_eq_self]
  intro e he
  obtain ⟨x, hx, rfl⟩ := List.mem_map.mp he
  exact decide_eq_true (wireFrames_mem h hx).1

end

theorem encodeReplies_stub {s : State} (hstub : s.params.codec = .stub) (xs : List PcmFrame) :
    encodeReplies xs s = xs.map stubReply := by
  induction xs generalizing s with
  | nil => rfl
  | cons x xs ih => simp only [encodeReplies, List.map_cons, ih (s := recordCall _ s) hstub, encodeAnswer, hstub]

theorem decodeReplies_stub {s : State} (hstub : s.params.codec = .stub) (xs : List (TocEntry × List Byte)) :
    decodeReplies xs s = xs.map fun x => stubFrame (x.1.ft.zeroExtend 8) x.1.q x.2 := by
  induction xs generalizing s with
  | nil => rfl
  | cons x xs ih => simp only [decodeReplies, List.map_cons, ih (s := recordCall _ s) hstub, decodeAnswer, hstub]

theorem stubReply_stubFrame (mode : BitVec 8) (q : BitVec 1) (bytes : List Byte) :
    stubReply (stubFrame mode q bytes) = { mode := mode, q := q, bytes := bytes } := by
  have hq : (q.zeroExtend 8).extractLsb' 0 1 = q := by
    revert q
    decide
  rw [stubReply, stubFrame]
  simp only [hq]

/-- What the stub decodes of its own replies are the frames it encoded, where the pad bits are 0 (log 3). -/
theorem decodeReplies_encodeReplies_stub {s t : State} (hs : s.params.codec = .stub) (ht : t.params.codec = .stub)
    {frames : List PcmFrame} (hmode : ∀ r ∈ encodeReplies frames s, r.mode.toNat ≤ 7)
    (hpad : ∀ x ∈ frames, ∃ r : EncodeReply, x = stubFrame r.mode r.q r.bytes ∧ wireFrame r = r.bytes) :
    decodeReplies ((encodeReplies frames s).map sentFrame) t = frames := by
  rw [encodeReplies_stub hs] at hmode ⊢
  rw [decodeReplies_stub ht, List.map_map, List.map_map]
  refine (List.map_congr_left fun x hx => ?_).trans (List.map_id frames)
  obtain ⟨r, hframe, hbytes⟩ := hpad x hx
  have hreply : stubReply x = r := by rw [hframe, stubReply_stubFrame]
  have hle : r.mode.toNat ≤ 7 := hreply ▸ hmode _ (List.mem_map_of_mem hx)
  simp only [Function.comp_apply, hreply, sentFrame, mode_setWidth_setWidth hle, hbytes, id_eq]
  exact hframe.symm

/-- A PACK that ended without an error wrote the wire form of the replies to the frames of its input slots. -/
theorem exec_pack_succeeded {cmr : BitVec 4} {nfr : BitVec 8} {s t : State} {frames : List PcmFrame}
    (hlen : frames.length = nfr.toNat) (hin : ∀ k, k < nfr.toNat → s.pcmIn[k]? = some frames[k]?)
    (hexec : exec (.pack cmr nfr) s = .next t) (herr : t.err = .none) :
    (1 ≤ nfr.toNat ∧ s.argLen.toNat ≤ s.params.bufCap) ∧
      (∀ r ∈ encodeReplies frames s, r.mode.toNat ≤ 7 ∧ r.bytes.length = nbytes r.mode.toNat) ∧
      (wirePayload cmr (encodeReplies frames s)).length ≤ s.argLen.toNat ∧ t = finish (packDone cmr nfr frames s) := by
  rcases execPack_cases cmr nfr s t hexec with
    ⟨-, rfl⟩ | ⟨-, -, rfl⟩ | ⟨hi, -, read, -, hread, -, ⟨-, -, -, -, -, rfl⟩ | ⟨hl, hr, ⟨-, rfl⟩ | ⟨hfit, ht⟩⟩⟩
  · cases herr
  · cases herr
  · cases herr
  · cases herr
  · obtain ⟨h1, -, hcap⟩ := (Stops.packIllegal_false nfr s).mp hi
    have hsame : read = frames := by
      refine List.ext_getElem? fun k => ?_
      rcases Nat.lt_or_ge k nfr.toNat with hk | hk
      · have hslot := hread k (by omega)
        rw [List.getD_eq_getElem?_getD, hin k hk] at hslot
        exact hslot.symm
      · rw [List.getElem?_eq_none (by omega), List.getElem?_eq_none (by omega)]
    subst hsame
    rw [wirePayload_length cmr _ fun r hm => (hr r hm).2]
    exact ⟨⟨h1, hcap⟩, hr, hfit, ht⟩

/-- UNPACK of the wire form of these replies (R149) in PBUF, with its length in ARG_LEN. -/
theorem exec_unpack_wire {outcap : BitVec 8} {s : State} {cmr : BitVec 4} {rs : List EncodeReply}
    (hi : unpackIllegal outcap s = false) (hs : s.hstate = .live) (hne : rs ≠ [])
    (hr : ∀ r ∈ rs, r.mode.toNat ≤ 7 ∧ r.bytes.length = nbytes r.mode.toNat)
    (hb : HoldsBytes s 0 (wirePayload cmr rs)) (harg : s.argLen.toNat = (wirePayload cmr rs).length)
    (hcap : rs.length ≤ outcap.toNat) :
    exec (.unpack outcap) s =
      .next (unpackDone false (cmr.zeroExtend 8 <<< 4) (wireToc rs) (wireFrames rs) s) := by
  rw [wirePayload, ← frameBytes_wireFrames] at hb harg
  refine exec_unpack_whole hi hs (tocChain_wireToc hne) (speechEntries_wireToc hr).symm
    (fun x hx => (wireFrames_mem hr hx).2) hb ?_ (by simpa using hcap)
  rw [harg, List.length_cons, List.length_append]
  omega

/-- The CMR byte of R149. -/
theorem cmrByte_toNat (cmr : BitVec 4) : (cmr.zeroExtend 8 <<< 4 : Byte).toNat = 16 * cmr.toNat := by
  revert cmr
  decide

/-- What UNPACK reports and decodes of the wire form of these replies (R175). -/
theorem unpackDone_wire {s u : State} {cmr : BitVec 4} {rs : List EncodeReply} (hlegal : s.params.legal)
    (hlen : (wirePayload cmr rs).length ≤ 65535) (hn : rs.length ≤ 255) (hslots : rs.length ≤ s.pcmOut.length)
    (hu : u = unpackDone false (cmr.zeroExtend 8 <<< 4) (wireToc rs) (wireFrames rs) s) :
    u.ntoc.toNat = rs.length ∧ u.ndec.toNat = rs.length ∧ u.resLen.toNat = (wirePayload cmr rs).length ∧ u.cmrOut = cmr ∧
      u.calls = s.calls ++ decodeCalls (rs.map sentFrame) s ∧
      ∀ k, k < rs.length → u.pcmOut[k]? = some (decodeReplies (rs.map sentFrame) s)[k]? := by
  have hpayload : 1 + (wireToc rs).length + (frameBytes (wireFrames rs)).length = (wirePayload cmr rs).length := by
    rw [wirePayload, frameBytes_wireFrames, List.length_cons, List.length_append]
    omega
  obtain ⟨-, hcmr, hresLen, hresFrames, -, -, hcalls, -, hpcm, -⟩ :=
    unpackDone_reports false (hpayload.trans_le hlen) ((wireFrames_length rs).trans_le hn) hlegal
      ((wireFrames_length rs).trans_le hslots) hu
  obtain ⟨hsame, hreplies⟩ := decodes_of_args (wireFrames_args rs) s
  rw [hpayload] at hresLen
  simp only [HostBus.readReg_toNat, registerNumber, cmrByte_toNat, wireFrames_length, wireToc_length]
    at hcmr hresLen hresFrames
  have hntoc := u.ntoc.isLt
  have hcmrOut := u.cmrOut.isLt
  refine ⟨by omega, by omega, hresLen, BitVec.eq_of_toNat_eq (by omega), hsame ▸ hcalls, fun k hk => ?_⟩
  rw [hpcm k, wireFrames_length, if_pos hk, hreplies]

/-- Settles O48: the payload PACK left is well formed, its entries are the replies, and the decodes ask for them in order. -/
theorem unpackOfPackRoundTrip : Obligations.UnpackOfPackRoundTrip := by
  unfold Obligations.UnpackOfPackRoundTrip
  intro cmr nfr outcap s t frames hlegal hsized hw hs hlen hin hout hslots hexec herr
  obtain ⟨⟨h1, hcap⟩, hr, hfit, rfl⟩ := exec_pack_succeeded hlen hin hexec herr
  have hplen : (wirePayload cmr (encodeReplies frames s)).length ≤ 65535 := hfit.trans (Nat.le_of_lt_succ s.argLen.isLt)
  have hn : (encodeReplies frames s).length = nfr.toNat := (encodeReplies_length frames s).trans hlen
  have hresLen := Packing.finish_packDone_resLen_toNat (cmr := cmr) (nfr := nfr) (Nat.lt_succ_of_le hplen)
  have hholds := Packing.finish_packDone_holdsBytes (cmr := cmr) (nfr := nfr) (frames := frames) hw
  generalize ht : finish (packDone cmr nfr frames s) = t at *
  have hparams : t.params = s.params := by simp [← ht]
  have hpcmOut : t.pcmOut = s.pcmOut := by simp [← ht]
  have hlive : t.hstate = .live := by simp [← ht, hs]
  have hunpack : exec (.unpack outcap) { t with argLen := t.resLen } = _ :=
    exec_unpack_wire ((Stops.unpackIllegal_false _ _).mpr
      ⟨by rw [hparams]; exact hslots, by rw [hparams, hresLen]; exact hfit.trans hcap⟩)
      hlive (List.ne_nil_of_length_pos (hn ▸ h1)) hr hholds hresLen (hn ▸ hout)
  obtain ⟨hntoc, hndec, hulen, hcmr, hcalls, hpcm⟩ := unpackDone_wire (s := { t with argLen := t.resLen })
    (hparams ▸ hlegal) hplen (hn ▸ Nat.le_of_lt_succ nfr.isLt) (by rw [hn, hpcmOut, hsized.2]; exact hout.trans hslots) rfl
  refine ⟨_, hunpack, rfl, hn ▸ hntoc, hn ▸ hndec, BitVec.eq_of_toNat_eq (hulen.trans hresLen.symm), hcmr, ?_, ?_⟩
  · exact hcalls.trans (congrArg _ (decodeCalls_congr _ rfl rfl rfl))
  · intro hstub hpad k hk
    rw [hpcm k (hn ▸ hk), decodeReplies_encodeReplies_stub hstub (by rw [hparams]; exact hstub) (fun r hm => (hr r hm).1) hpad]

end Sys2Proof.Unpacking
end

section
/-! PROOFS. The sizing helpers (O25 to O27): RESULT of B2S and of S2B as a number, which 32 bits hold for every operand of 16. -/

namespace Sys2Proof.SizingHelpers

open Sys2Proof.Machine Sys2Proof.Safety

/-- RESULT of B2S before it is cut to 32 bits (R181). -/
theorem b2s_quotient_eq (n : BitVec 16) : n.toNat * samplesPerFrame / bytesPerFrame = 16 * n.toNat := by
  simp only [samplesPerFrame, bytesPerFrame]
  omega

/-- RESULT of S2B before it is cut to 32 bits (R182). -/
theorem s2b_quotient_eq (n : BitVec 16) : n.toNat * bytesPerFrame / samplesPerFrame = n.toNat / 16 := by
  simp only [samplesPerFrame, bytesPerFrame]
  omega

/-- The largest RESULT of B2S is 16 * 65535 (R181). -/
theorem b2s_result_toNat (n : BitVec 16) :
    (BitVec.ofNat 32 (n.toNat * samplesPerFrame / bytesPerFrame)).toNat = 16 * n.toNat := by
  have hn := n.isLt
  rw [b2s_quotient_eq, BitVec.toNat_ofNat, Nat.mod_eq_of_lt (by omega)]

/-- The largest RESULT of S2B is 4095 (R182). -/
theorem s2b_result_toNat (n : BitVec 16) :
    (BitVec.ofNat 32 (n.toNat * bytesPerFrame / samplesPerFrame)).toNat = n.toNat / 16 := by
  have hn := n.isLt
  rw [s2b_quotient_eq, BitVec.toNat_ofNat, Nat.mod_eq_of_lt (by omega)]

/-- Settles O25: the product and the quotient fit RESULT, and B2S is a completion after a change of RESULT alone. -/
theorem b2sMultipliesBy16 : Obligations.B2sMultipliesBy16 := by
  unfold Obligations.B2sMultipliesBy16
  intro n s
  exact ⟨_, rfl, Commands.onlyResult_completeWith _ _ s, (b2s_result_toNat n).trans (b2s_quotient_eq n).symm,
    b2s_result_toNat n⟩

/-- Settles O26: the quotient fits RESULT, and S2B is a completion after a change of RESULT alone. -/
theorem s2bDividesBy16 : Obligations.S2bDividesBy16 := by
  unfold Obligations.S2bDividesBy16
  intro n s
  exact ⟨_, rfl, Commands.onlyResult_completeWith _ _ s, (s2b_result_toNat n).trans (s2b_quotient_eq n).symm,
    s2b_result_toNat n⟩

/-- The operand of S2B holds RESULT of B2S whole up to N = 4095 (R182). -/
theorem b2s_result_operand_toNat {n : BitVec 16} (hn : n.toNat ≤ 4095) {s t : State} (h : exec (.b2s n) s = .next t) :
    (t.result.extractLsb' 0 16).toNat = 16 * n.toNat := by
  have hresult : t.result.toNat = 16 * n.toNat := by
    obtain rfl := Host.Outcome.next.inj h
    exact b2s_result_toNat n
  rw [TocFields.field_toNat, hresult]
  omega

/-- Settles O27: S2B divides the 16 * N its operand holds by 16 (O26). -/
theorem s2bUndoesB2s : Obligations.S2bUndoesB2s := by
  unfold Obligations.S2bUndoesB2s
  intro n s t hn hb2s
  obtain ⟨u, hs2b, -, -, hquot⟩ := s2bDividesBy16 (t.result.extractLsb' 0 16) t
  refine ⟨u, hs2b, BitVec.eq_of_toNat_eq ?_⟩
  calc (readReg .result u).toNat = 16 * n.toNat / 16 := by rw [hquot, b2s_result_operand_toNat hn hb2s]
    _ = n.toNat := Nat.mul_div_cancel_left _ (by decide)
    _ = (n.zeroExtend 32).toNat := (HostBus.zeroExtend_toNat n (by decide)).symm

end Sys2Proof.SizingHelpers
end

section
/-! PROOFS. NOP and the codec's lifecycle (O28 to O32): a refusal and NOP are completions, and CODEC_CREATE in NONE and
CODEC_DESTROY in LIVE are one call on the codec port and a completion. -/

namespace Sys2Proof.Lifecycle

open Sys2Proof.Machine Sys2Proof.Config Sys2Proof.Safety

/-! ### NOP (R190) -/

theorem step_nopWord {s : State} {rest : List HostOp} (hh : s.host = .write 0x010 32 0#32 :: rest) (hf : s.faulted = none)
    (hb : s.busy = false) : step s = .next (completeWith .none (acceptCommand 0#32 { s with host := rest })) := by
  have hnop : decode 0#32 = .ok .nop := (CommandWords.nopIsOnlyTheZeroWord.1 0#32).mpr rfl
  rw [Flags.step_cmdWrite s 0#32 rest hh hf hb, runWord, hnop]
  rfl

/-- Settles O28: NOP is a completion with no effect before it, and in a step only the acceptance comes before that. -/
theorem nopOnlyCompletes : Obligations.NopOnlyCompletes := by
  unfold Obligations.NopOnlyCompletes
  refine ⟨fun s => ⟨_, rfl, BitCursor.onlyCompletes_completeWith _ s⟩, fun s rest hh hf hb =>
    ⟨_, step_nopWord hh hf hb, hf, ⟨rfl, rfl, rfl⟩, rfl, fun r hr => ?_⟩⟩
  exact (CommandWords.completeWith_acceptCommand_keepsRegs _ _ _ r hr).trans (HostBus.readReg_host r s rest)

/-! ### One codec call, then the completion (R191) -/

/-- A lifecycle command that reached the codec: its call, the handle's new state and the completion. -/
def called (c : CodecCall) (h : HState) (e : ErrCode) (s : State) : State :=
  completeWith e { recordCall c s with hstate := h }

section
variable (c : CodecCall) (h : HState) (e : ErrCode) (s : State)

theorem called_ended : Ended e (called c h e s) := ⟨rfl, rfl, rfl⟩

@[simp] theorem called_calls : (called c h e s).calls = s.calls ++ [c] := rfl

@[simp] theorem called_hstate : (called c h e s).hstate = h := rfl

theorem called_keepsRegs : KeepsRegs [.status] s (called c h e s) := by
  intro r hr
  cases r with
  | status => simp at hr
  | _ => rfl

/-- Beside the completion fields, the call history and HSTATE nothing changes. -/
theorem called_keepsRest {t : State} (ht : t = called c h e s) :
    t.ie = s.ie ∧ t.ovr = s.ovr ∧ t.trunc = s.trunc ∧ KeepsRegs [.status] s t ∧ KeepsPbuf s t ∧ KeepsSlots s t ∧
      KeepsOutside s t := by
  subst ht
  exact ⟨rfl, rfl, rfl, called_keepsRegs c h e s, fun _ => rfl, ⟨rfl, rfl⟩, rfl, rfl, rfl, rfl⟩

end

/-! ### CODEC_CREATE (R192) -/

section
variable {s : State}

theorem exec_codecCreate_again (hs : s.hstate ≠ .none) :
    exec .codecCreate s = .next (completeWith .illegalCommand s) := if_pos hs

theorem exec_codecCreate_none (hs : s.hstate = .none) :
    exec .codecCreate s = .next (createDone (createAnswer s) (recordCall (.create s.codecParam (createAnswer s)) s)) :=
  if_neg (not_not_intro hs)

theorem exec_codecCreate_ok (hs : s.hstate = .none) (ha : createAnswer s = true) :
    exec .codecCreate s = .next (called (.create s.codecParam true) .live .none s) := by
  rw [exec_codecCreate_none hs, ha]
  rfl

theorem exec_codecCreate_failed (hs : s.hstate = .none) (ha : createAnswer s = false) :
    exec .codecCreate s = .next (called (.create s.codecParam false) .none .initializationError s) := by
  rw [exec_codecCreate_none hs, ha, called, ← hs]
  rfl

end

/-- Settles O29: the codec answers ok or it does not, and the one call it answers is on record either way. -/
theorem codecCreateFollowsTheCodec : Obligations.CodecCreateFollowsTheCodec := by
  unfold Obligations.CodecCreateFollowsTheCodec
  intro s hs
  cases ha : createAnswer s with
  | true =>
    exact ⟨_, exec_codecCreate_ok hs ha, called_calls .., fun _ => ⟨called_ended .., called_hstate ..⟩, nofun,
      called_keepsRest _ _ _ s rfl⟩
  | false =>
    exact ⟨_, exec_codecCreate_failed hs ha, called_calls .., nofun, fun _ => ⟨called_ended .., called_hstate ..⟩,
      called_keepsRest _ _ _ s rfl⟩

/-- Settles O30: the check of HSTATE comes before the call. -/
theorem codecCreateOnlyOnce : Obligations.CodecCreateOnlyOnce := by
  unfold Obligations.CodecCreateOnlyOnce
  exact fun s hs => ⟨_, exec_codecCreate_again hs, BitCursor.onlyCompletes_completeWith _ s⟩

/-! ### CODEC_DESTROY (R193) -/

theorem exec_codecDestroy_live {s : State} (hs : s.hstate = .live) :
    exec .codecDestroy s = .next (called .destroy .released .none s) := if_neg (not_not_intro hs)

theorem exec_codecDestroy_not_live {s : State} (hs : s.hstate ≠ .live) :
    exec .codecDestroy s = .next (completeWith .uninitializedCodec s) := if_pos hs

/-- Settles O31: one call, HSTATE and the completion are all CODEC_DESTROY does in LIVE. -/
theorem codecDestroyReleases : Obligations.CodecDestroyReleases := by
  unfold Obligations.CodecDestroyReleases
  exact fun s hs => ⟨_, exec_codecDestroy_live hs, called_ended .., called_calls .., called_hstate ..,
    called_keepsRest _ _ _ s rfl⟩

/-- Settles O32: the check of HSTATE comes before the call. -/
theorem codecDestroyNeedsAHandle : Obligations.CodecDestroyNeedsAHandle := by
  unfold Obligations.CodecDestroyNeedsAHandle
  exact fun s hs => ⟨_, exec_codecDestroy_not_live hs, BitCursor.onlyCompletes_completeWith _ s⟩

end Sys2Proof.Lifecycle
end

section
/-! PROOFS. Acceptance, completion, OVR, model faults and the platform's reset (O6, O8, O9, O56). What a command keeps follows
from the one way it ends; what an access keeps, and where a step answers a fault, from the branches of the step. -/

namespace Sys2Proof.Exceptions

open Sys2Proof.Machine Sys2Proof.Config Sys2Proof.Safety Sys2Proof.Laws

/-! ### The step that runs a command (R204, R215, R219) -/

/-- The step that takes a legal word: the acceptance, then the command. -/
theorem step_legalWord {s : State} {w : Word} {rest : List HostOp} {i : Instr} (hh : s.host = .write 0x010 32 w :: rest)
    (hf : s.faulted = none) (hb : s.busy = false) (hd : decode w = .ok i) :
    step s = recordFault (exec i (acceptCommand w { s with host := rest })) { s with host := rest } := by
  rw [Flags.step_cmdWrite s w rest hh hf hb, runWord, hd]

/-- Settles O6: the accepted state is `acceptCommand`, and what the command comes to is `recordFault`. -/
theorem stepRunsTheDecodedCommand : Obligations.StepRunsTheDecodedCommand := by
  unfold Obligations.StepRunsTheDecodedCommand
  refine ⟨fun s w rest i hh hf hb hd => ?_, fun s hh hf => step_idle s hf hh⟩
  rw [step_legalWord hh hf hb hd]
  rfl

/-! ### Completion (R206, R207, R210) -/

/-- A completed command raises irq exactly where CTRL.IE is set (R210). -/
@[simp] theorem completeWith_irq (e : ErrCode) (s : State) : (completeWith e s).irq = s.ie := Bool.and_true s.ie

/-- Settles O9: a command ends in `completeWith`, and leaves the other fields untouched before it. -/
theorem everyCompletionIsTheSame : Obligations.EveryCompletionIsTheSame := by
  unfold Obligations.EveryCompletionIsTheSame
  intro i s t h
  obtain ⟨e, u, rfl, hu⟩ := exec_completes i s t h
  exact ⟨rfl, rfl, (completeWith_irq e u).trans hu.ie, hu.ie, hu.ovr, hu.cmd, hu.argLen, hu.codecParam, hu.pcmIn,
    hu.params, hu.host, hu.returned, hu.faulted⟩

theorem exec_ovr {i : Instr} {s t : State} (h : exec i s = .next t) : t.ovr = s.ovr := by
  obtain ⟨e, u, rfl, hu⟩ := exec_completes i s t h
  exact hu.ovr

/-! ### OVR (R25, R205) -/

/-- A CMD write that finds BUSY = 1 is no acceptance, and reaches the register as any other write. -/
theorem step_cmdWrite_busy {s : State} {w : Word} {rest : List HostOp} (hh : s.host = .write 0x010 32 w :: rest)
    (hf : s.faulted = none) (hb : s.busy = true) : step s = .next (writeReg .cmd w { s with host := rest }) := by
  have hnone : acceptedWord (.write 0x010 32 w) { s with host := rest } = none := if_neg (by simp [hb])
  have hserved : ¬ (s.busy && !busyAllows (.write 0x010 32 w)) = true := by
    rw [hb]
    exact Bool.false_ne_true
  have htarget : busTarget s.params.bufCap 0x010 32 = .ok (.reg .cmd) := HostBus.busTarget_reg _ .cmd
  rw [HostPort.step_hostAccess hh hf hnone, hostAccess, if_neg hserved]
  simp only [busWrite, htarget]
  rfl

theorem runWord_ovr {w : Word} {s t : State} (h : runWord w s = .next t) : t.ovr = s.ovr := by
  unfold runWord at h
  split at h
  · exact (exec_ovr h).trans (acceptCommand_ovr w s)
  · rw [← Host.Outcome.next.inj h]
    rfl

/-- An access whose target is a register is 32 bits wide, at the register's offset (R65). -/
theorem offset_of_busTarget_reg {cap offset width : Nat} {r : Reg} (h : busTarget cap offset width = .ok (.reg r)) :
    offset = regOffset r ∧ width = 32 := by
  unfold busTarget at h
  split at h
  · split at h
    · cases h
    · split at h
      · cases h
      · rename_i hwidth
        split at h
        · cases h
        · rename_i r' hr
          cases h
          have hoffset := List.find?_some hr
          exact ⟨(beq_iff_eq.mp hoffset).symm, not_not.mp hwidth⟩
  · split at h
    · cases h
    · split at h <;> cases h

/-- Only a STATUS write with bit 2 set takes OVR from 1 to 0 (R25). -/
theorem writeReg_clears_ovr {r : Reg} {v : Word} {s : State} (hs : s.ovr = true) (ht : (writeReg r v s).ovr = false) :
    r = .status ∧ v.getLsbD 2 = true := by
  cases r with
  | status => exact ⟨rfl, by simpa [writeReg, hs] using ht⟩
  | cmd => cases ht
  | _ => exact absurd hs (ne_true_of_eq_false ht)

theorem busWrite_clears_ovr {offset width : Nat} {v : Word} {s t : State} (h : busWrite offset width v s = .next t)
    (hs : s.ovr = true) (ht : t.ovr = false) : offset = 0x00C ∧ width = 32 ∧ v.getLsbD 2 = true := by
  unfold busWrite at h
  split at h
  · cases h
  · rename_i r htarget
    cases h
    obtain ⟨rfl, hbit⟩ := writeReg_clears_ovr hs ht
    obtain ⟨hoffset, hwidth⟩ := offset_of_busTarget_reg htarget
    exact ⟨hoffset, hwidth, hbit⟩
  · cases h
    exact absurd hs (ne_true_of_eq_false ht)

/-- `wait` writes 2 to STATUS, which leaves OVR (R90). -/
theorem hostWait_ovr (s : State) : (hostWait s).ovr = s.ovr := by
  unfold hostWait
  split
  · exact Bool.and_true s.ovr
  · rfl

theorem pcmInWrite_ovr {k : Nat} {x : PcmFrame} {s t : State} (h : pcmInWrite k x s = .next t) : t.ovr = s.ovr := by
  unfold pcmInWrite at h
  split at h <;> cases h
  rfl

/-- The accesses that take OVR from 1 to 0: a STATUS write with bit 2 set and the platform's reset (R205). -/
def ClearsOvr (op : HostOp) : Prop := (∃ v, op = .write 0x00C 32 v ∧ v.getLsbD 2 = true) ∨ op = .platformReset

theorem hostAccess_clears_ovr {op : HostOp} {s t : State} (h : hostAccess op s = .next t) (hs : s.ovr = true)
    (ht : t.ovr = false) : ClearsOvr op := by
  have changed (hkept : t.ovr = s.ovr) : ClearsOvr op := by
    rw [hs, ht] at hkept
    cases hkept
  unfold hostAccess at h
  split at h
  · cases h
  · cases op with
    | read offset width =>
      obtain ⟨d, rfl⟩ := HostPort.busRead_answers h
      exact changed rfl
    | write offset width v =>
      obtain ⟨rfl, rfl, hbit⟩ := busWrite_clears_ovr h hs ht
      exact .inl ⟨v, rfl, hbit⟩
    | pcmInWrite k x => exact changed (pcmInWrite_ovr h)
    | pcmOutRead k =>
      obtain ⟨d, rfl⟩ := HostPort.pcmOutRead_answers h
      exact changed rfl
    | wait =>
      cases h
      exact changed (hostWait_ovr s)
    | platformReset => exact .inr rfl

theorem access_clears_ovr {op : HostOp} {s t : State} (h : access op s = .next t) (hs : s.ovr = true)
    (ht : t.ovr = false) : ClearsOvr op := by
  unfold access at h
  split at h
  · rw [runWord_ovr h, hs] at ht
    cases ht
  · exact hostAccess_clears_ovr h hs ht

theorem step_clears_ovr {s t : State} (h : step s = .next t) (hs : s.ovr = true) (ht : t.ovr = false) :
    ∃ op rest, s.host = op :: rest ∧ ClearsOvr op := by
  rcases Option.eq_none_or_eq_some s.faulted with hf | ⟨f, hf⟩
  · rcases step_unfaulted s t hf h with ⟨-, rfl⟩ | ⟨op, rest, hh, ha | ⟨f, -, rfl⟩⟩
    · exact absurd hs (ne_true_of_eq_false ht)
    · exact ⟨op, rest, hh, access_clears_ovr ha hs ht⟩
    · exact absurd hs (ne_true_of_eq_false ht)
  · obtain ⟨rest, hh, -⟩ := step_faulted s t f hf h
    exact ⟨_, rest, hh, .inr rfl⟩

/-- Settles O8: a CMD write that finds BUSY = 1 is a register write, and of all accesses only two clear OVR. -/
theorem cmdWriteWhileBusySetsOvr : Obligations.CmdWriteWhileBusySetsOvr := by
  unfold Obligations.CmdWriteWhileBusySetsOvr
  refine ⟨fun s w rest hh hf hb => step_cmdWrite_busy hh hf hb, fun s t h hs ht => ?_, fun i s t => exec_ovr⟩
  obtain ⟨op, rest, hh, ⟨v, rfl, hbit⟩ | rfl⟩ := step_clears_ovr h hs ht
  · exact .inl ⟨v, rest, hh, hbit⟩
  · exact .inr ⟨rest, hh⟩

/-! ### Model faults and the platform's reset (R215, R230, R231) -/

/-- A fault of an access is recorded in the state and not answered (R215). -/
theorem recordFault_not_fault (o : Host.Outcome State Fault Refusal) (s : State) (f : Fault) : recordFault o s ≠ .fault f := by
  cases o <;> nofun

theorem faultedStep_fault_iff (g f : Fault) (s : State) :
    faultedStep g s = .fault f ↔ g = f ∧ ∀ rest, s.host ≠ .platformReset :: rest := by
  unfold faultedStep
  split
  · rename_i hh
    simp [hh]
  · rename_i op rest hh
    by_cases hop : op = .platformReset <;> simp [hh, hop]

/-- A step answers a fault exactly where a faulted state is asked to go on without a reset (R215, R230). -/
theorem step_fault_iff (s : State) (f : Fault) :
    step s = .fault f ↔ s.faulted = some f ∧ ∀ rest, s.host ≠ .platformReset :: rest := by
  cases hf : s.faulted with
  | none =>
    have hstep : step s ≠ .fault f := by
      cases hh : s.host with
      | nil =>
        rw [step_idle s hf hh]
        nofun
      | cons op rest =>
        rw [step_access s op rest hf hh]
        exact recordFault_not_fault _ _ f
    exact ⟨fun h => absurd h hstep, fun h => nomatch h.1⟩
  | some g => rw [step_of_faulted s g hf, faultedStep_fault_iff, Option.some.injEq]

/-- Settles O56: the reset is taken from every state, and leaves the reset values of its parameters. -/
theorem platformResetFromAnyState : Obligations.PlatformResetFromAnyState := by
  unfold Obligations.PlatformResetFromAnyState
  refine ⟨step_fault_iff, fun s rest hh => ?_⟩
  obtain ⟨-, -, -, -, hpbuf, -⟩ := HostBus.resetLeavesTheSpecsValues s.params
  exact ⟨_, step_platformReset s rest hh, rfl, fun r => by cases r <;> rfl, hpbuf, rfl, rfl, rfl, rfl, rfl, rfl, rfl, rfl⟩

end Sys2Proof.Exceptions
end

section
/-! PROOFS. The invariants at reset (O57): the base case of the step lemma `Invariants.stepsKeepTheInvariants`. -/

namespace Sys2Proof.Reset

open Sys2Proof.Machine Sys2Proof.Config Sys2Proof.Safety

/-- The reference numbers lie in the legal ranges of R9. -/
theorem referenceParams_legal : referenceParams.legal := by decide

/-- Settles O57: the reset values meet the invariants for all legal parameters, and the reference numbers are legal. -/
theorem invariantsHoldAtReset : Obligations.InvariantsHoldAtReset := by
  unfold Obligations.InvariantsHoldAtReset
  exact ⟨fun p hp => Invariants.inv_resetFor hp, Invariants.inv_resetFor referenceParams_legal⟩

end Sys2Proof.Reset
end
